-- ==== Sys2Proof/Word.lean ====
section
/-! DEFINITION. The element types of the DFE and the range predicates its tables use: command words,
sample words and complex samples (spec/00_scope.md R9, R10, R13). -/

namespace Sys2Proof

/-- A command word: 32 bits, bit 31 the most significant (R9, R110). -/
abbrev Word := BitVec 32

/-- A word of the sample-input port: a 16-bit two's-complement number (R9, R81). -/
abbrev Sample := BitVec 16

/-- A complex sample of class INT, real part first (R13). -/
abbrev Cplx := Int × Int

/-- A complex value of class REAL: a pair of exact rationals, real part first (R10, R13). -/
abbrev RCplx := Rat × Rat

/-- The integer is in the range of an int16 element (R9, R21). -/
abbrev IsInt16 (v : Int) : Prop := -32768 ≤ v ∧ v ≤ 32767

/-- Both components are int16 (R13, R21). -/
abbrev IsInt16Pair (z : Cplx) : Prop := IsInt16 z.1 ∧ IsInt16 z.2

end Sys2Proof
end

