-- ==== Sys2Proof/Syntax.lean ====
section
/-! DEFINITION. The 27 operations of DFE-OPS version 1, one constructor per row of spec/opcode_table.json
(spec/30_encoding.md R110, R116). -/

namespace Sys2Proof

/-- An operation of DFE-OPS version 1 (R116). `reg` is a register number and `len` a block length counted in
int16 elements (R112, R113); `data` and `imm` are raw words. -/
inductive Instr where
  /-- NOP: no operation (R282). -/
  | nop
  /-- WRR reg, data: write a configuration register with a 32-bit value (R283). -/
  | wrr (reg : Nat) (data : Word)
  /-- WRS reg, imm16: write a configuration register with a sign-extended immediate (R284). -/
  | wrs (reg : Nat) (imm : BitVec 16)
  /-- RST: reset all state (R285). -/
  | rst
  /-- FLLRST: the FLL's explicit reset (R286). -/
  | fllrst
  /-- ERRCLR: clear the error code (R289). -/
  | errclr
  /-- BLK len: load a block, run the enabled pipeline, emit (R290). -/
  | blk (len : Nat)
  /-- LOAD len: load a block into BUF (R287). -/
  | load (len : Nat)
  /-- EMIT: send OUT to the output port (R288). -/
  | emit
  /-- DECIMHB: half-band decimation cascade (R142). -/
  | decimhb
  /-- DECIMLEG: legacy decimator (R144). -/
  | decimleg
  /-- CHLPF: 63-tap channel low-pass (R146). -/
  | chlpf
  /-- SQLM: squelch power measurement and decision (R251). -/
  | sqlm
  /-- DCBLK: complex DC blocker (R161). -/
  | dcblk
  /-- AGC: envelope automatic gain control (R163). -/
  | agc
  /-- LIMIT: per-sample limiter (R166). -/
  | limit
  /-- IQBAL: IQ-imbalance corrector (R168). -/
  | iqbal
  /-- FLLDD: FLL with the FM detector (R186). -/
  | flldd
  /-- FLLBE: FLL with the band-edge detector and the acquisition latch (R188). -/
  | fllbe
  /-- MF5: 5-tap matched filter (R202). -/
  | mf5
  /-- RRC: root-raised-cosine matched filter (R203). -/
  | rrc
  /-- TEDM: Gardner TED, MMSE interpolator, decimating (R235). -/
  | tedm
  /-- TEDF: Gardner TED, cubic Farrow interpolator, non-decimating (R236). -/
  | tedf
  /-- DISCFM: FM discriminator (R267). -/
  | discfm
  /-- DISCDQ: differential-QPSK discriminator (R268). -/
  | discdq
  /-- DISCRAW: raw pass-through (R269). -/
  | discraw
  /-- GATE: soft audio gate (R256). -/
  | gate
  deriving DecidableEq, Repr

end Sys2Proof
end

