-- ==== Sys2Proof/WellFormed.lean ====
section
/-! DEFINITION. Which operations have an encoding: the register number fits the 8-bit field `a` and the block
length the 16-bit field `imm16` (spec/30_encoding.md R110 to R113). -/

namespace Sys2Proof

/-- A register number that fits the field `a` (R113: `reg` is `zext_8(a)`). -/
def regFits (reg : Nat) : Bool := decide (reg < 256)

/-- A block length that fits `imm16` (R112: `len` is `zext_16(imm16)`, range 0 to 65535). -/
def lenFits (len : Nat) : Bool := decide (len < 65536)

/-- The operation can be encoded. Whether the register exists, the value is legal or the length is even is
checked when the operation executes, not here (R112, R119). -/
def Instr.wellFormed : Instr → Bool
  | .wrr reg _ => regFits reg
  | .wrs reg _ => regFits reg
  | .blk len => lenFits len
  | .load len => lenFits len
  | .nop => true
  | .rst => true
  | .fllrst => true
  | .errclr => true
  | .emit => true
  | .decimhb => true
  | .decimleg => true
  | .chlpf => true
  | .sqlm => true
  | .dcblk => true
  | .agc => true
  | .limit => true
  | .iqbal => true
  | .flldd => true
  | .fllbe => true
  | .mf5 => true
  | .rrc => true
  | .tedm => true
  | .tedf => true
  | .discfm => true
  | .discdq => true
  | .discraw => true
  | .gate => true

end Sys2Proof
end

