-- ==== Sys2Proof/Decode.lean ====
section
/-! DEFINITION. The command decoder, total on every list of command words and refusing by name, then the encoder
(spec/30_encoding.md R110 to R120). -/

namespace Sys2Proof

/-- Why the words at the command cursor are not an operation. -/
inductive Reject where
  /-- No command word exists yet: the DFE idles (R82, R281). -/
  | noWord
  /-- The first word of a WRR whose data word does not exist yet: the DFE waits (R120). -/
  | noData
  /-- The operation code is in no row of the table: an illegal command (R118). -/
  | unassignedOpcode (w : Word)
  /-- A must-be-zero field is not zero: an illegal command (R118). -/
  | nonzeroField (w : Word)
  deriving DecidableEq, Repr

/-- The field `op = w[31:24]` (R110). -/
def opField (w : Word) : Nat := (w.extractLsb' 24 8).toNat

/-- The field `a = w[23:16]` (R110). -/
def aField (w : Word) : Nat := (w.extractLsb' 16 8).toNat

/-- The field `imm16 = w[15:0]` (R110). -/
def immField (w : Word) : BitVec 16 := w.extractLsb' 0 16

/-- Format Z: bits 23:0 must be zero (R111). -/
def decodeZ (w : Word) (i : Instr) : Except Reject Instr :=
  if aField w = 0 ∧ immField w = 0 then .ok i else .error (.nonzeroField w)

/-- Format L: bits 23:16 must be zero, bits 15:0 are `len` (R111, R112). -/
def decodeL (w : Word) (i : Nat → Instr) : Except Reject Instr :=
  if aField w = 0 then .ok (i (immField w).toNat) else .error (.nonzeroField w)

/-- Format W: bits 23:16 are `reg`, bits 15:0 must be zero, the second word is `data` (R111). -/
def decodeW (w data : Word) : Except Reject Instr :=
  if immField w = 0 then .ok (.wrr (aField w) data) else .error (.nonzeroField w)

/-- The operation of a first word `w`, its data word (looked at by WRR alone) being `data` (R114, R116). -/
def decodeWord (w data : Word) : Except Reject Instr :=
  match opField w with
  | 0x00 => decodeZ w .nop
  | 0x01 => decodeW w data
  | 0x02 => .ok (.wrs (aField w) (immField w))
  | 0x03 => decodeZ w .rst
  | 0x04 => decodeZ w .fllrst
  | 0x05 => decodeZ w .errclr
  | 0x10 => decodeL w .blk
  | 0x11 => decodeL w .load
  | 0x12 => decodeZ w .emit
  | 0x20 => decodeZ w .decimhb
  | 0x21 => decodeZ w .decimleg
  | 0x22 => decodeZ w .chlpf
  | 0x23 => decodeZ w .sqlm
  | 0x24 => decodeZ w .dcblk
  | 0x25 => decodeZ w .agc
  | 0x26 => decodeZ w .limit
  | 0x27 => decodeZ w .iqbal
  | 0x28 => decodeZ w .flldd
  | 0x29 => decodeZ w .fllbe
  | 0x2A => decodeZ w .mf5
  | 0x2B => decodeZ w .rrc
  | 0x2C => decodeZ w .tedm
  | 0x2D => decodeZ w .tedf
  | 0x2E => decodeZ w .discfm
  | 0x2F => decodeZ w .discdq
  | 0x30 => decodeZ w .discraw
  | 0x31 => decodeZ w .gate
  | _ => .error (.unassignedOpcode w)

/-- The length of an operation in command words: two for WRR, one for everything else (R114). -/
def Instr.words : Instr → Nat
  | .wrr _ _ => 2
  | .nop | .wrs _ _ | .rst | .fllrst | .errclr | .blk _ | .load _ | .emit => 1
  | .decimhb | .decimleg | .chlpf | .sqlm | .dcblk | .agc | .limit | .iqbal => 1
  | .flldd | .fllbe | .mf5 | .rrc | .tedm | .tedf => 1
  | .discfm | .discdq | .discraw | .gate => 1

/-- The decoder: the operation at the head of the unread command words (R114). The must-be-zero fields are checked
before the data word of a WRR is waited for (R281). -/
def decode : List Word → Except Reject Instr
  | [] => .error .noWord
  | w :: rest =>
    match decodeWord w (rest.headD 0) with
    | .ok i => if i.words = 2 ∧ rest = [] then .error .noData else .ok i
    | .error e => .error e

/-- Control commands: anything but BLK, LOAD, EMIT and the stage operations (R93). -/
def Instr.isControl : Instr → Bool
  | .nop | .wrr _ _ | .wrs _ _ | .rst | .fllrst | .errclr => true
  | .blk _ | .load _ | .emit => false
  | .decimhb | .decimleg | .chlpf | .sqlm | .dcblk | .agc | .limit | .iqbal => false
  | .flldd | .fllbe | .mf5 | .rrc | .tedm | .tedf => false
  | .discfm | .discdq | .discraw | .gate => false

/-- The operation code of an operation (R116). -/
def Instr.opcode : Instr → BitVec 8
  | .nop => 0x00
  | .wrr _ _ => 0x01
  | .wrs _ _ => 0x02
  | .rst => 0x03
  | .fllrst => 0x04
  | .errclr => 0x05
  | .blk _ => 0x10
  | .load _ => 0x11
  | .emit => 0x12
  | .decimhb => 0x20
  | .decimleg => 0x21
  | .chlpf => 0x22
  | .sqlm => 0x23
  | .dcblk => 0x24
  | .agc => 0x25
  | .limit => 0x26
  | .iqbal => 0x27
  | .flldd => 0x28
  | .fllbe => 0x29
  | .mf5 => 0x2A
  | .rrc => 0x2B
  | .tedm => 0x2C
  | .tedf => 0x2D
  | .discfm => 0x2E
  | .discdq => 0x2F
  | .discraw => 0x30
  | .gate => 0x31

/-- A command word from its three fields (R110). -/
def packWord (op : BitVec 8) (a : BitVec 8) (imm : BitVec 16) : Word := op ++ a ++ imm

/-- The words of an operation (R110, R111, R116). -/
def encode (i : Instr) : List Word :=
  match i with
  | .wrr reg data => [packWord i.opcode (BitVec.ofNat 8 reg) 0, data]
  | .wrs reg imm => [packWord i.opcode (BitVec.ofNat 8 reg) imm]
  | .blk len => [packWord i.opcode 0 (BitVec.ofNat 16 len)]
  | .load len => [packWord i.opcode 0 (BitVec.ofNat 16 len)]
  | .nop | .rst | .fllrst | .errclr | .emit => [packWord i.opcode 0 0]
  | .decimhb | .decimleg | .chlpf | .sqlm | .dcblk | .agc | .limit | .iqbal => [packWord i.opcode 0 0]
  | .flldd | .fllbe | .mf5 | .rrc | .tedm | .tedf => [packWord i.opcode 0 0]
  | .discfm | .discdq | .discraw | .gate => [packWord i.opcode 0 0]

/-- The command words of a row of spec/opcode_table.json whose first `nbits` bits are `w`, every bit above them zero:
the first word is bits 31..0, the data word of a WRR bits 63..32. -/
def tableWords (nbits w : Nat) : List Word :=
  [BitVec.ofNat 32 (w % 2 ^ nbits), BitVec.ofNat 32 (w % 2 ^ nbits / 2 ^ 32)]

/-- What the decoder reads from a row of spec/opcode_table.json. -/
def decodeTableWord (nbits w : Nat) : Option Instr :=
  match decode (tableWords nbits w) with
  | .ok i => some i
  | .error _ => none

end Sys2Proof
end

