-- ==== Sys2Proof/Config.lean ====
section
/-! DEFINITION. The implementation parameters `P_…` of spec/00_scope.md R8, each with the contract the spec puts on every
binding of it, and ONE opaque constant that stands for the binding of the machine at hand. -/

namespace Sys2Proof

/-- The byte order of an int16 when the sample port is carried over a byte stream (R85). -/
inductive ByteOrder where
  | little
  | big
  deriving DecidableEq, Repr, Inhabited

namespace Config

/-- The centre-tap filter of odd length `nt`: 32768 in the middle, zero elsewhere. It only shows that the contract of
`P_RRC_DESIGN` can be met. -/
def centreTap (nt : Nat) : List Int :=
  List.replicate ((nt - 1) / 2) 0 ++ 32768 :: List.replicate (nt - 1 - (nt - 1) / 2) 0

theorem centreTap_length (nt : Nat) (h : nt % 2 = 1) : (centreTap nt).length = nt := by
  simp [centreTap]; omega

theorem centreTap_symmetric (nt : Nat) (h : nt % 2 = 1) : (centreTap nt).reverse = centreTap nt := by
  have e : nt - 1 - (nt - 1) / 2 = (nt - 1) / 2 := by omega
  simp [centreTap, e]

theorem centreTap_sum (nt : Nat) : (centreTap nt).sum = 32768 := by
  simp [centreTap]

/-- Cosine and sine of the nearest earlier quadrant point. It only shows that the contract of `P_NCO_CS` can be met. -/
def quadrantCs (p : Int) : Int × Int :=
  if p = 8192 then (0, 32768) else if p = 16384 then (-32768, 0) else if p = 24576 then (0, -32768) else (32768, 0)

theorem quadrantCs_range (p : Int) : 0 ≤ p → p ≤ 32767 →
    -32768 ≤ (quadrantCs p).1 ∧ (quadrantCs p).1 ≤ 32768 ∧ -32768 ≤ (quadrantCs p).2 ∧ (quadrantCs p).2 ≤ 32768 := by
  intro _ _; unfold quadrantCs; split_ifs <;> decide

theorem quadrantCs_magnitude (p : Int) : 0 ≤ p → p ≤ 32767 →
    (quadrantCs p).1 ^ 2 + (quadrantCs p).2 ^ 2 ≤ 32768 ^ 2 + 2 * 32768 := by
  intro _ _; unfold quadrantCs; split_ifs <;> decide

/-- The angle of a point on the axes with π scaled to 16384 (R266), 0 elsewhere. -/
def axisAngle (im re : Int) : Int :=
  if im = 0 then (if re < 0 then 16384 else 0) else if re = 0 then (if 0 < im then 8192 else -8192) else 0

theorem axisAngle_range (im re : Int) : -16384 ≤ axisAngle im re ∧ axisAngle im re ≤ 16384 := by
  unfold axisAngle; split_ifs <;> decide

theorem axisAngle_posRe (x : Int) : 0 < x → axisAngle 0 x = 0 := by
  intro h; unfold axisAngle; rw [if_pos rfl, if_neg (by omega)]

theorem axisAngle_negRe (x : Int) : x < 0 → axisAngle 0 x = 16384 := by
  intro h; unfold axisAngle; rw [if_pos rfl, if_pos h]

theorem axisAngle_posIm (y : Int) : 0 < y → axisAngle y 0 = 8192 := by
  intro h; unfold axisAngle; rw [if_neg (by omega), if_pos rfl, if_pos h]

theorem axisAngle_negIm (y : Int) : y < 0 → axisAngle y 0 = -8192 := by
  intro h; unfold axisAngle; rw [if_neg (by omega), if_pos rfl, if_neg (by omega)]

/-- The integer `v` lies within 1 of the angle of the point (re, im) with π scaled to 16384 (R266). -/
def NearAngle (v im re : Int) : Prop := |(v : ℝ) - 16384 * Complex.arg ⟨re, im⟩ / Real.pi| ≤ 1

/-- Five terms of the arctangent series, in units of π = 16384 (16384/π is close to 5215). -/
def angleSeries (t : Rat) : Rat := 5215 * (t - t ^ 3 / 3 + t ^ 5 / 5 - t ^ 7 / 7 + t ^ 9 / 9)

/-- The angle whose tangent is `t`, for `t` in [0, 1]. -/
def octantAngle (t : Rat) : Rat := if t ≤ 1 / 2 then angleSeries t else 4096 - angleSeries ((1 - t) / (1 + t))

/-- The angle of the point (x, y) in the first quadrant. -/
def quadrantAngle (y x : Rat) : Rat := if y ≤ x then octantAngle (y / x) else 8192 - octantAngle (x / y)

/-- The rounded angle of the point (x, y) in the first quadrant. -/
def roundedAngle (y x : Nat) : Int := (quadrantAngle y x + 1 / 2).floor

/-- The rounded angle of the point (re, y) in the upper half plane. -/
def upperAngle (y : Nat) (re : Int) : Int :=
  if re < 0 then 16384 - roundedAngle y re.natAbs else roundedAngle y re.natAbs

/-- The rounded angle of the point (re, im), exact on the axes. It only shows that the contract of `P_ATAN2_Q14` can be
met. -/
def roundedAtan2 (im re : Int) : Int :=
  if im = 0 ∨ re = 0 then axisAngle im re
  else if im < 0 then -upperAngle im.natAbs re else upperAngle im.natAbs re

theorem unit_bounds : 5215 ≤ 16384 / Real.pi ∧ 16384 / Real.pi ≤ 5215.2 := by
  have h1 := Real.pi_gt_d6
  have h2 := Real.pi_lt_d6
  constructor
  · rw [le_div_iff₀ Real.pi_pos]; linarith
  · rw [div_le_iff₀ Real.pi_pos]; linarith

theorem angleSeries_error (t : Rat) (h0 : 0 ≤ t) (h1 : t ≤ 1 / 2) :
    |(angleSeries t : ℝ) - 16384 / Real.pi * Real.arctan t| ≤ 2 / 5 := by
  have hx0 : (0 : ℝ) ≤ t := by exact_mod_cast h0
  have hx1 : (t : ℝ) ≤ 1 / 2 := by simpa using (Rat.cast_le (K := ℝ)).2 h1
  set x : ℝ := (t : ℝ)
  have hs : HasSum (fun n : ℕ => (-1) ^ n * (x ^ (2 * n + 1) / ((2 * n + 1 : ℕ) : ℝ))) (Real.arctan x) := by
    have := Real.hasSum_arctan (x := x) (by rw [Real.norm_eq_abs, abs_of_nonneg hx0]; linarith)
    simpa [mul_div_assoc] using this
  have ha : Antitone (fun n : ℕ => x ^ (2 * n + 1) / ((2 * n + 1 : ℕ) : ℝ)) := by
    apply antitone_nat_of_succ_le
    intro n
    apply div_le_div₀ (by positivity) (pow_le_pow_of_le_one hx0 (by linarith) (by omega)) (by positivity)
    exact_mod_cast (by omega)
  have lo := ha.alternating_series_le_tendsto hs.tendsto_sum_nat 3
  have hi := ha.tendsto_le_alternating_series hs.tendsto_sum_nat 2
  simp only [Finset.sum_range_succ, Finset.sum_range_zero] at lo hi
  norm_num at lo hi
  have h11 : x ^ 11 ≤ 1 / 2048 := by
    calc x ^ 11 ≤ (1 / 2 : ℝ) ^ 11 := pow_le_pow_left₀ hx0 hx1 11
      _ = _ := by norm_num
  have hb := unit_bounds
  have hle1 : x ≤ 1 := by linarith
  have h53 : x ^ 5 ≤ x ^ 3 := pow_le_pow_of_le_one hx0 hle1 (by norm_num)
  have h97 : x ^ 9 ≤ x ^ 7 := pow_le_pow_of_le_one hx0 hle1 (by norm_num)
  have hat : Real.arctan x ≤ 1 / 2 := by linarith [pow_nonneg hx0 3, pow_nonneg hx0 7]
  have hat0 : 0 ≤ Real.arctan x := Real.arctan_nonneg.2 hx0
  have hser : (angleSeries t : ℝ) = 5215 * (x - x ^ 3 / 3 + x ^ 5 / 5 - x ^ 7 / 7 + x ^ 9 / 9) := by
    simp [angleSeries, x]
  rw [hser, abs_le]
  have e1 : 0 ≤ (16384 / Real.pi - 5215) * Real.arctan x := mul_nonneg (by linarith [hb.1]) hat0
  have e2 : (16384 / Real.pi - 5215) * Real.arctan x ≤ 0.2 * (1 / 2) :=
    mul_le_mul (by linarith [hb.2]) hat hat0 (by norm_num)
  constructor <;> nlinarith

theorem octantAngle_error (t : Rat) (h0 : 0 ≤ t) (h1 : t ≤ 1) :
    |(octantAngle t : ℝ) - 16384 / Real.pi * Real.arctan t| ≤ 2 / 5 := by
  unfold octantAngle
  split_ifs with h
  · exact angleSeries_error t h0 h
  · push Not at h
    have hp : (0 : Rat) < 1 + t := by linarith
    have e := angleSeries_error ((1 - t) / (1 + t)) (div_nonneg (by linarith) hp.le)
      (by rw [div_le_iff₀ hp]; linarith)
    have hr0 : (0 : ℝ) ≤ t := by exact_mod_cast h0
    have hadd : Real.arctan t + Real.arctan ((1 - t) / (1 + t)) = Real.pi / 4 := by
      have hp' : (0 : ℝ) < 1 + t := by linarith
      rw [Real.arctan_add, ← Real.arctan_one]
      · congr 1
        have : (1 + (t : ℝ)) - t * (1 - t) ≠ 0 := by nlinarith
        field_simp
        ring
      · rw [← mul_div_assoc, div_lt_one hp']; nlinarith
    have : 16384 / Real.pi * Real.arctan t = 4096 - 16384 / Real.pi * Real.arctan ((1 - t) / (1 + t)) := by
      rw [eq_sub_iff_add_eq, ← mul_add, hadd]; field_simp [Real.pi_ne_zero]; norm_num
    rw [this]
    push_cast at e ⊢
    rw [abs_sub_comm] at e
    convert e using 2
    ring

theorem quadrantAngle_error (y x : Rat) (hy : 0 ≤ y) (hx : 0 < x) :
    |(quadrantAngle y x : ℝ) - 16384 / Real.pi * Real.arctan (y / x)| ≤ 2 / 5 := by
  unfold quadrantAngle
  split_ifs with h
  · have := octantAngle_error (y / x) (div_nonneg hy hx.le) ((div_le_one hx).2 h)
    push_cast at this; exact this
  · push Not at h
    have hy' : 0 < y := hx.trans h
    have e := octantAngle_error (x / y) (div_nonneg hx.le hy) ((div_le_one hy').2 h.le)
    have hq : (0 : ℝ) < x / y := by
      have : (0 : Rat) < x / y := div_pos hx hy'
      exact_mod_cast this
    have hinv : Real.arctan (y / x) = Real.pi / 2 - Real.arctan (x / y) := by
      rw [← Real.arctan_inv_of_pos hq, inv_div]
    rw [hinv, mul_sub, show 16384 / Real.pi * (Real.pi / 2) = 8192 by field_simp [Real.pi_ne_zero]; norm_num]
    push_cast at e ⊢
    rw [abs_sub_comm] at e
    convert e using 2
    ring

theorem roundedAngle_bounds (y x : Nat) (hx : 0 < x) :
    0 ≤ roundedAngle y x ∧ roundedAngle y x ≤ 8192 ∧
      |(roundedAngle y x : ℝ) - 16384 / Real.pi * Real.arctan (y / x)| ≤ 1 := by
  have e := quadrantAngle_error y x (by positivity) (by exact_mod_cast hx)
  have ha0 : 0 ≤ 16384 / Real.pi * Real.arctan ((y : ℝ) / x) :=
    mul_nonneg (by positivity) (Real.arctan_nonneg.2 (by positivity))
  have ha1 : 16384 / Real.pi * Real.arctan ((y : ℝ) / x) ≤ 8192 := by
    rw [div_mul_eq_mul_div, div_le_iff₀ Real.pi_pos]
    linarith [Real.arctan_lt_pi_div_two ((y : ℝ) / x)]
  push_cast at e
  obtain ⟨e1, e2⟩ := abs_le.1 e
  have f1 : ((roundedAngle y x : Int) : ℝ) ≤ quadrantAngle y x + 1 / 2 := by
    simpa [roundedAngle] using (Rat.cast_le (K := ℝ)).2 (Rat.floor_le (quadrantAngle y x + 1 / 2))
  have f2 : (quadrantAngle y x : ℝ) + 1 / 2 < (roundedAngle y x : Int) + 1 := by
    have h := (Rat.cast_lt (K := ℝ)).2 (Rat.lt_floor (x := quadrantAngle y x + 1 / 2))
    push_cast at h
    unfold roundedAngle
    linarith
  refine ⟨?_, ?_, abs_le.2 ⟨by linarith, by linarith⟩⟩
  · have : (-1 : ℝ) < (roundedAngle y x : Int) := by linarith
    have : (-1 : Int) < roundedAngle y x := by exact_mod_cast this
    omega
  · have : ((roundedAngle y x : Int) : ℝ) < 8193 := by linarith
    have : roundedAngle y x < 8193 := by exact_mod_cast this
    omega

theorem arg_of_re_pos (x y : ℝ) (hx : 0 < x) : Complex.arg ⟨x, y⟩ = Real.arctan (y / x) := by
  have h : |Complex.arg ⟨x, y⟩| < Real.pi / 2 := Complex.abs_arg_lt_pi_div_two_iff.2 (Or.inl hx)
  rw [← Complex.tan_arg ⟨x, y⟩, Real.arctan_tan (abs_lt.1 h).1 (abs_lt.1 h).2]

theorem arg_of_re_neg (x y : ℝ) (hx : x < 0) (hy : 0 ≤ y) :
    Complex.arg ⟨x, y⟩ = Real.pi - Real.arctan (y / -x) := by
  rcases hy.eq_or_lt with rfl | hy
  · rw [Complex.arg_eq_pi_iff.2 ⟨hx, rfl⟩]; simp
  · have h := Complex.arg_neg_eq_arg_sub_pi_of_im_pos (x := ⟨x, y⟩) hy
    have hc : -(⟨x, y⟩ : ℂ) = (starRingEnd ℂ) ⟨-x, y⟩ := by apply Complex.ext <;> simp
    have hw := arg_of_re_pos (-x) y (neg_pos.2 hx)
    have hn : Complex.arg ⟨-x, y⟩ ≠ Real.pi := fun e => hy.ne' (Complex.arg_eq_pi_iff.1 e).2
    rw [hc, Complex.arg_conj, if_neg hn, hw] at h
    linarith

theorem arg_of_im_neg (x y : ℝ) (hy : y < 0) : Complex.arg ⟨x, y⟩ = -Complex.arg ⟨x, -y⟩ := by
  have hc : (⟨x, y⟩ : ℂ) = (starRingEnd ℂ) ⟨x, -y⟩ := by apply Complex.ext <;> simp
  have hn : Complex.arg ⟨x, -y⟩ ≠ Real.pi := fun e => (neg_pos.2 hy).ne' (Complex.arg_eq_pi_iff.1 e).2
  rw [hc, Complex.arg_conj, if_neg hn]

theorem upperAngle_error (y : Nat) (re : Int) (hre : re ≠ 0) :
    |(upperAngle y re : ℝ) - 16384 * Complex.arg ⟨re, y⟩ / Real.pi| ≤ 1 := by
  unfold upperAngle
  have hpi := Real.pi_pos
  rcases lt_or_gt_of_ne hre with h | h
  · have e := (roundedAngle_bounds y re.natAbs (by omega)).2.2
    have hc : ((re.natAbs : Nat) : ℝ) = -(re : ℝ) := by
      rw [Nat.cast_natAbs, abs_of_neg h]; push_cast; rfl
    rw [hc] at e
    rw [if_pos h, arg_of_re_neg _ _ (by exact_mod_cast h) (by positivity)]
    rw [show 16384 * (Real.pi - Real.arctan (y / -(re : ℝ))) / Real.pi
      = 16384 - 16384 / Real.pi * Real.arctan (y / -(re : ℝ)) by field_simp]
    push_cast
    rw [abs_sub_comm] at e
    convert e using 2
    ring
  · have e := (roundedAngle_bounds y re.natAbs (by omega)).2.2
    have hc : ((re.natAbs : Nat) : ℝ) = (re : ℝ) := by
      rw [Nat.cast_natAbs, abs_of_pos h]
    rw [hc] at e
    rw [if_neg (by omega), arg_of_re_pos _ _ (by exact_mod_cast h), mul_div_right_comm]
    exact e

theorem axisAngle_error (im re : Int) (h : im = 0 ∨ re = 0) : NearAngle (axisAngle im re) im re := by
  have hpi := Real.pi_ne_zero
  have e : (axisAngle im re : ℝ) = 16384 * Complex.arg ⟨re, im⟩ / Real.pi := by
    by_cases him : im = 0
    · subst him
      have hc : (⟨re, (0 : Int)⟩ : ℂ) = ((re : ℝ) : ℂ) := by apply Complex.ext <;> simp
      rcases lt_or_ge re 0 with hr | hr
      · rw [axisAngle_negRe re hr, hc, Complex.arg_ofReal_of_neg (Int.cast_lt_zero.2 hr)]; field_simp; norm_num
      · rw [hc, Complex.arg_ofReal_of_nonneg (Int.cast_nonneg hr)]; simp [axisAngle, not_lt.2 hr]
    · obtain rfl := h.resolve_left him
      rcases lt_or_gt_of_ne him with hi | hi
      · rw [axisAngle_negIm im hi, Complex.arg_eq_neg_pi_div_two_iff.2 ⟨Int.cast_zero, Int.cast_lt_zero.2 hi⟩]
        field_simp; norm_num
      · rw [axisAngle_posIm im hi, Complex.arg_eq_pi_div_two_iff.2 ⟨Int.cast_zero, Int.cast_pos.2 hi⟩]
        field_simp; norm_num
  rw [NearAngle, e, sub_self, abs_zero]; norm_num

theorem roundedAtan2_error (im re : Int) : NearAngle (roundedAtan2 im re) im re := by
  unfold roundedAtan2
  split_ifs with ha hn
  · exact axisAngle_error im re ha
  all_goals
    have e := upperAngle_error im.natAbs re fun h => ha (Or.inr h)
    unfold NearAngle
  · have hc : ((im.natAbs : Nat) : ℝ) = -(im : ℝ) := by rw [Nat.cast_natAbs, abs_of_neg hn, Int.cast_neg]
    rw [hc, abs_sub_comm] at e
    rw [arg_of_im_neg _ _ (Int.cast_lt_zero.2 hn)]
    push_cast at e ⊢
    convert e using 2
    ring
  · have hc : ((im.natAbs : Nat) : ℝ) = (im : ℝ) := by rw [Nat.cast_natAbs, abs_of_nonneg (not_lt.1 hn)]
    rwa [hc] at e

theorem roundedAtan2_range (im re : Int) : -16384 ≤ roundedAtan2 im re ∧ roundedAtan2 im re ≤ 16384 := by
  unfold roundedAtan2
  split_ifs with ha hn
  · exact axisAngle_range im re
  all_goals
    have h := roundedAngle_bounds im.natAbs re.natAbs (Int.natAbs_pos.2 fun h => ha (Or.inr h))
    unfold upperAngle
    split_ifs <;> omega

theorem roundedAtan2_posRe (x : Int) : 0 < x → roundedAtan2 0 x = 0 := axisAngle_posRe x

theorem roundedAtan2_negRe (x : Int) : x < 0 → roundedAtan2 0 x = 16384 := axisAngle_negRe x

theorem roundedAtan2_posIm (y : Int) : 0 < y → roundedAtan2 y 0 = 8192 := fun h => by
  rw [roundedAtan2, if_pos (Or.inr rfl), axisAngle_posIm y h]

theorem roundedAtan2_negIm (y : Int) : y < 0 → roundedAtan2 y 0 = -8192 := fun h => by
  rw [roundedAtan2, if_pos (Or.inr rfl), axisAngle_negIm y h]

/-- The linear interpolator of the standard test binding. It only shows that the contract of `P_MMSE` can be met. -/
def linearBank : List (List Rat) :=
  (List.range 5).map fun p : Nat => [0, 0, 0, 1 - (p : Rat) / 4, (p : Rat) / 4, 0, 0, 0]

theorem linearBank_taps : ∀ row ∈ linearBank, row.length = 8 := by
  intro row h
  obtain ⟨p, _, rfl⟩ := List.mem_map.1 h
  rfl

/-- A block of zeros of the required length. It only shows that the contract of `P_LEGACY_DECIM` can be met. -/
def zeroDecim (st blk : List Int) (n : Nat) : List Int × List Int :=
  (st, List.replicate (2 * (blk.length / 2 / 2 ^ n)) 0)

theorem zeroDecim_length (st blk : List Int) (n : Nat) :
    (zeroDecim st blk n).2.length = 2 * (blk.length / 2 / 2 ^ n) := by
  simp [zeroDecim]

theorem zeroDecim_int16 (st blk : List Int) (n : Nat) : ∀ v ∈ (zeroDecim st blk n).2, IsInt16 v := by
  intro v hv
  have := List.eq_of_mem_replicate hv
  subst this; decide

/-- The values the register TED_OMEGA_REL can hold under the quantiser `q`: its reset value (R29), and what a legal write
of the word `d` stores there (R12, R28). -/
def IsRel (q : Rat → Rat) (rel : Rat) : Prop :=
  rel = 1 / 500 ∨ ∃ d : Nat, (d : Rat) / 2 ^ 32 ≤ 1 / 4 ∧ rel = q ((d : Rat) / 2 ^ 32)

/-- `omega` lies in its clamp for `sps` samples per symbol and the relative bound `rel` (R50, R222). -/
def InClamp (sps : Int) (rel omega : Rat) : Prop :=
  (sps : Rat) * (1 - rel) ≤ omega ∧ omega ≤ (sps : Rat) * (1 + rel)

/-- The parameters of the model (R8). A field without a contract beside it is unconstrained. The default values only show
that the contracts can be met together (they are the standard test binding of spec/95_test_vectors.md where that gives
one): no definition of the model and no proof can use them, since `Config.params` below is opaque. -/
structure Params where
  /-- `P_MAXLEN`: the largest block length LOAD accepts. -/
  maxLen : Nat := 65534
  maxLen_even : maxLen % 2 = 0 := by decide
  maxLen_le : maxLen ≤ 65534 := by decide
  /-- `P_HB31`: the stage-0 half-band taps, Q15. -/
  hb31 : List Int := 16384 :: 16384 :: List.replicate 29 0
  hb31_length : hb31.length = 31 := by decide
  hb31_gain : 30935 ≤ hb31.sum ∧ hb31.sum ≤ 34709 := by decide
  /-- `P_HB15`: the half-band taps shared by stages 1 and up, Q15. -/
  hb15 : List Int := 32768 :: List.replicate 14 0
  hb15_length : hb15.length = 15 := by decide
  hb15_gain : 30935 ≤ hb15.sum ∧ hb15.sum ≤ 34709 := by decide
  /-- `P_CHLPF_WIDE`: the wide channel low-pass, Q15. -/
  chlpfWide : List Int := 16384 :: 16384 :: List.replicate 61 0
  chlpfWide_length : chlpfWide.length = 63 := by decide
  chlpfWide_sum : chlpfWide.sum = 32768 := by decide
  /-- `P_CHLPF_DIGITAL`: the digital (narrow) channel low-pass, Q15. -/
  chlpfDigital : List Int := 16384 :: 16384 :: List.replicate 61 0
  chlpfDigital_length : chlpfDigital.length = 63 := by decide
  chlpfDigital_sum : chlpfDigital.sum = 32768 := by decide
  /-- `P_LEGACY_DECIM`: (state, block, N) to (state, block), uninterpreted but for the length and range of the block
  it gives (R144). -/
  legacyDecim : List Int → List Int → Nat → List Int × List Int := zeroDecim
  legacyDecim_length : ∀ st blk n, (legacyDecim st blk n).2.length = 2 * (blk.length / 2 / 2 ^ n) := by
    exact zeroDecim_length
  legacyDecim_int16 : ∀ st blk n, ∀ v ∈ (legacyDecim st blk n).2, IsInt16 v := by exact zeroDecim_int16
  /-- `P_MF5`: the 5-tap kernel, Q15, symmetric. -/
  mf5 : List Int := [0, 8192, 16384, 8192, 0]
  mf5_length : mf5.length = 5 := by decide
  mf5_symmetric : mf5.reverse = mf5 := by decide
  /-- `P_RRC_DESIGN`: (sps, alpha_q15, ntaps) to ntaps integers in Q15, symmetric and of unit DC gain (R205). -/
  rrcDesign : Int → Int → Nat → List Int := fun _ _ nt => centreTap nt
  rrcDesign_length : ∀ sps alpha nt, nt % 2 = 1 → (rrcDesign sps alpha nt).length = nt := by
    exact fun _ _ => centreTap_length
  rrcDesign_symmetric : ∀ sps alpha nt, nt % 2 = 1 → (rrcDesign sps alpha nt).reverse = rrcDesign sps alpha nt := by
    exact fun _ _ => centreTap_symmetric
  rrcDesign_sum : ∀ sps alpha nt, nt % 2 = 1 → (rrcDesign sps alpha nt).sum = 32768 := by
    exact fun _ _ nt _ => centreTap_sum nt
  /-- `P_RRC_MAXTAPS`: the largest number of taps the cache holds. -/
  rrcMaxTaps : Nat := 641
  rrcMaxTaps_odd : rrcMaxTaps % 2 = 1 := by decide
  rrcMaxTaps_ge : 641 ≤ rrcMaxTaps := by decide
  /-- `P_NCO_CS`: the cosine and sine of an NCO phase in Q15, exact at the four quadrant points (R183). -/
  ncoCs : Int → Int × Int := quadrantCs
  ncoCs_zero : ncoCs 0 = (32768, 0) := by decide
  ncoCs_quarter : ncoCs 8192 = (0, 32768) := by decide
  ncoCs_half : ncoCs 16384 = (-32768, 0) := by decide
  ncoCs_threeQuarter : ncoCs 24576 = (0, -32768) := by decide
  ncoCs_range : ∀ p, 0 ≤ p → p ≤ 32767 →
      -32768 ≤ (ncoCs p).1 ∧ (ncoCs p).1 ≤ 32768 ∧ -32768 ≤ (ncoCs p).2 ∧ (ncoCs p).2 ≤ 32768 := by
    exact quadrantCs_range
  ncoCs_magnitude : ∀ p, 0 ≤ p → p ≤ 32767 →
      (ncoCs p).1 ^ 2 + (ncoCs p).2 ^ 2 ≤ 32768 ^ 2 + 2 * 32768 := by exact quadrantCs_magnitude
  /-- `P_ATAN2_Q14`: (im, re) to the angle of the point (re, im) with π scaled to 16384, exact on the axes and within 1
  of the exact angle elsewhere (R266). -/
  atan2 : Int → Int → Int := roundedAtan2
  atan2_range : ∀ im re, -16384 ≤ atan2 im re ∧ atan2 im re ≤ 16384 := by exact roundedAtan2_range
  atan2_origin : atan2 0 0 = 0 := by decide
  atan2_posRe : ∀ x, 0 < x → atan2 0 x = 0 := by exact roundedAtan2_posRe
  atan2_negRe : ∀ x, x < 0 → atan2 0 x = 16384 := by exact roundedAtan2_negRe
  atan2_posIm : ∀ y, 0 < y → atan2 y 0 = 8192 := by exact roundedAtan2_posIm
  atan2_negIm : ∀ y, y < 0 → atan2 y 0 = -8192 := by exact roundedAtan2_negIm
  atan2_near : ∀ im re, NearAngle (atan2 im re) im re := by exact roundedAtan2_error
  /-- `P_FLL_BE_DETECT`: (rotated block, sps, previous sample) to the band-edge error in Q14 (R187). The contract is the
  range alone: R187 also says that the result is positive when the residual frequency is, but does not define the residual
  frequency of a block, so no sign is required (DESIGN CHOICE, log entry 16). -/
  beDetect : List Cplx → Int → Cplx → Int := fun _ _ _ => 0
  beDetect_range : ∀ y sps prev, -16384 ≤ beDetect y sps prev ∧ beDetect y sps prev ≤ 16384 := by
    exact fun _ _ _ => by decide
  /-- `P_K_LOCK_FREQ_THR`: the FLL acquisition threshold (R190). -/
  lockFreqThr : Nat := 0
  /-- `P_K_LOCK_BLOCKS`: the consecutive quiet updates to latch (R190). -/
  lockBlocks : Nat := 1
  lockBlocks_pos : 1 ≤ lockBlocks := by decide
  /-- `P_TED_DL_SIZE`: the delay-line length in complex samples (R65, R100). -/
  tedDlSize : Nat := 48
  tedDlSize_ge : 48 ≤ tedDlSize := by decide
  /-- `P_MMSE_K`: the number of fractional steps of the MMSE bank (R219). -/
  mmseK : Nat := 4
  mmseK_pos : 1 ≤ mmseK := by decide
  /-- `P_MMSE`: the (K+1) rows of eight taps of the MMSE bank (R219). -/
  mmse : List (List Rat) := linearBank
  mmse_rows : mmse.length = mmseK + 1 := by decide
  mmse_taps : ∀ row ∈ mmse, row.length = 8 := by exact linearBank_taps
  /-- `P_TED_FAST_KICKS`: the phase kicks a change of samples per symbol arms (R216). -/
  tedFastKicks : Nat := 0
  /-- `P_QREAL`: the quantiser applied to every value stored in a REAL-class field; the identity is the default (R12). -/
  qreal : Rat → Rat := fun v => v
  /-- Quantisation keeps mu in [0, 1), and the lock threshold (R12, R29, R233). -/
  qreal_fraction : ∀ v, 0 ≤ v → v < 1 → 0 ≤ qreal v ∧ qreal v < 1 := by exact fun _ h0 h1 => ⟨h0, h1⟩
  /-- Quantisation keeps omega inside its clamp, whatever the registers TED_SPS and TED_OMEGA_REL hold (R12, R233). -/
  qreal_omega : ∀ (sps : Int) (rel v : Rat), 2 ≤ sps → sps ≤ 20 → IsRel qreal rel → InClamp sps rel v →
      InClamp sps rel (qreal v) := by exact fun _ _ _ _ _ _ h => h
  /-- Quantisation keeps e_ema in [-1, 1] (R12, R233). -/
  qreal_error : ∀ v, -1 ≤ v → v ≤ 1 → -1 ≤ qreal v ∧ qreal v ≤ 1 := by exact fun _ h0 h1 => ⟨h0, h1⟩
  /-- Quantisation keeps the TED gains in [0, 1/2] (R12, R29). -/
  qreal_gain : ∀ v, 0 ≤ v → v ≤ 1 / 2 → 0 ≤ qreal v ∧ qreal v ≤ 1 / 2 := by exact fun _ h0 h1 => ⟨h0, h1⟩
  /-- Quantisation keeps TED_OMEGA_REL in [0, 1/4] (R12, R29). -/
  qreal_rel : ∀ v, 0 ≤ v → v ≤ 1 / 4 → 0 ≤ qreal v ∧ qreal v ≤ 1 / 4 := by exact fun _ h0 h1 => ⟨h0, h1⟩
  /-- `P_TED_KICK`: (mu, omega, e, e_ema) to (mu, omega), which keeps mu in [0, 1) and omega in its clamp (R232). -/
  tedKick : Rat → Rat → Rat → Rat → Rat × Rat := fun mu omega _ _ => (mu, omega)
  tedKick_mu : ∀ mu omega e ema, 0 ≤ mu → mu < 1 →
      0 ≤ (tedKick mu omega e ema).1 ∧ (tedKick mu omega e ema).1 < 1 := by
    exact fun _ _ _ _ h0 h1 => ⟨h0, h1⟩
  tedKick_omega : ∀ (sps : Int) (rel mu omega e ema : Rat), 2 ≤ sps → sps ≤ 20 → IsRel qreal rel →
      InClamp sps rel omega → InClamp sps rel (tedKick mu omega e ema).2 := by
    exact fun _ _ _ _ _ _ _ _ _ h => h
  /-- `P_TED_EMA_ALPHA`: the smoothing constant of e_ema (R223). -/
  tedEmaAlpha : Rat := 1 / 16
  tedEmaAlpha_nonneg : 0 ≤ tedEmaAlpha := by norm_num
  tedEmaAlpha_le : tedEmaAlpha ≤ 1 := by norm_num
  /-- `P_TED_LOCK_WINDOW`: the symbols per lock evaluation (R231). -/
  tedLockWindow : Nat := 64
  tedLockWindow_pos : 1 ≤ tedLockWindow := by decide
  /-- `P_SAMPLE_BYTE_ORDER`: no rule reads it (R85). -/
  sampleByteOrder : ByteOrder := .little
  deriving Inhabited

/-- The binding of the machine at hand. It is opaque: Lean can prove of it exactly what the contracts say, so a statement
about the machine holds for every binding that meets them (spec/93_implementation_defined.md section 2). -/
opaque params : Params

end Config

end Sys2Proof
end

