-- ==== Sys2Proof/Machine/Numeric.lean ====
section
/-! DEFINITION. The rounding and range primitives of spec/00_scope.md R11, the interleaved view of complex samples (R13),
and the two list walks every stage is written with. -/

namespace Sys2Proof.Machine

/-- `rsh(v, k)`: divide by 2^k and round to nearest with halves away from zero (R11). -/
def rsh (v : Int) (k : Nat) : Int :=
  if k = 0 then v else v.sign * (((v.natAbs + 2 ^ (k - 1)) / 2 ^ k : Nat) : Int)

/-- `rnd(q)`: the nearest integer, halves away from zero (R11). -/
def rnd (q : Rat) : Int :=
  if q < 0 then -(-q + 1 / 2).floor else (q + 1 / 2).floor

/-- `clamp(v, lo, hi)` on integers (R11). -/
def clampInt (v lo hi : Int) : Int := min (max v lo) hi

/-- `clamp(v, lo, hi)` on rationals (R11). -/
def clampRat (v lo hi : Rat) : Rat := min (max v lo) hi

/-- `sat16` (R11). -/
def sat16 (v : Int) : Int := clampInt v (-32768) 32767

/-- `sat32` (R11). -/
def sat32 (v : Int) : Int := clampInt v (-2 ^ 31) (2 ^ 31 - 1)

/-- The bits of the integer square root of `n` from weight `2^b` down, the higher bits being `r`. -/
def isqrtBits (n : Nat) : Nat → Nat → Nat
  | 0, r => r
  | b + 1, r => isqrtBits n b (if (r + 2 ^ b) * (r + 2 ^ b) ≤ n then r + 2 ^ b else r)

/-- `isqrt(n)`: the greatest natural r with r² ≤ n (R11). -/
def isqrt (n : Nat) : Nat := isqrtBits n (n.log2 / 2 + 1) 0

/-- `x & ~1`: clears bit 0 of a natural (R11). -/
def clearBit0 (x : Nat) : Nat := 2 * (x / 2)

/-- The complex samples of an interleaved buffer: sample n is elements 2n and 2n + 1 (R13). -/
def pairs : List Int → List Cplx
  | a :: b :: rest => (a, b) :: pairs rest
  | _ => []

/-- The interleaved buffer of a sequence of complex samples (R13). -/
def interleave : List Cplx → List Int
  | [] => []
  | (a, b) :: rest => a :: b :: interleave rest

/-- The buffer after the samples 0 .. of it are overwritten by `ys`, the elements beyond them left alone (R13). -/
def putPairs (buf : List Int) (ys : List Cplx) : List Int := interleave ys ++ buf.drop (2 * ys.length)

/-- Runs through a sequence in order with a running state: the state after the last element and the output of each. -/
def scan {σ α β : Type} (f : σ → α → σ × β) : σ → List α → σ × List β
  | s, [] => (s, [])
  | s, a :: as => ((scan f (f s a).1 as).1, (f s a).2 :: (scan f (f s a).1 as).2)

/-- The inner product of a list of coefficients with the head of a sequence, exact in INT (R10). -/
def dot : List Int → List Int → Int
  | h :: hs, x :: xs => h * x + dot hs xs
  | _, _ => 0

/-- The same inner product in REAL (R10). -/
def dotRat : List Rat → List Rat → Rat
  | h :: hs, x :: xs => h * x + dotRat hs xs
  | _, _ => 0

/-- The last `n` elements of a sequence. -/
def lastN {α : Type} (n : Nat) (xs : List α) : List α := xs.drop (xs.length - n)

/-- The sum of |z|² over a sequence of complex samples, exact in INT (R13, R163, R168). -/
def powerSum (zs : List Cplx) : Int := (zs.map fun z => z.1 ^ 2 + z.2 ^ 2).sum

end Sys2Proof.Machine
end

