-- ==== Sys2Proof/Machine/State.lean ====
section
/-! DEFINITION. The state of one DFE instance, all of it plain data, and its value after reset (spec/10_state.md;
the ports of spec/20_memory.md R80 to R84 as the streams they carry). -/

namespace Sys2Proof.Machine

/-- Why a step can stop with a fault. -/
inductive Fault where
  /-- An operation would read an element of BUF at an index ≥ `lp_len`, which has no defined value and which R21 and
  spec/93_implementation_defined.md U12 make a fault of the model. Raised by SQLM alone, and by BLK through it, in a state
  whose `lp_len` or `decim_phase` is odd, which no run reaches. Safe. -/
  | readBeyondValid
  deriving DecidableEq, Repr

/-- Why a step can be refused. -/
inductive Refusal where
  /-- The instruction has no meaning in the model yet: raised by `exec`'s own arm alone, never by a meaning. Safe. -/
  | notModelled (mnemonic : String)
  deriving DecidableEq, Repr

/-- The six exceptions, in the order of their codes 1 to 6 (R311). -/
inductive Exc where
  | cfgOddLength
  | cfgBadRate
  | cfgRange
  | cmdIllegal
  | cfgBadReg
  | cfgLenRange
  deriving DecidableEq, Repr

/-- The names of the configuration registers, in the order of their numbers 0x00 to 0x27 (R29). -/
inductive CfgReg where
  | sampleRateHz | pathMode | discMode | downsamplePasses | decimLegacy | chlpfEnable | chlpfProfile | dcEnable
  | dcBlockShift | agcEnable | agcTargetRms | agcMinRms | agcAlphaUpQ15 | agcAlphaDownQ15 | limiterEnable | iqbalEnable
  | iqbalThrQ15 | iqbalEmaQ15 | fllEnable | fllAlphaQ15 | fllBetaQ15 | fllDeadbandQ14 | fllSlewMaxQ15 | mfEnable
  | cqpskRrcEnable | rrcAlphaQ15 | rrcSpanSyms | tedEnable | tedForce | tedSps | tedGainMu | tedGainOmega
  | tedOmegaRel | tedLockThr | sqlLevel | sqlWindow | sqlStride | gateEnable | gateAttackQ15 | gateReleaseQ15
  deriving DecidableEq, Repr

/-- The configuration registers 0x00 to 0x27 (R29): INT and Qn registers are integers, REAL registers exact rationals
(R10). The default values are the reset values of R29. -/
structure CfgRegs where
  sampleRateHz : Int := 0
  pathMode : Int := 0
  discMode : Int := 0
  downsamplePasses : Int := 0
  decimLegacy : Int := 0
  chlpfEnable : Int := 0
  chlpfProfile : Int := 0
  dcEnable : Int := 0
  dcBlockShift : Int := 11
  agcEnable : Int := 0
  agcTargetRms : Int := 10000
  agcMinRms : Int := 0
  agcAlphaUpQ15 : Int := 0
  agcAlphaDownQ15 : Int := 0
  limiterEnable : Int := 0
  iqbalEnable : Int := 0
  iqbalThrQ15 : Int := 0
  iqbalEmaQ15 : Int := 0
  fllEnable : Int := 0
  fllAlphaQ15 : Int := 0
  fllBetaQ15 : Int := 0
  fllDeadbandQ14 : Int := 0
  fllSlewMaxQ15 : Int := 0
  mfEnable : Int := 0
  cqpskRrcEnable : Int := 0
  rrcAlphaQ15 : Int := 8192
  rrcSpanSyms : Int := 0
  tedEnable : Int := 0
  tedForce : Int := 0
  tedSps : Int := 10
  tedGainMu : Rat := 1 / 40
  tedGainOmega : Rat := 1 / 16000
  tedOmegaRel : Rat := 1 / 500
  tedLockThr : Rat := 2 / 5
  sqlLevel : Int := 0
  sqlWindow : Int := 1
  sqlStride : Int := 2
  gateEnable : Int := 0
  gateAttackQ15 : Int := 32768
  gateReleaseQ15 : Int := 32768
  deriving DecidableEq, Repr

/-- The error and bookkeeping registers 0x80 to 0x84 (R46). LP_LEN and OUT_LEN (0x85, 0x86) are the lengths of `buf` and
`out` in `State`. -/
structure ErrRegs where
  /-- ERR_CODE. -/
  code : Nat := 0
  /-- ERR_COUNT. -/
  count : Nat := 0
  /-- ERR_STAGE: an operation code. -/
  stage : BitVec 8 := 0
  /-- ERR_INFO. -/
  info : BitVec 32 := 0
  /-- BLOCKS_DONE. -/
  blocksDone : Nat := 0
  deriving DecidableEq, Repr

/-- The FLL dynamic registers 0x90 to 0x96 (R47). -/
structure FllRegs where
  freqQ15 : Int := 0
  phaseQ15 : Int := 0
  prevR : Int := 0
  prevJ : Int := 0
  acqLocked : Bool := false
  acqQuietRuns : Nat := 0
  fllErrQ14 : Int := 0
  deriving DecidableEq, Repr

/-- The TED dynamic registers 0xA0 to 0xAC (R48); `ted_state` (0xAD) is derived and not stored (R49). -/
structure TedRegs where
  mu : Rat := 0
  omega : Rat := 10
  lastR : Rat := 0
  lastJ : Rat := 0
  eEma : Rat := 0
  lockAccum : Rat := 0
  lockCount : Nat := 0
  dlIndex : Nat := 0
  twiceSps : Int := 20
  sps : Int := 10
  fastAcqKicks : Nat := 0
  tedSkip : Nat := 0
  tedLocked : Bool := false
  deriving DecidableEq, Repr

/-- The squelch and gate dynamic registers 0xB0 to 0xB4 (R51). -/
structure SqlRegs where
  runningPower : Int := 0
  windowLog2 : Nat := 0
  decimPhase : Nat := 0
  gateOpen : Bool := false
  envQ15 : Int := 0
  deriving DecidableEq, Repr

/-- The conditioner and discriminator dynamic registers 0xC0 to 0xC6 (R53). -/
structure CondRegs where
  gainQ15 : Int := 32768
  dcR : Int := 0
  dcJ : Int := 0
  iqEmaR : Int := 0
  iqEmaJ : Int := 0
  discPrevR : Int := 0
  discPrevJ : Int := 0
  deriving DecidableEq, Repr

/-- The matched-filter cache registers 0xD0 to 0xD3 (R54); `rrc_ntaps` (0xD4) is the length of `rrcTaps` in `State`. -/
structure RrcRegs where
  keySps : Int := 0
  keyAlpha : Int := 0
  keySpan : Int := 0
  cacheValid : Bool := false
  deriving DecidableEq, Repr

/-- The three values of the derived register `ted_state` (R48, R49). -/
inductive TedState where
  | tracking
  | fastAcquire
  | locked
  deriving DecidableEq, Repr

/-- A block record of the output port: (`len`, `data`, `gate`, `exc`) (R83). -/
structure Record where
  len : Nat
  data : List Int
  gate : Bool
  exc : Nat
  deriving DecidableEq, Repr

/-- A snapshot: a copy of every register of spec/10_state.md sections 5 and 6 taken at one instant (R84), with
`legacy_state`, which R70 lists as visible in it though it stands in section 7 (DEDUCED, log entry 14). -/
structure Snapshot where
  cfg : CfgRegs
  err : ErrRegs
  lpLen : Nat
  outLen : Nat
  fll : FllRegs
  ted : TedRegs
  tedState : TedState
  sql : SqlRegs
  cond : CondRegs
  rrc : RrcRegs
  rrcNtaps : Nat
  legacyState : List Int
  deriving DecidableEq, Repr

/-- A private storage array addressed by element number, as the list of its listed (element, value) pairs in one canonical
form: element numbers strictly rising and no listed value zero, zero being what an unlisted element reads as, the reset
contents the spec gives (R65). -/
abbrev Memory := List (Nat × Int)

/-- The whole state of one DFE instance (R20) with the four streams of its ports (R80). -/
structure State where
  /-- The command port: the words the host has delivered, in order (R82). -/
  cmds : List Word := []
  /-- CP, the index of the next unread command word (R24). -/
  cp : Nat := 0
  /-- The sample-input port: the words that have arrived and are not yet taken (R81). -/
  samples : List Sample := []
  /-- The output port: the block records sent, in order (R83). -/
  outPort : List Record := []
  /-- The snapshot port: the snapshots published, in order (R84). -/
  snapshots : List Snapshot := []
  /-- The valid elements of BUF; its length is `lp_len` (R21). -/
  buf : List Int := []
  /-- The valid elements of OUT; its length is `out_len` (R22). -/
  out : List Int := []
  cfg : CfgRegs := {}
  err : ErrRegs := {}
  fll : FllRegs := {}
  ted : TedRegs := {}
  sql : SqlRegs := {}
  cond : CondRegs := {}
  rrc : RrcRegs := {}
  /-- The RRC tap cache; its length is `rrc_ntaps` (R66). -/
  rrcTaps : List Int := []
  /-- `hb_hist[s]` for s = 0 .. 7, oldest sample first (R63). -/
  hbHist : List (List Cplx) := List.replicate 30 (0, 0) :: List.replicate 7 (List.replicate 14 (0, 0))
  /-- `chlpf_hist[r]`, oldest first (R64). -/
  chlpfHistR : List Int := List.replicate 62 0
  /-- `chlpf_hist[j]`, oldest first (R64). -/
  chlpfHistJ : List Int := List.replicate 62 0
  /-- The TED delay line `dl[0 .. 4·P_TED_DL_SIZE − 1]` (R65). -/
  dl : Memory := []
  /-- `legacy_state`, the opaque value owned by `P_LEGACY_DECIM`, coded as a list of integers with the function's own
  initial value coded as the empty list (R67; log entry 4). -/
  legacyState : List Int := []
  deriving DecidableEq, Repr

/-- The machine at power-on (R74, R341): every field at its reset value; CP = 0, the output and snapshot ports empty, and
the command and sample ports with nothing delivered yet. -/
def State.reset : State := {}

end Sys2Proof.Machine
end

