-- ==== Sys2Proof/Machine/Flags.lean ====
section
/-! DEFINITION. The status flags of spec/10_state.md R26, each as the rule that sets it. -/

namespace Sys2Proof.Machine

/-- `gate_open`: 1 exactly when `running_power ≥ 2·SQL_LEVEL` (R254). -/
def gateDecision (runningPower sqlLevel : Int) : Bool := decide (2 * sqlLevel ≤ runningPower)

/-- `acq_quiet_runs` after an update: one more while |freq_q15| is at most the threshold, else 0, saturating (R190). -/
def quietRuns (P : Config.Params) (freq : Int) (runs : Nat) : Nat :=
  if (freq.natAbs : Nat) ≤ P.lockFreqThr then min (runs + 1) (2 ^ 32 - 1) else 0

/-- `acq_locked` after an update: latched once the quiet run is long enough, never cleared here (R190). -/
def acqLatch (P : Config.Params) (runs : Nat) (locked : Bool) : Bool :=
  decide (P.lockBlocks ≤ runs) || locked

/-- `ted_locked` at the end of a window: the mean of the accumulator is above the threshold, strictly (R231). -/
def tedLockDecision (accum : Rat) (count : Nat) (thr : Rat) : Bool := decide (thr < accum / (count : Rat))

/-- The cached taps do not serve the present registers: a redesign is needed (R203). -/
def rrcStale (k : RrcRegs) (c : CfgRegs) : Bool :=
  !k.cacheValid || decide ((k.keySps, k.keyAlpha, k.keySpan) ≠ (c.tedSps, c.rrcAlphaQ15, c.rrcSpanSyms))

/-- The error flag `ERR_CODE ≠ 0` (R26). -/
def errorFlag (e : ErrRegs) : Bool := decide (e.code ≠ 0)

/-- `ted_state`, a function of two registers (R49). -/
def tedState (t : TedRegs) : TedState :=
  if 0 < t.fastAcqKicks then .fastAcquire else if t.tedLocked then .locked else .tracking

end Sys2Proof.Machine
end

