-- ==== Sys2Proof/Machine/Operands.lean ====
section
/-! DEFINITION. The operand forms: register numbers, classes and legal sets of the configuration registers, the conversion
of written values, and what a register write stores and its side effects (spec/10_state.md R27 to R34, R52;
spec/47_control.md R293). -/

namespace Sys2Proof.Machine

/-- The configuration register with a given number; none for 0x28 to 0xFF, which are reserved or dynamic (R27, R35, R90). -/
def cfgRegOf (n : Nat) : Option CfgReg :=
  [CfgReg.sampleRateHz, .pathMode, .discMode, .downsamplePasses, .decimLegacy, .chlpfEnable, .chlpfProfile, .dcEnable,
    .dcBlockShift, .agcEnable, .agcTargetRms, .agcMinRms, .agcAlphaUpQ15, .agcAlphaDownQ15, .limiterEnable,
    .iqbalEnable, .iqbalThrQ15, .iqbalEmaQ15, .fllEnable, .fllAlphaQ15, .fllBetaQ15, .fllDeadbandQ14,
    .fllSlewMaxQ15, .mfEnable, .cqpskRrcEnable, .rrcAlphaQ15, .rrcSpanSyms, .tedEnable, .tedForce, .tedSps,
    .tedGainMu, .tedGainOmega, .tedOmegaRel, .tedLockThr, .sqlLevel, .sqlWindow, .sqlStride, .gateEnable,
    .gateAttackQ15, .gateReleaseQ15][n]?

/-- The register is of class REAL (R28, R29). -/
def isReal : CfgReg → Bool
  | .tedGainMu | .tedGainOmega | .tedOmegaRel | .tedLockThr => true
  | .sampleRateHz | .pathMode | .discMode | .downsamplePasses | .decimLegacy | .chlpfEnable | .chlpfProfile => false
  | .dcEnable | .dcBlockShift | .agcEnable | .agcTargetRms | .agcMinRms | .agcAlphaUpQ15 | .agcAlphaDownQ15 => false
  | .limiterEnable | .iqbalEnable | .iqbalThrQ15 | .iqbalEmaQ15 | .fllEnable | .fllAlphaQ15 | .fllBetaQ15 => false
  | .fllDeadbandQ14 | .fllSlewMaxQ15 | .mfEnable | .cqpskRrcEnable | .rrcAlphaQ15 | .rrcSpanSyms => false
  | .tedEnable | .tedForce | .tedSps | .sqlLevel | .sqlWindow | .sqlStride => false
  | .gateEnable | .gateAttackQ15 | .gateReleaseQ15 => false

/-- `lo ≤ v ≤ hi`. -/
def within (v lo hi : Int) : Bool := decide (lo ≤ v ∧ v ≤ hi)

/-- The legal sample rates (R29, R30). -/
def legalRate (v : Int) : Bool := decide (v = 24000 ∨ v = 48000 ∨ v = 96000)

/-- The legal values of an INT or Qn register (R29). A REAL register takes no integer. -/
def legalInt (r : CfgReg) (v : Int) : Bool :=
  match r with
  | .sampleRateHz => legalRate v
  | .pathMode | .discMode => within v 0 2
  | .downsamplePasses => within v 0 8
  | .decimLegacy | .chlpfEnable | .chlpfProfile | .dcEnable | .agcEnable | .limiterEnable | .iqbalEnable => within v 0 1
  | .fllEnable | .mfEnable | .cqpskRrcEnable | .tedEnable | .tedForce | .gateEnable => within v 0 1
  | .dcBlockShift => within v 6 15
  | .agcTargetRms => within v 1 32767
  | .agcMinRms | .fllSlewMaxQ15 => within v 0 32767
  | .agcAlphaUpQ15 | .agcAlphaDownQ15 | .iqbalThrQ15 | .iqbalEmaQ15 | .fllAlphaQ15 | .fllBetaQ15 => within v 0 32768
  | .gateAttackQ15 | .gateReleaseQ15 => within v 0 32768
  | .fllDeadbandQ14 => within v 0 16384
  | .rrcAlphaQ15 => within v 1 32768
  | .rrcSpanSyms => within v 0 16
  | .tedSps => within v 2 20
  | .sqlLevel => within v 0 (2 ^ 30)
  | .sqlWindow => within v 1 65536
  | .sqlStride => within v 2 65534 && decide (v % 2 = 0)
  | .tedGainMu | .tedGainOmega | .tedOmegaRel | .tedLockThr => false

/-- The legal values of a REAL register (R29). No other register takes a rational. -/
def legalReal (r : CfgReg) (q : Rat) : Bool :=
  match r with
  | .tedGainMu | .tedGainOmega => decide (0 ≤ q ∧ q ≤ 1 / 2)
  | .tedOmegaRel => decide (0 ≤ q ∧ q ≤ 1 / 4)
  | .tedLockThr => decide (0 ≤ q ∧ q < 1)
  | .sampleRateHz | .pathMode | .discMode | .downsamplePasses | .decimLegacy | .chlpfEnable | .chlpfProfile => false
  | .dcEnable | .dcBlockShift | .agcEnable | .agcTargetRms | .agcMinRms | .agcAlphaUpQ15 | .agcAlphaDownQ15 => false
  | .limiterEnable | .iqbalEnable | .iqbalThrQ15 | .iqbalEmaQ15 | .fllEnable | .fllAlphaQ15 | .fllBetaQ15 => false
  | .fllDeadbandQ14 | .fllSlewMaxQ15 | .mfEnable | .cqpskRrcEnable | .rrcAlphaQ15 | .rrcSpanSyms => false
  | .tedEnable | .tedForce | .tedSps | .sqlLevel | .sqlWindow | .sqlStride => false
  | .gateEnable | .gateAttackQ15 | .gateReleaseQ15 => false

/-- `sext_32(data)`: the value WRR writes to an INT or Qn register (R28). -/
def wrrInt (data : Word) : Int := data.toInt

/-- `zext_32(data) / 2^32`: the value WRR writes to a REAL register (R28). -/
def wrrReal (data : Word) : Rat := (data.toNat : Rat) / 2 ^ 32

/-- `sext_16(imm16)`: the value WRS writes (R28). -/
def wrsInt (imm : BitVec 16) : Int := imm.toInt

/-- The configuration registers after an INT or Qn register takes a value; a REAL register takes none (R29). -/
def setInt (c : CfgRegs) (r : CfgReg) (v : Int) : CfgRegs :=
  match r with
  | .sampleRateHz => { c with sampleRateHz := v }
  | .pathMode => { c with pathMode := v }
  | .discMode => { c with discMode := v }
  | .downsamplePasses => { c with downsamplePasses := v }
  | .decimLegacy => { c with decimLegacy := v }
  | .chlpfEnable => { c with chlpfEnable := v }
  | .chlpfProfile => { c with chlpfProfile := v }
  | .dcEnable => { c with dcEnable := v }
  | .dcBlockShift => { c with dcBlockShift := v }
  | .agcEnable => { c with agcEnable := v }
  | .agcTargetRms => { c with agcTargetRms := v }
  | .agcMinRms => { c with agcMinRms := v }
  | .agcAlphaUpQ15 => { c with agcAlphaUpQ15 := v }
  | .agcAlphaDownQ15 => { c with agcAlphaDownQ15 := v }
  | .limiterEnable => { c with limiterEnable := v }
  | .iqbalEnable => { c with iqbalEnable := v }
  | .iqbalThrQ15 => { c with iqbalThrQ15 := v }
  | .iqbalEmaQ15 => { c with iqbalEmaQ15 := v }
  | .fllEnable => { c with fllEnable := v }
  | .fllAlphaQ15 => { c with fllAlphaQ15 := v }
  | .fllBetaQ15 => { c with fllBetaQ15 := v }
  | .fllDeadbandQ14 => { c with fllDeadbandQ14 := v }
  | .fllSlewMaxQ15 => { c with fllSlewMaxQ15 := v }
  | .mfEnable => { c with mfEnable := v }
  | .cqpskRrcEnable => { c with cqpskRrcEnable := v }
  | .rrcAlphaQ15 => { c with rrcAlphaQ15 := v }
  | .rrcSpanSyms => { c with rrcSpanSyms := v }
  | .tedEnable => { c with tedEnable := v }
  | .tedForce => { c with tedForce := v }
  | .tedSps => { c with tedSps := v }
  | .sqlLevel => { c with sqlLevel := v }
  | .sqlWindow => { c with sqlWindow := v }
  | .sqlStride => { c with sqlStride := v }
  | .gateEnable => { c with gateEnable := v }
  | .gateAttackQ15 => { c with gateAttackQ15 := v }
  | .gateReleaseQ15 => { c with gateReleaseQ15 := v }
  | .tedGainMu | .tedGainOmega | .tedOmegaRel | .tedLockThr => c

/-- The configuration registers after a REAL register takes a value; no other register takes one (R29). -/
def setReal (c : CfgRegs) (r : CfgReg) (q : Rat) : CfgRegs :=
  match r with
  | .tedGainMu => { c with tedGainMu := q }
  | .tedGainOmega => { c with tedGainOmega := q }
  | .tedOmegaRel => { c with tedOmegaRel := q }
  | .tedLockThr => { c with tedLockThr := q }
  | .sampleRateHz | .pathMode | .discMode | .downsamplePasses | .decimLegacy | .chlpfEnable | .chlpfProfile => c
  | .dcEnable | .dcBlockShift | .agcEnable | .agcTargetRms | .agcMinRms | .agcAlphaUpQ15 | .agcAlphaDownQ15 => c
  | .limiterEnable | .iqbalEnable | .iqbalThrQ15 | .iqbalEmaQ15 | .fllEnable | .fllAlphaQ15 | .fllBetaQ15 => c
  | .fllDeadbandQ14 | .fllSlewMaxQ15 | .mfEnable | .cqpskRrcEnable | .rrcAlphaQ15 | .rrcSpanSyms => c
  | .tedEnable | .tedForce | .tedSps | .sqlLevel | .sqlWindow | .sqlStride => c
  | .gateEnable | .gateAttackQ15 | .gateReleaseQ15 => c

/-- The value of an INT or Qn configuration register; 0 for a REAL one. -/
def getInt (c : CfgRegs) : CfgReg → Int
  | .sampleRateHz => c.sampleRateHz
  | .pathMode => c.pathMode
  | .discMode => c.discMode
  | .downsamplePasses => c.downsamplePasses
  | .decimLegacy => c.decimLegacy
  | .chlpfEnable => c.chlpfEnable
  | .chlpfProfile => c.chlpfProfile
  | .dcEnable => c.dcEnable
  | .dcBlockShift => c.dcBlockShift
  | .agcEnable => c.agcEnable
  | .agcTargetRms => c.agcTargetRms
  | .agcMinRms => c.agcMinRms
  | .agcAlphaUpQ15 => c.agcAlphaUpQ15
  | .agcAlphaDownQ15 => c.agcAlphaDownQ15
  | .limiterEnable => c.limiterEnable
  | .iqbalEnable => c.iqbalEnable
  | .iqbalThrQ15 => c.iqbalThrQ15
  | .iqbalEmaQ15 => c.iqbalEmaQ15
  | .fllEnable => c.fllEnable
  | .fllAlphaQ15 => c.fllAlphaQ15
  | .fllBetaQ15 => c.fllBetaQ15
  | .fllDeadbandQ14 => c.fllDeadbandQ14
  | .fllSlewMaxQ15 => c.fllSlewMaxQ15
  | .mfEnable => c.mfEnable
  | .cqpskRrcEnable => c.cqpskRrcEnable
  | .rrcAlphaQ15 => c.rrcAlphaQ15
  | .rrcSpanSyms => c.rrcSpanSyms
  | .tedEnable => c.tedEnable
  | .tedForce => c.tedForce
  | .tedSps => c.tedSps
  | .sqlLevel => c.sqlLevel
  | .sqlWindow => c.sqlWindow
  | .sqlStride => c.sqlStride
  | .gateEnable => c.gateEnable
  | .gateAttackQ15 => c.gateAttackQ15
  | .gateReleaseQ15 => c.gateReleaseQ15
  | .tedGainMu | .tedGainOmega | .tedOmegaRel | .tedLockThr => 0

/-- The value of a REAL configuration register; 0 for any other. -/
def getReal (c : CfgRegs) : CfgReg → Rat
  | .tedGainMu => c.tedGainMu
  | .tedGainOmega => c.tedGainOmega
  | .tedOmegaRel => c.tedOmegaRel
  | .tedLockThr => c.tedLockThr
  | .sampleRateHz | .pathMode | .discMode | .downsamplePasses | .decimLegacy | .chlpfEnable | .chlpfProfile => 0
  | .dcEnable | .dcBlockShift | .agcEnable | .agcTargetRms | .agcMinRms | .agcAlphaUpQ15 | .agcAlphaDownQ15 => 0
  | .limiterEnable | .iqbalEnable | .iqbalThrQ15 | .iqbalEmaQ15 | .fllEnable | .fllAlphaQ15 | .fllBetaQ15 => 0
  | .fllDeadbandQ14 | .fllSlewMaxQ15 | .mfEnable | .cqpskRrcEnable | .rrcAlphaQ15 | .rrcSpanSyms => 0
  | .tedEnable | .tedForce | .tedSps | .sqlLevel | .sqlWindow | .sqlStride => 0
  | .gateEnable | .gateAttackQ15 | .gateReleaseQ15 => 0

/-- `window_log2` of a written `SQL_WINDOW`: the p that minimises |2^p − w|, the larger p on a tie (R34). -/
def roundLog2 (w : Nat) : Nat :=
  if w - 2 ^ w.log2 < 2 ^ (w.log2 + 1) - w then w.log2 else w.log2 + 1

/-- `decim_phase` after `SQL_STRIDE` is written with `stride`: reduced modulo it, bit 0 cleared (R52). -/
def reducePhase (phase stride : Nat) : Nat := clearBit0 (phase % stride)

/-- The side effects of a successful write of an INT or Qn register: `SQL_WINDOW` sets `window_log2`, `SQL_STRIDE` brings
`decim_phase` into range, no other write has one (R293). -/
def writeEffect (r : CfgReg) (v : Int) (q : SqlRegs) : SqlRegs :=
  match r with
  | .sqlWindow => { q with windowLog2 := roundLog2 v.toNat }
  | .sqlStride => { q with decimPhase := reducePhase q.decimPhase v.toNat }
  | .sampleRateHz | .pathMode | .discMode | .downsamplePasses | .decimLegacy | .chlpfEnable | .chlpfProfile => q
  | .dcEnable | .dcBlockShift | .agcEnable | .agcTargetRms | .agcMinRms | .agcAlphaUpQ15 | .agcAlphaDownQ15 => q
  | .limiterEnable | .iqbalEnable | .iqbalThrQ15 | .iqbalEmaQ15 | .fllEnable | .fllAlphaQ15 | .fllBetaQ15 => q
  | .fllDeadbandQ14 | .fllSlewMaxQ15 | .mfEnable | .cqpskRrcEnable | .rrcAlphaQ15 | .rrcSpanSyms => q
  | .tedEnable | .tedForce | .tedSps | .sqlLevel | .gateEnable | .gateAttackQ15 | .gateReleaseQ15 => q
  | .tedGainMu | .tedGainOmega | .tedOmegaRel | .tedLockThr => q

/-- A successful write of an INT or Qn register, with its side effects (R283, R293). -/
def writeInt (r : CfgReg) (v : Int) (s : State) : State :=
  { s with cfg := setInt s.cfg r v, sql := writeEffect r v s.sql }

/-- A successful write of a REAL register: like every assignment to a REAL field it stores the quantised value
(R12, R283). -/
def writeReal (P : Config.Params) (r : CfgReg) (q : Rat) (s : State) : State :=
  { s with cfg := setReal s.cfg r (P.qreal q) }

end Sys2Proof.Machine
end

