-- ==== Sys2Proof/Machine/Ops.lean ====
section
/-! DEFINITION. The named operations over the ports, the storage arrays and the error registers; raising an exception, once
for all of them; the snapshot; reading a command at CP. -/

namespace Sys2Proof.Machine

/-! ### Storage arrays -/

/-- The canonical form of a storage array: element numbers strictly rising from `lo` on, no listed value zero. -/
def Memory.wfFrom : Nat → Memory → Bool
  | _, [] => true
  | lo, (a, v) :: rest => decide (lo ≤ a) && decide (v ≠ 0) && Memory.wfFrom (a + 1) rest

/-- The array is in its canonical form. -/
def Memory.wf (m : Memory) : Bool := Memory.wfFrom 0 m

/-- What an unlisted element reads as: the reset contents the spec gives, zero (R65). -/
def Memory.unlisted : Int := 0

/-- `MemRead`: one element (R14). -/
def Memory.read (m : Memory) (a : Nat) : Int :=
  match m with
  | [] => Memory.unlisted
  | (b, v) :: rest => if a = b then v else Memory.read rest a

/-- The list after element `a` takes the value `v`: a listed element is replaced, a new one goes to its place, and the value
an unlisted element reads as is not listed. -/
def Memory.write (m : Memory) (a : Nat) (v : Int) : Memory :=
  match m with
  | [] => if v = Memory.unlisted then [] else [(a, v)]
  | (b, w) :: rest =>
    if a < b then (if v = Memory.unlisted then (b, w) :: rest else (a, v) :: (b, w) :: rest)
    else if a = b then (if v = Memory.unlisted then rest else (a, v) :: rest)
    else (b, w) :: Memory.write rest a v

/-- A complex sample written to complex slot `i`: elements 2i and 2i + 1 (R65). -/
def writeSlot (m : Memory) (i : Nat) (x : Cplx) : Memory := (m.write (2 * i) x.1).write (2 * i + 1) x.2

/-- The complex sample in complex slot `i` (R65). -/
def readSlot (m : Memory) (i : Nat) : Cplx := (m.read (2 * i), m.read (2 * i + 1))

/-- PUSH: the sample is stored at the slots `dl_index` and `dl_index + D` (R100, R218). -/
def pushDl (P : Config.Params) (idx : Nat) (x : Cplx) (m : Memory) : Memory :=
  writeSlot (writeSlot m idx x) (idx + P.tedDlSize) x

/-- `dl_index` after a push (R100). -/
def nextDlIndex (P : Config.Params) (idx : Nat) : Nat := (idx + 1) % P.tedDlSize

/-- `AGE(a)`: the sample `a` positions before the newest (R100, R218). -/
def age (P : Config.Params) (idx : Nat) (m : Memory) (a : Int) : Cplx :=
  readSlot m (((idx + P.tedDlSize : Nat) : Int) - 1 - a).toNat

/-! ### Ports -/

/-- The sample port holds the next `n` words; otherwise the operation waits (R81). -/
def portHas (n : Nat) (s : State) : Bool := decide (n ≤ s.samples.length)

/-- `PortRead(n)`: the next n words in arrival order, as int16 numbers (R14, R81). -/
def portRead (n : Nat) (s : State) : List Int := (s.samples.take n).map BitVec.toInt

/-- The state after `n` words have been taken from the sample port; reading is destructive (R81, R88). -/
def portDrop (n : Nat) (s : State) : State := { s with samples := s.samples.drop n }

/-- `PortWrite`: appends a block record to the output port (R83). -/
def portWrite (r : Record) (s : State) : State := { s with outPort := s.outPort ++ [r] }

/-- `CP <- CP + n` (R24). -/
def advance (n : Nat) (s : State) : State := { s with cp := s.cp + n }

/-! ### Exceptions -/

/-- The code of an exception (R311). -/
def excCode : Exc → Nat
  | .cfgOddLength => 1
  | .cfgBadRate => 2
  | .cfgRange => 3
  | .cmdIllegal => 4
  | .cfgBadReg => 5
  | .cfgLenRange => 6

/-- The largest value of the saturating 32-bit counters (R46, R47). -/
def counterMax : Nat := 2 ^ 32 - 1

/-- `raise X(info)`: the four error registers, the same for every exception; `stage` is the opcode of the operation that
detected it. There is no handler and no other effect; ending the operation is the raising rule's own part, and the return
from an exception does not exist (R316, R319). -/
def raise (x : Exc) (stage : BitVec 8) (info : Int) (s : State) : State :=
  { s with err := { s.err with
      code := excCode x
      count := min (s.err.count + 1) counterMax
      stage := stage
      info := BitVec.ofInt 32 info } }

/-! ### The snapshot port -/

/-- The snapshot of the present registers (R84) and of `legacy_state`, as R70 says (DEDUCED, log entry 14). -/
def takeSnapshot (s : State) : Snapshot :=
  { cfg := s.cfg, err := s.err, lpLen := s.buf.length, outLen := s.out.length, fll := s.fll, ted := s.ted,
    tedState := tedState s.ted, sql := s.sql, cond := s.cond, rrc := s.rrc, rrcNtaps := s.rrcTaps.length,
    legacyState := s.legacyState }

/-- Publishes a snapshot (R84). -/
def publish (s : State) : State := { s with snapshots := s.snapshots ++ [takeSnapshot s] }

/-! ### The command port -/

/-- The operation at CP, or why there is none (R82, R114). -/
def fetch (s : State) : Except Reject Instr := decode (s.cmds.drop s.cp)

/-- The word at CP exists and is a control command (R93); a WRR is one by its first word, whether or not its data word has
arrived. -/
def controlFollows (s : State) : Bool :=
  match s.cmds.drop s.cp with
  | [] => false
  | w :: _ =>
    match decodeWord w 0 with
    | .ok i => i.isControl
    | .error _ => false

/-- The operation `i` runs a whole block (R93: "after a BLK with no control command following"). -/
def endsBlock : Instr → Bool
  | .blk _ => true
  | .nop | .wrr _ _ | .wrs _ _ | .rst | .fllrst | .errclr | .load _ | .emit => false
  | .decimhb | .decimleg | .chlpf | .sqlm | .dcblk | .agc | .limit | .iqbal => false
  | .flldd | .fllbe | .mf5 | .rrc | .tedm | .tedf => false
  | .discfm | .discdq | .discraw | .gate => false

/-- A batch boundary is reached with the operation `i`, which took CP from `cp` to that of `t`: the operation is the last
command of a batch, or a BLK with no control command following (R93). An operation still waiting reaches none. -/
def batchBoundary (i : Instr) (cp : Nat) (t : State) : Bool :=
  decide (t.cp ≠ cp) && (i.isControl || endsBlock i) && !controlFollows t

/-- The state after the operation `i` completed with `t`: a snapshot is published at a batch boundary (R281). -/
def settle (i : Instr) (cp : Nat) (t : State) : State := if batchBoundary i cp t then publish t else t

/-- An illegal command: CMD_ILLEGAL with the word, whose `op` field is the stage, CP past that one word (R118, R314). -/
def illegalCommand (w : Word) (s : State) : State :=
  advance 1 (raise .cmdIllegal (w.extractLsb' 24 8) w.toNat s)

end Sys2Proof.Machine
end

