-- ==== Sys2Proof/Machine/Conditioner.lean ====
section
/-! DEFINITION. The baseband conditioner: DCBLK, AGC, LIMIT, IQBAL (spec/41_conditioner.md). -/

namespace Sys2Proof.Machine

/-- One sample of the DC blocker with shift `k`: the estimate is updated, then subtracted (R161). -/
def dcStep (k : Nat) (dc : Cplx) (x : Cplx) : Cplx × Cplx :=
  let r := dc.1 + rsh (x.1 - dc.1) k
  let j := dc.2 + rsh (x.2 - dc.2) k
  ((r, j), (sat16 (x.1 - r), sat16 (x.2 - j)))

/-- DCBLK (R161). -/
def dcblk (s : State) : State :=
  let r := scan (dcStep s.cfg.dcBlockShift.toNat) (s.cond.dcR, s.cond.dcJ) (pairs s.buf)
  { s with buf := putPairs s.buf r.2, cond := { s.cond with dcR := r.1.1, dcJ := r.1.2 } }

/-- The block RMS of |z|: floor division, then integer square root (R163, R164 (a)). -/
def blockRms (zs : List Cplx) : Nat := isqrt (powerSum zs / (zs.length : Int)).toNat

/-- `g_tgt`: the raw target gain clamped to [1/8, 8], in Q15 (R163). -/
def agcTarget (targetRms : Int) (rms : Nat) : Int :=
  rnd (clampRat ((targetRms : Rat) / (rms : Rat)) (1 / 8) 8 * 32768)

/-- The gain after a block of the given RMS (R163). -/
def agcGain (c : CfgRegs) (rms : Nat) (gain : Int) : Int :=
  if max c.agcMinRms 1 ≤ (rms : Int) then
    let d := agcTarget c.agcTargetRms rms - gain
    let a := if 0 < d then c.agcAlphaUpQ15 else c.agcAlphaDownQ15
    clampInt (gain + rsh (a * d) 15) 1024 262144
  else gain

/-- AGC (R163). -/
def agc (s : State) : State :=
  let zs := pairs s.buf
  if zs.length = 0 then s
  else
    let g := agcGain s.cfg (blockRms zs) s.cond.gainQ15
    { s with buf := s.buf.map fun v => sat16 (rsh (v * g) 15), cond := { s.cond with gainQ15 := g } }

/-- One sample of the limiter with target `t`: rescaled to the target outside the tolerance, both bounds of which are
inclusive (R166, R167). -/
def limitSample (t : Int) (z : Cplx) : Cplx :=
  let p := z.1 * z.1 + z.2 * z.2
  let m := isqrt p.toNat
  if (4 * p < t * t ∨ 4 * (t * t) < p) ∧ 0 < m then
    (sat16 (rnd (((z.1 * t : Int) : Rat) / (m : Rat))), sat16 (rnd (((z.2 * t : Int) : Rat) / (m : Rat))))
  else z

/-- LIMIT (R166). -/
def limit (s : State) : State :=
  { s with buf := putPairs s.buf ((pairs s.buf).map (limitSample s.cfg.agcTargetRms)) }

/-- The sum of z² over a block, real and imaginary part (R168). -/
def squareSum (zs : List Cplx) : Cplx :=
  ((zs.map fun z => z.1 ^ 2 - z.2 ^ 2).sum, (zs.map fun z => 2 * z.1 * z.2).sum)

/-- One component of the block estimate, in Q15 (R168). -/
def iqEstimate (a p : Int) : Int := rnd (((32768 * a : Int) : Rat) / (p : Rat))

/-- The imbalance coefficient after a block (R168). -/
def iqUpdate (ema : Int) (zs : List Cplx) (c : Cplx) : Cplx :=
  let p := powerSum zs
  if 0 < p then
    let a := squareSum zs
    (c.1 + rsh (ema * (iqEstimate a.1 p - c.1)) 15, c.2 + rsh (ema * (iqEstimate a.2 p - c.2)) 15)
  else c

/-- The correction y = z − α·conj(z) of one sample (R168). -/
def iqCorrect (a z : Cplx) : Cplx :=
  (sat16 (z.1 - rsh (a.1 * z.1 + a.2 * z.2) 15), sat16 (z.2 - rsh (a.2 * z.1 - a.1 * z.2) 15))

/-- IQBAL (R168). -/
def iqbal (s : State) : State :=
  let zs := pairs s.buf
  let a := iqUpdate s.cfg.iqbalEmaQ15 zs (s.cond.iqEmaR, s.cond.iqEmaJ)
  let s' := { s with cond := { s.cond with iqEmaR := a.1, iqEmaJ := a.2 } }
  if s.cfg.iqbalThrQ15 ^ 2 ≤ a.1 ^ 2 + a.2 ^ 2 then { s' with buf := putPairs s.buf (zs.map (iqCorrect a)) } else s'

/-- The meaning of DCBLK (R161). -/
def execDcblk (s : State) : Host.Outcome State Fault Refusal := .next (advance 1 (dcblk s))

/-- The meaning of AGC (R163). -/
def execAgc (s : State) : Host.Outcome State Fault Refusal := .next (advance 1 (agc s))

/-- The meaning of LIMIT (R166). -/
def execLimit (s : State) : Host.Outcome State Fault Refusal := .next (advance 1 (limit s))

/-- The meaning of IQBAL (R168). -/
def execIqbal (s : State) : Host.Outcome State Fault Refusal := .next (advance 1 (iqbal s))

end Sys2Proof.Machine
end

