-- ==== Sys2Proof/Machine/Control.lean ====
section
/-! DEFINITION. The control operations: NOP, WRR, WRS, RST, FLLRST, ERRCLR (spec/47_control.md section 2). -/

namespace Sys2Proof.Machine

/-- WRR: the register takes the converted data word, or CFG_BADREG or CFG_RANGE is raised (R283). -/
def wrr (P : Config.Params) (reg : Nat) (data : Word) (s : State) : State :=
  match cfgRegOf reg with
  | none => raise .cfgBadReg 0x01 reg s
  | some r =>
    if isReal r then
      if legalReal r (wrrReal data) then writeReal P r (wrrReal data) s else raise .cfgRange 0x01 data.toNat s
    else if legalInt r (wrrInt data) then writeInt r (wrrInt data) s
    else raise .cfgRange 0x01 data.toNat s

/-- WRS: the register takes the sign-extended immediate, or CFG_BADREG or CFG_RANGE is raised; a REAL register is always
refused (R284). -/
def wrs (reg : Nat) (imm : BitVec 16) (s : State) : State :=
  match cfgRegOf reg with
  | none => raise .cfgBadReg 0x02 reg s
  | some r =>
    if isReal r then raise .cfgRange 0x02 imm.toNat s
    else if legalInt r (wrsInt imm) then writeInt r (wrsInt imm) s
    else raise .cfgRange 0x02 (wrsInt imm) s

/-- RST: every register, register file and buffer length at its reset value; the ports and CP are not touched
(R285, R342). -/
def rst (s : State) : State :=
  { State.reset with
    cmds := s.cmds, cp := s.cp, samples := s.samples, outPort := s.outPort, snapshots := s.snapshots }

/-- FLLRST: the seven FLL dynamic registers are cleared (R286, R344). -/
def fllrst (s : State) : State :=
  { s with fll := { freqQ15 := 0, phaseQ15 := 0, prevR := 0, prevJ := 0, acqLocked := false, acqQuietRuns := 0,
                    fllErrQ14 := 0 } }

/-- ERRCLR: ERR_CODE is cleared, the other error registers keep their values (R289). -/
def errclr (s : State) : State := { s with err := { s.err with code := 0 } }

/-- The meaning of NOP (R282). -/
def execNop (s : State) : Host.Outcome State Fault Refusal := .next (advance 1 s)

/-- The meaning of WRR: both words are consumed in every case (R283). -/
def execWrr (reg : Nat) (data : Word) (s : State) : Host.Outcome State Fault Refusal :=
  .next (advance 2 (wrr Config.params reg data s))

/-- The meaning of WRS (R284). -/
def execWrs (reg : Nat) (imm : BitVec 16) (s : State) : Host.Outcome State Fault Refusal :=
  .next (advance 1 (wrs reg imm s))

/-- The meaning of RST (R285). -/
def execRst (s : State) : Host.Outcome State Fault Refusal := .next (advance 1 (rst s))

/-- The meaning of FLLRST (R286). -/
def execFllrst (s : State) : Host.Outcome State Fault Refusal := .next (advance 1 (fllrst s))

/-- The meaning of ERRCLR (R289). -/
def execErrclr (s : State) : Host.Outcome State Fault Refusal := .next (advance 1 (errclr s))

end Sys2Proof.Machine
end

