-- ==== Sys2Proof/Machine/Decimator.lean ====
section
/-! DEFINITION. The decimator and the channel low-pass: DECIMHB, DECIMLEG, CHLPF (spec/40_decimator_lpf.md). Each operation
is first a function of the parameters, then a meaning that uses the machine's own. -/

namespace Sys2Proof.Machine

/-- One output of a half-band stage for one component: sample `m` is aligned to input 2m, from the extended sequence
(R142, R143 (a)). -/
def hbOutput (h xe : List Int) (m : Nat) : Int := sat16 (rsh (dot h.reverse (xe.drop (2 * m))) 15)

/-- One half-band stage with the taps `h` and a history of `hist` samples: the new history and the outputs (R142). -/
def hbStage (h : List Int) (histLen : Nat) (hist x : List Cplx) : List Cplx × List Cplx :=
  let xe := hist ++ x
  (lastN histLen xe,
    (List.range (x.length / 2)).map fun m => (hbOutput h (xe.map Prod.fst) m, hbOutput h (xe.map Prod.snd) m))

/-- The taps of stage `s`: 31 for stage 0, the shared 15 for the others (R142). -/
def hbTaps (P : Config.Params) (s : Nat) : List Int := if s = 0 then P.hb31 else P.hb15

/-- The length of the history of stage `s`: one less than its taps (R63). -/
def hbHistLen (s : Nat) : Nat := if s = 0 then 30 else 14

/-- Stage `s` run on the histories and the sequence so far (R142). -/
def hbCascadeStage (P : Config.Params) (hx : List (List Cplx) × List Cplx) (s : Nat) : List (List Cplx) × List Cplx :=
  let r := hbStage (hbTaps P s) (hbHistLen s) (hx.1.getD s []) hx.2
  (hx.1.set s r.1, r.2)

/-- The stages 0 .. n − 1 in order (R142). -/
def hbCascade (P : Config.Params) (n : Nat) (hists : List (List Cplx)) (x : List Cplx) : List (List Cplx) × List Cplx :=
  (List.range n).foldl (hbCascadeStage P) (hists, x)

/-- The number of decimate-by-two stages N (R140). -/
def passes (s : State) : Nat := s.cfg.downsamplePasses.toNat

/-- DECIMHB (R142). -/
def decimhb (P : Config.Params) (s : State) : State :=
  if passes s = 0 then s
  else if s.buf.length / 2 / 2 ^ passes s = 0 then { s with buf := [] }
  else
    let r := hbCascade P (passes s) s.hbHist (pairs s.buf)
    { s with buf := interleave r.2, hbHist := r.1 }

/-- DECIMLEG: the uninterpreted legacy decimator (R144). -/
def decimleg (P : Config.Params) (s : State) : State :=
  if passes s = 0 then s
  else if s.buf.length / 2 / 2 ^ passes s = 0 then { s with buf := [] }
  else
    let r := P.legacyDecim s.legacyState s.buf (passes s)
    { s with buf := r.2, legacyState := r.1 }

/-- The taps of the channel low-pass profile (R145). -/
def chlpfTaps (P : Config.Params) (c : CfgRegs) : List Int := if c.chlpfProfile = 0 then P.chlpfWide else P.chlpfDigital

/-- The channel low-pass of one component over its extended sequence of history and input (R146). -/
def chlpfOutputs (h xe : List Int) (m : Nat) : List Int :=
  (List.range m).map fun n => sat16 (rsh (dot h.reverse (xe.drop n)) 15)

/-- CHLPF (R146). -/
def chlpf (P : Config.Params) (s : State) : State :=
  let x := pairs s.buf
  if x.length = 0 then s
  else
    let h := chlpfTaps P s.cfg
    let xeR := s.chlpfHistR ++ x.map Prod.fst
    let xeJ := s.chlpfHistJ ++ x.map Prod.snd
    { s with
      buf := putPairs s.buf ((chlpfOutputs h xeR x.length).zip (chlpfOutputs h xeJ x.length))
      chlpfHistR := lastN 62 xeR
      chlpfHistJ := lastN 62 xeJ }

/-- The meaning of DECIMHB (R142). -/
def execDecimhb (s : State) : Host.Outcome State Fault Refusal := .next (advance 1 (decimhb Config.params s))

/-- The meaning of DECIMLEG (R144). -/
def execDecimleg (s : State) : Host.Outcome State Fault Refusal := .next (advance 1 (decimleg Config.params s))

/-- The meaning of CHLPF (R146). -/
def execChlpf (s : State) : Host.Outcome State Fault Refusal := .next (advance 1 (chlpf Config.params s))

end Sys2Proof.Machine
end

