-- ==== Sys2Proof/Machine/Fll.lean ====
section
/-! DEFINITION. Carrier recovery: FLLDD, FLLBE (spec/42_fll.md). -/

namespace Sys2Proof.Machine

/-- One sample of the ROT step: rotated by minus the NCO phase, then the phase advanced by the frequency (R182). -/
def rotStep (P : Config.Params) (freq phase : Int) (z : Cplx) : Int × Cplx :=
  let cs := P.ncoCs phase
  ((phase + freq) % 32768,
    (sat16 (rsh (z.1 * cs.1 + z.2 * cs.2) 15), sat16 (rsh (z.2 * cs.1 - z.1 * cs.2) 15)))

/-- ROT: the phase after the block and the rotated block (R182). -/
def rotate (P : Config.Params) (f : FllRegs) (zs : List Cplx) : Int × List Cplx :=
  scan (rotStep P f.freqQ15) f.phaseQ15 zs

/-- The phase step of a sample against the one before it, by `P_ATAN2_Q14` of z·conj(z_prev) (R185, R267). -/
def phaseStep (P : Config.Params) (prev x : Cplx) : Int :=
  P.atan2 (x.2 * prev.1 - x.1 * prev.2) (x.1 * prev.1 + x.2 * prev.2)

/-- EST_FM: the rounded mean of the phase steps over the rotated block (R185). -/
def estFm (P : Config.Params) (prev : Cplx) (ys : List Cplx) : Int :=
  let acc := ((scan (fun p x => (x, phaseStep P p x)) prev ys).2).sum
  rnd ((acc : Rat) / (ys.length : Rat))

/-- The error after the deadband: zero when its magnitude is at most the deadband, else whole (R184). -/
def deadband (c : CfgRegs) (err : Int) : Int := if (err.natAbs : Int) ≤ c.fllDeadbandQ14 then 0 else err

/-- The change of frequency an error makes, inside the slew clamp (R184). -/
def slewStep (c : CfgRegs) (err : Int) : Int :=
  clampInt (rsh (c.fllBetaQ15 * err) 15) (-c.fllSlewMaxQ15) c.fllSlewMaxQ15

/-- UPD: integrator, phase kick and observed error (R184). -/
def fllUpdate (c : CfgRegs) (rawErr : Int) (f : FllRegs) : FllRegs :=
  let err := deadband c rawErr
  { f with
    freqQ15 := sat32 (f.freqQ15 + slewStep c err)
    phaseQ15 := (f.phaseQ15 + rsh (c.fllAlphaQ15 * err) 15) % 32768
    fllErrQ14 := err }

/-- LOCKDET, on the frequency after the update (R190). -/
def lockDetect (P : Config.Params) (f : FllRegs) : FllRegs :=
  let runs := quietRuns P f.freqQ15 f.acqQuietRuns
  { f with acqQuietRuns := runs, acqLocked := acqLatch P runs f.acqLocked }

/-- `prev_r`, `prev_j` after a block: its last sample; unchanged by an empty block (R185, R188). -/
def lastSample (prev : Cplx) (ys : List Cplx) : Cplx := ys.getLastD prev

/-- FLLDD (R186). -/
def flldd (P : Config.Params) (s : State) : State :=
  let zs := pairs s.buf
  if zs.length = 0 then s
  else
    let r := rotate P s.fll zs
    let prev := (s.fll.prevR, s.fll.prevJ)
    let last := lastSample prev r.2
    { s with
      buf := putPairs s.buf r.2
      fll := fllUpdate s.cfg (estFm P prev r.2) { s.fll with phaseQ15 := r.1, prevR := last.1, prevJ := last.2 } }

/-- FLLBE (R188). -/
def fllbe (P : Config.Params) (s : State) : State :=
  let zs := pairs s.buf
  if zs.length = 0 then s
  else
    let r := rotate P s.fll zs
    let prev := (s.fll.prevR, s.fll.prevJ)
    let last := lastSample prev r.2
    let f := { s.fll with phaseQ15 := r.1, prevR := last.1, prevJ := last.2 }
    { s with
      buf := putPairs s.buf r.2
      fll := if s.fll.acqLocked then f else lockDetect P (fllUpdate s.cfg (P.beDetect r.2 s.cfg.tedSps prev) f) }

/-- The meaning of FLLDD (R186). -/
def execFlldd (s : State) : Host.Outcome State Fault Refusal := .next (advance 1 (flldd Config.params s))

/-- The meaning of FLLBE (R188). -/
def execFllbe (s : State) : Host.Outcome State Fault Refusal := .next (advance 1 (fllbe Config.params s))

end Sys2Proof.Machine
end

