-- ==== Sys2Proof/Machine/Discriminator.lean ====
section
/-! DEFINITION. The discriminators: DISCFM, DISCDQ, DISCRAW (spec/46_discriminators.md). -/

namespace Sys2Proof.Machine

/-- One output of the discriminator: the phase step from the previous sample, saturated (R267). -/
def discStep (P : Config.Params) (prev x : Cplx) : Cplx × Int := (x, sat16 (phaseStep P prev x))

/-- The algebra DISCFM and DISCDQ share, with their previous sample (R267, R268). -/
def discriminate (P : Config.Params) (s : State) : State :=
  let r := scan (discStep P) (s.cond.discPrevR, s.cond.discPrevJ) (pairs s.buf)
  { s with out := r.2, cond := { s.cond with discPrevR := r.1.1, discPrevJ := r.1.2 } }

/-- DISCFM (R267). -/
def discfm (P : Config.Params) (s : State) : State := discriminate P s

/-- DISCDQ: DISCFM word for word, with the same registers (R268). -/
def discdq (P : Config.Params) (s : State) : State := discriminate P s

/-- DISCRAW: OUT is a copy of BUF (R269). -/
def discraw (s : State) : State := { s with out := s.buf }

/-- The meaning of DISCFM (R267). -/
def execDiscfm (s : State) : Host.Outcome State Fault Refusal := .next (advance 1 (discfm Config.params s))

/-- The meaning of DISCDQ (R268). -/
def execDiscdq (s : State) : Host.Outcome State Fault Refusal := .next (advance 1 (discdq Config.params s))

/-- The meaning of DISCRAW (R269). -/
def execDiscraw (s : State) : Host.Outcome State Fault Refusal := .next (advance 1 (discraw s))

end Sys2Proof.Machine
end

