-- ==== Sys2Proof/Machine/MatchedFilter.lean ====
section
/-! DEFINITION. The matched filters: MF5, RRC (spec/43_matched_filter.md). -/

namespace Sys2Proof.Machine

/-- A block with its first and last sample repeated before and after it, so that element n + k of the result is the sample
a tap reads at clamp(n + k − before, 0, M − 1) (R101, R201). -/
def edgeExtend (before after : Nat) (x : List Int) : List Int :=
  List.replicate before (x.headD 0) ++ x ++ List.replicate after (x.getLastD 0)

/-- The block-local FIR of one component with its centre at tap `ctr` (R202, R203). -/
def blockFir (h : List Int) (ctr : Nat) (x : List Int) : List Int :=
  (List.range x.length).map fun n => sat16 (rsh (dot h ((edgeExtend ctr (h.length - 1 - ctr) x).drop n)) 15)

/-- The block-local FIR of both components, written to BUF (R202, R203). -/
def matchedFilter (h : List Int) (ctr : Nat) (buf : List Int) : List Int :=
  let x := pairs buf
  putPairs buf ((blockFir h ctr (x.map Prod.fst)).zip (blockFir h ctr (x.map Prod.snd)))

/-- MF5 (R202). -/
def mf5 (P : Config.Params) (s : State) : State := { s with buf := matchedFilter P.mf5 2 s.buf }

/-- NTAPS(sps, span): the tap count, made odd by adding one (R204). -/
def ntaps (sps span : Int) : Nat :=
  let nt := if span = 0 then (11 * sps + 1).toNat else (2 * span * sps + 1).toNat
  if nt % 2 = 0 then nt + 1 else nt

/-- The cache registers and taps for the present configuration: redesigned when stale, else as they are (R203, R206). -/
def rrcRefresh (P : Config.Params) (s : State) : State :=
  if rrcStale s.rrc s.cfg then
    { s with
      rrcTaps := P.rrcDesign s.cfg.tedSps s.cfg.rrcAlphaQ15 (ntaps s.cfg.tedSps s.cfg.rrcSpanSyms)
      rrc := ⟨s.cfg.tedSps, s.cfg.rrcAlphaQ15, s.cfg.rrcSpanSyms, true⟩ }
  else s

/-- RRC (R203). -/
def rrc (P : Config.Params) (s : State) : State :=
  let s' := rrcRefresh P s
  { s' with buf := matchedFilter s'.rrcTaps ((s'.rrcTaps.length - 1) / 2) s.buf }

/-- The meaning of MF5 (R202). -/
def execMf5 (s : State) : Host.Outcome State Fault Refusal := .next (advance 1 (mf5 Config.params s))

/-- The meaning of RRC (R203). -/
def execRrc (s : State) : Host.Outcome State Fault Refusal := .next (advance 1 (rrc Config.params s))

end Sys2Proof.Machine
end

