-- ==== Sys2Proof/Machine/Squelch.lean ====
section
/-! DEFINITION. The squelch and the soft audio gate: SQLM, GATE (spec/45_squelch_gate.md). -/

namespace Sys2Proof.Machine

/-- The grid points of a block of length `len`: phase, phase + stride, ..., below the length (R251, R252). -/
def gridPoints (phase stride len : Nat) : List Nat :=
  (List.range ((len - phase + stride - 1) / stride)).map fun k => phase + k * stride

/-- The grid points of the present block (R251). -/
def sqlGrid (s : State) : List Nat := gridPoints s.sql.decimPhase s.cfg.sqlStride.toNat s.buf.length

/-- Every element the grid reads is valid: for each grid point j, j + 1 < `lp_len` (R21, R251). -/
def gridReadable (s : State) : Bool := (sqlGrid s).all fun j => decide (j + 1 < s.buf.length)

/-- The pair power at the grid point `j` (R251). -/
def gridPower (buf : List Int) (j : Nat) : Int := buf.getD j 0 ^ 2 + buf.getD (j + 1) 0 ^ 2

/-- `running_power` after a block with the grid powers `ps`: unchanged by a block with no grid point (R251, R253). -/
def nextPower (power : Int) (log2 : Nat) (ps : List Int) : Int :=
  if ps = [] then power else power + rsh (ps.sum / (ps.length : Int) - power) log2

/-- `decim_phase` after a block of length `len`: the formula of R251. R252 says that the advance keeps the grid continuous
across blocks for every even stride, which the formula does only where the stride divides twice the length (stride 6,
phase 0, length 4: it gives 4, a continuous grid would need 2). The model takes the formula (DESIGN CHOICE, log entry 15). -/
def nextPhase (phase stride len : Nat) : Nat := (phase + clearBit0 (len % stride)) % stride

/-- SQLM, on a block whose grid is readable (R251). -/
def sqlm (s : State) : State :=
  let power := nextPower s.sql.runningPower s.sql.windowLog2 ((sqlGrid s).map (gridPower s.buf))
  { s with sql := { s.sql with
      runningPower := power
      decimPhase := nextPhase s.sql.decimPhase s.cfg.sqlStride.toNat s.buf.length
      gateOpen := gateDecision power s.cfg.sqlLevel } }

/-- The envelope after one output element (R256). -/
def gateEnv (c : CfgRegs) (isOpen : Bool) (env : Int) : Int :=
  let tgt := if isOpen then 32768 else 0
  let a := if isOpen then c.gateAttackQ15 else c.gateReleaseQ15
  env + rsh (a * (tgt - env)) 15

/-- One output element of the gate: the envelope moves, then scales it (R256). -/
def gateStep (c : CfgRegs) (isOpen : Bool) (env : Int) (v : Int) : Int × Int :=
  (gateEnv c isOpen env, sat16 (rsh (v * gateEnv c isOpen env) 15))

/-- GATE (R256). -/
def gate (s : State) : State :=
  let r := scan (gateStep s.cfg s.sql.gateOpen) s.sql.envQ15 s.out
  { s with out := r.2, sql := { s.sql with envQ15 := r.1 } }

/-- The meaning of SQLM (R251): a read of an element that has no defined value is a fault of the model (R21). -/
def execSqlm (s : State) : Host.Outcome State Fault Refusal :=
  if gridReadable s then .next (advance 1 (sqlm s)) else .fault .readBeyondValid

/-- The meaning of GATE (R256). -/
def execGate (s : State) : Host.Outcome State Fault Refusal := .next (advance 1 (gate s))

end Sys2Proof.Machine
end

