-- ==== Sys2Proof/Machine/Timing.lean ====
section
/-! DEFINITION. Timing recovery: the Gardner detector with the MMSE and the cubic Farrow interpolators and the Yair-Linn
lock detector, TEDM and TEDF (spec/44_ted.md). -/

namespace Sys2Proof.Machine

/-- The registers and the delay line one input sample acts on. -/
structure TedLoop where
  regs : TedRegs
  dl : Memory
  deriving DecidableEq, Repr

/-- SPSCHECK: a change of samples per symbol re-initialises the loop, not the delay line (R216). -/
def spsCheck (P : Config.Params) (c : CfgRegs) (t : TedRegs) : TedRegs :=
  if c.tedSps = t.sps then t
  else
    { t with
      sps := c.tedSps
      twiceSps := 2 * c.tedSps
      omega := P.qreal c.tedSps
      mu := P.qreal 0
      tedSkip := 0
      lastR := P.qreal 0
      lastJ := P.qreal 0
      eEma := P.qreal 0
      lockAccum := P.qreal 0
      lockCount := 0
      tedLocked := false
      fastAcqKicks := P.tedFastKicks }

/-- PUSH on the delay line and its index (R218). -/
def tedPush (P : Config.Params) (x : Cplx) (l : TedLoop) : TedLoop :=
  { regs := { l.regs with dlIndex := nextDlIndex P l.regs.dlIndex }, dl := pushDl P l.regs.dlIndex x l.dl }

/-- `AGE(a)` of the loop's delay line, both components as rationals (R218). -/
def ageRat (P : Config.Params) (l : TedLoop) (a : Int) : RCplx :=
  let z := age P l.regs.dlIndex l.dl a
  ((z.1 : Rat), (z.2 : Rat))

/-- `IM(m, f)`: the MMSE interpolator, a linear blend between adjacent rows of the bank (R219). -/
def interpMmse (P : Config.Params) (l : TedLoop) (m : Int) (f : Rat) : RCplx :=
  let p := (f * P.mmseK).floor.toNat
  let g := f * P.mmseK - (p : Rat)
  let w := (List.range 8).map fun t : Nat => ageRat P l (7 - m - (t : Int))
  let blend := fun xs => (1 - g) * dotRat (P.mmse.getD p []) xs + g * dotRat (P.mmse.getD (p + 1) []) xs
  (blend (w.map Prod.fst), blend (w.map Prod.snd))

/-- The coefficients c[−1], c[0], c[1], c[2] of the cubic at the fraction `f` (R220). -/
def farrowTaps (f : Rat) : List Rat :=
  [-f * (f - 1) * (f - 2) / 6, (f + 1) * (f - 1) * (f - 2) / 2, -(f + 1) * f * (f - 2) / 2, (f + 1) * f * (f - 1) / 6]

/-- `IF(m, f)`: the cubic through the samples n+m−1 .. n+m+2 (R220). -/
def interpFarrow (P : Config.Params) (l : TedLoop) (m : Int) (f : Rat) : RCplx :=
  let w := (List.range 4).map fun i : Nat => ageRat P l (4 - m - ((i : Int) - 1))
  (dotRat (farrowTaps f) (w.map Prod.fst), dotRat (farrowTaps f) (w.map Prod.snd))

/-- The Gardner error, scaled by full scale squared and clipped to ±1 (R221). -/
def gardnerError (last cur mid : RCplx) : Rat :=
  clampRat (((last.1 - cur.1) * mid.1 + (last.2 - cur.2) * mid.2) / 2 ^ 30) (-1) 1

/-- `omega` after the error, inside [omega_min, omega_max], and quantised (R12, R50, R222). -/
def nextOmega (P : Config.Params) (c : CfgRegs) (t : TedRegs) (e : Rat) : Rat :=
  P.qreal (clampRat (t.omega + c.tedGainOmega * e) (t.sps * (1 - c.tedOmegaRel)) (t.sps * (1 + c.tedOmegaRel)))

/-- The loop update: `omega`, then `mu` and the advance `ted_skip` (R222). -/
def loopUpdate (P : Config.Params) (c : CfgRegs) (e : Rat) (t : TedRegs) : TedRegs :=
  let omega := nextOmega P c t e
  let next := t.mu + omega + c.tedGainMu * e
  { t with omega := omega, mu := P.qreal (next - next.floor), tedSkip := next.floor.toNat }

/-- The error smoothing (R223). -/
def smoothError (P : Config.Params) (e : Rat) (t : TedRegs) : TedRegs :=
  { t with eEma := P.qreal (t.eEma + P.tedEmaAlpha * (e - t.eEma)) }

/-- The Yair-Linn term of one symbol: (Pc − Pm)/(Pc + Pm), 0 when both powers are 0 (R231). -/
def yairLinn (cur mid : RCplx) : Rat :=
  let pc := cur.1 ^ 2 + cur.2 ^ 2
  let pm := mid.1 ^ 2 + mid.2 ^ 2
  if 0 < pc + pm then (pc - pm) / (pc + pm) else 0

/-- The lock detector: accumulate, and evaluate at the end of a window (R231). -/
def lockUpdate (P : Config.Params) (c : CfgRegs) (yl : Rat) (t : TedRegs) : TedRegs :=
  let accum := P.qreal (t.lockAccum + yl)
  let count := t.lockCount + 1
  if P.tedLockWindow ≤ count then
    { t with tedLocked := tedLockDecision accum count c.tedLockThr, lockAccum := P.qreal 0, lockCount := 0 }
  else { t with lockAccum := accum, lockCount := count }

/-- Fast acquire: a phase kick while any remain; `ted_skip` is not changed by it (R232). -/
def fastKick (P : Config.Params) (e : Rat) (t : TedRegs) : TedRegs :=
  if 0 < t.fastAcqKicks then
    let k := P.tedKick t.mu t.omega e t.eEma
    { t with mu := P.qreal k.1, omega := P.qreal k.2, fastAcqKicks := t.fastAcqKicks - 1 }
  else t

/-- The instants of a strobe: the on-symbol value and the one half a symbol before it, by the interpolator `interp`
(R234 step 1). -/
def strobeValues (interp : Int → Rat → RCplx) (t : TedRegs) : RCplx × RCplx :=
  let d := t.mu - t.omega / 2
  (interp 0 t.mu, interp d.floor (d - d.floor))

/-- The registers after a strobe with on-symbol value `cur` and mid-sample `mid`, in the order of R234. -/
def strobeRegs (P : Config.Params) (c : CfgRegs) (cur mid : RCplx) (t : TedRegs) : TedRegs :=
  let e := gardnerError (t.lastR, t.lastJ) cur mid
  let t' := fastKick P e (lockUpdate P c (yairLinn cur mid) (smoothError P e (loopUpdate P c e t)))
  { t' with lastR := P.qreal cur.1, lastJ := P.qreal cur.2 }

/-- STROBE: the loop after it and the on-symbol value it emits (R234). -/
def strobe (P : Config.Params) (c : CfgRegs) (interp : TedLoop → Int → Rat → RCplx) (l : TedLoop) : TedLoop × RCplx :=
  let v := strobeValues (interp l) l.regs
  ({ l with regs := strobeRegs P c v.1 v.2 l.regs }, v.1)

/-- `if ted_skip > 0: ted_skip <- ted_skip − 1` (R217). -/
def skipOne (l : TedLoop) : TedLoop := { l with regs := { l.regs with tedSkip := l.regs.tedSkip - 1 } }

/-- The part of STEP after PUSH: count down, and strobe when the count is 0 (R217). -/
def countAndStrobe (P : Config.Params) (c : CfgRegs) (interp : TedLoop → Int → Rat → RCplx) (l : TedLoop) :
    TedLoop × Option RCplx :=
  let l' := skipOne l
  if l'.regs.tedSkip = 0 then
    let r := strobe P c interp l'
    (r.1, some r.2)
  else (l', none)

/-- A REAL complex value stored into BUF (R235, R236). -/
def toSample (v : RCplx) : Cplx := (sat16 (rnd v.1), sat16 (rnd v.2))

/-- One input sample of TEDM: the symbol of the strobe it makes, if it makes one (R217, R235). -/
def tedmStep (P : Config.Params) (c : CfgRegs) (l : TedLoop) (x : Cplx) : TedLoop × Option Cplx :=
  let r := countAndStrobe P c (interpMmse P) (tedPush P x l)
  (r.1, r.2.map toSample)

/-- One input sample of TEDF: the output is interpolated before this sample's strobe (R236). -/
def tedfStep (P : Config.Params) (c : CfgRegs) (l : TedLoop) (x : Cplx) : TedLoop × Cplx :=
  let l' := tedPush P x l
  ((countAndStrobe P c (interpFarrow P) l').1, toSample (interpFarrow P l' 2 l'.regs.mu))

/-- The loop a TED operation starts from (R216). -/
def tedStart (P : Config.Params) (s : State) : TedLoop := { regs := spsCheck P s.cfg s.ted, dl := s.dl }

/-- TEDM (R235). -/
def tedm (P : Config.Params) (s : State) : State :=
  let r := scan (tedmStep P s.cfg) (tedStart P s) (pairs s.buf)
  { s with buf := interleave (r.2.filterMap id), ted := r.1.regs, dl := r.1.dl }

/-- TEDF (R236). -/
def tedf (P : Config.Params) (s : State) : State :=
  let r := scan (tedfStep P s.cfg) (tedStart P s) (pairs s.buf)
  { s with buf := putPairs s.buf r.2, ted := r.1.regs, dl := r.1.dl }

/-- The meaning of TEDM (R235). -/
def execTedm (s : State) : Host.Outcome State Fault Refusal := .next (advance 1 (tedm Config.params s))

/-- The meaning of TEDF (R236). -/
def execTedf (s : State) : Host.Outcome State Fault Refusal := .next (advance 1 (tedf Config.params s))

end Sys2Proof.Machine
end

