-- ==== Sys2Proof/Machine/Block.lean ====
section
/-! DEFINITION. The block operations: LOAD, EMIT, BLK (spec/47_control.md section 3). -/

namespace Sys2Proof.Machine

/-- The exception LOAD raises for a block of length `len` and the value it records, in the priority of R287 and R318: the
rate, then an odd length, then a length above `P_MAXLEN`. -/
def loadFault (P : Config.Params) (c : CfgRegs) (len : Nat) : Option (Exc × Int) :=
  if !legalRate c.sampleRateHz then some (.cfgBadRate, c.sampleRateHz)
  else if len % 2 = 1 then some (.cfgOddLength, len)
  else if P.maxLen < len then some (.cfgLenRange, len)
  else none

/-- LOAD once the port holds the words: they are taken in every case, and dropped when it raises (R287). -/
def load (P : Config.Params) (len : Nat) (s : State) : State :=
  match loadFault P s.cfg len with
  | some (x, info) => raise x 0x11 info (portDrop len s)
  | none => { portDrop len s with buf := portRead len s, out := [] }

/-- EMIT: the record (`out_len`, OUT, `gate_open`, 0) (R288). -/
def emit (s : State) : State :=
  portWrite { len := s.out.length, data := s.out, gate := s.sql.gateOpen, exc := 0 } s

/-- The record of a BLK halted by an exception: (0, [], `gate_open`, ERR_CODE) (R83, R290). -/
def errorRecord (s : State) : State := portWrite { len := 0, data := [], gate := s.sql.gateOpen, exc := s.err.code } s

/-- `BLOCKS_DONE`, saturating (R290). -/
def countBlock (s : State) : State :=
  { s with err := { s.err with blocksDone := min (s.err.blocksDone + 1) counterMax } }

/-- PATH_MODE is CQPSK (R29, R31). -/
def isCqpsk (c : CfgRegs) : Bool := decide (c.pathMode = 2)

/-- PATH_MODE is FM_ANALOG (R29, R31). -/
def isFmAnalog (c : CfgRegs) : Bool := decide (c.pathMode = 0)

/-- A stage that BLK runs only under a condition (R290). -/
def runIf (b : Bool) (f : State → State) (s : State) : State := if b then f s else s

/-- The decimator BLK selects (R290). -/
def blkDecimate (P : Config.Params) (s : State) : State :=
  if 0 < passes s then (if s.cfg.decimLegacy = 1 then decimleg P s else decimhb P s) else s

/-- The carrier loop BLK selects (R290). -/
def blkFll (P : Config.Params) (s : State) : State := if isCqpsk s.cfg then fllbe P s else flldd P s

/-- The matched filter BLK selects (R200, R290). -/
def blkFilter (P : Config.Params) (s : State) : State :=
  if isCqpsk s.cfg && decide (s.cfg.cqpskRrcEnable = 1) then rrc P s else mf5 P s

/-- BLK runs the TED stage: enabled, and never on pure analog FM unless forced (R215, R290). -/
def blkTedRuns (c : CfgRegs) : Bool := decide (c.tedEnable = 1) && (!isFmAnalog c || decide (c.tedForce = 1))

/-- The timing loop BLK selects (R215, R290). -/
def blkTed (P : Config.Params) (s : State) : State := if isCqpsk s.cfg then tedm P s else tedf P s

/-- The discriminator DISC_MODE selects (R265, R290). -/
def blkDisc (P : Config.Params) (s : State) : State :=
  if s.cfg.discMode = 0 then discfm P s else if s.cfg.discMode = 1 then discdq P s else discraw s

/-- The stages before the squelch measurement, positions 1 and 2 (R290, R291). -/
def blkFront (P : Config.Params) (s : State) : State :=
  let s1 := blkDecimate P s
  runIf (decide (s1.cfg.chlpfEnable = 1)) (chlpf P) s1

/-- The stages after the squelch measurement, positions 4 to 12 (R290, R291). -/
def blkBack (P : Config.Params) (s : State) : State :=
  let c := s.cfg
  let s4 := runIf (decide (c.dcEnable = 1)) dcblk s
  let s5 := runIf (decide (c.agcEnable = 1) && !isCqpsk c) agc s4
  let s6 := runIf (decide (c.limiterEnable = 1) && !isCqpsk c) limit s5
  let s7 := runIf (decide (c.iqbalEnable = 1)) iqbal s6
  let s8 := runIf (decide (c.fllEnable = 1)) (blkFll P) s7
  let s9 := runIf (decide (c.mfEnable = 1)) (blkFilter P) s8
  let s10 := runIf (blkTedRuns c) (blkTed P) s9
  let s11 := blkDisc P s10
  runIf (decide (c.gateEnable = 1)) gate s11

/-- The pipeline of a loaded block, its record and the block count (R290). -/
def blkRun (P : Config.Params) (s : State) : Host.Outcome State Fault Refusal :=
  let front := blkFront P s
  if gridReadable front then .next (countBlock (emit (blkBack P (sqlm front)))) else .fault .readBeyondValid

/-- BLK once the port holds the words: LOAD, then the zero-length record if it raised, else the pipeline (R290). -/
def blk (P : Config.Params) (len : Nat) (s : State) : Host.Outcome State Fault Refusal :=
  match loadFault P s.cfg len with
  | some _ => .next (errorRecord (load P len s))
  | none => blkRun P (load P len s)

/-- An outcome with CP moved past a one-word command when the operation completed. -/
def advanceOutcome (o : Host.Outcome State Fault Refusal) : Host.Outcome State Fault Refusal :=
  match o with
  | .next t => .next (advance 1 t)
  | .fault r => .fault r
  | .refused r => .refused r

/-- The meaning of LOAD: it waits, changing nothing, until the words exist (R81, R287). -/
def execLoad (len : Nat) (s : State) : Host.Outcome State Fault Refusal :=
  if portHas len s then .next (advance 1 (load Config.params len s)) else .next s

/-- The meaning of EMIT (R288). -/
def execEmit (s : State) : Host.Outcome State Fault Refusal := .next (advance 1 (emit s))

/-- The meaning of BLK: it waits, changing nothing, until the words exist (R81, R290). -/
def execBlk (len : Nat) (s : State) : Host.Outcome State Fault Refusal :=
  if portHas len s then advanceOutcome (blk Config.params len s) else .next s

end Sys2Proof.Machine
end

