-- ==== Sys2Proof/Machine/Dispatch.lean ====
section
/-! DEFINITION. The one match from an operation to its meaning. -/

namespace Sys2Proof.Machine

def exec (i : Instr) (s : State) : Host.Outcome State Fault Refusal :=
  match i with
  | .nop => Sys2Proof.Machine.execNop s
  | .wrr reg data => Sys2Proof.Machine.execWrr reg data s
  | .wrs reg imm => Sys2Proof.Machine.execWrs reg imm s
  | .rst => Sys2Proof.Machine.execRst s
  | .fllrst => Sys2Proof.Machine.execFllrst s
  | .errclr => Sys2Proof.Machine.execErrclr s
  | .blk len => Sys2Proof.Machine.execBlk len s
  | .load len => Sys2Proof.Machine.execLoad len s
  | .emit => Sys2Proof.Machine.execEmit s
  | .decimhb => Sys2Proof.Machine.execDecimhb s
  | .decimleg => Sys2Proof.Machine.execDecimleg s
  | .chlpf => Sys2Proof.Machine.execChlpf s
  | .sqlm => Sys2Proof.Machine.execSqlm s
  | .dcblk => Sys2Proof.Machine.execDcblk s
  | .agc => Sys2Proof.Machine.execAgc s
  | .limit => Sys2Proof.Machine.execLimit s
  | .iqbal => Sys2Proof.Machine.execIqbal s
  | .flldd => Sys2Proof.Machine.execFlldd s
  | .fllbe => Sys2Proof.Machine.execFllbe s
  | .mf5 => Sys2Proof.Machine.execMf5 s
  | .rrc => Sys2Proof.Machine.execRrc s
  | .tedm => Sys2Proof.Machine.execTedm s
  | .tedf => Sys2Proof.Machine.execTedf s
  | .discfm => Sys2Proof.Machine.execDiscfm s
  | .discdq => Sys2Proof.Machine.execDiscdq s
  | .discraw => Sys2Proof.Machine.execDiscraw s
  | .gate => Sys2Proof.Machine.execGate s

end Sys2Proof.Machine
end

