-- ==== Sys2Proof/Machine/Step.lean ====
section
/-! DEFINITION. One step of the machine: the command at CP (spec/47_control.md R280, R281). -/

namespace Sys2Proof.Machine

/-- One step. Without a complete command the machine idles; an illegal word raises CMD_ILLEGAL; an operation is executed and
a snapshot published if it reached a batch boundary (R281). -/
def step (s : State) : Host.Outcome State Fault Refusal :=
  match fetch s with
  | .error .noWord => .next s
  | .error .noData => .next s
  | .error (.unassignedOpcode w) => .next (illegalCommand w s)
  | .error (.nonzeroField w) => .next (illegalCommand w s)
  | .ok i =>
    match exec i s with
    | .next t => .next (settle i s.cp t)
    | .fault r => .fault r
    | .refused r => .refused r

/-- The state with the words of a row of spec/opcode_table.json at CP, the words before them kept (and padded with NOP where
the host has not delivered them), those after them kept. -/
def State.withFetchWord (s : State) (nbits w : Nat) : State :=
  { s with cmds := s.cmds.take s.cp ++ List.replicate (s.cp - s.cmds.length) 0 ++ tableWords nbits w ++
      s.cmds.drop (s.cp + (tableWords nbits w).length) }

end Sys2Proof.Machine
end

