-- ==== Sys2Proof/Safety.lean ====
section
/-! DEFINITION. The terms the statements use: the ranges the tables of spec/10_state.md give every register and array, as one
invariant; a run that never stops; the command sequence a BLK stands for. -/

namespace Sys2Proof.Safety

open Sys2Proof.Machine

/-! ### Views of a buffer -/

/-- `BUF[2n]`: the I element of sample n (R13). -/
def elemI (b : List Int) (n : Nat) : Int := b.getD (2 * n) 0

/-- `BUF[2n+1]`: the Q element of sample n (R13). -/
def elemQ (b : List Int) (n : Nat) : Int := b.getD (2 * n + 1) 0

/-- The buffer `b` has the length of `a`, and an element of `a` beyond its last whole sample is left as it was. -/
def SameShape (a b : List Int) : Prop :=
  b.length = a.length ∧ ∀ i, 2 * (a.length / 2) ≤ i → b.getD i 0 = a.getD i 0

/-! ### The invariant -/

/-- BUF: an even number of valid elements, at most `P_MAXLEN`, each int16 (R21). -/
def BufOk (b : List Int) : Prop :=
  b.length % 2 = 0 ∧ b.length ≤ Config.params.maxLen ∧ ∀ v ∈ b, IsInt16 v

/-- OUT: at most `P_MAXLEN` valid elements, each int16 (R22). -/
def OutOk (o : List Int) : Prop := o.length ≤ Config.params.maxLen ∧ ∀ v ∈ o, IsInt16 v

/-- A block record: `len` is the number of data words, which are int16, and `exc` is an exception code (R83). -/
def RecordOk (r : Record) : Prop := r.len = r.data.length ∧ OutOk r.data ∧ r.exc ≤ 6

/-- Every configuration register holds a legal value, `SAMPLE_RATE_HZ` possibly its reset value 0 (R27, R29, R30). -/
structure CfgOk (c : CfgRegs) : Prop where
  ints : ∀ r, isReal r = false → r ≠ .sampleRateHz → legalInt r (getInt c r) = true
  rate : c.sampleRateHz = 0 ∨ legalRate c.sampleRateHz = true
  reals : ∀ r, isReal r = true → legalReal r (getReal c r) = true
  rel : Config.IsRel Config.params.qreal c.tedOmegaRel

/-- The ranges of R46. -/
def ErrOk (e : ErrRegs) : Prop := e.code ≤ 6 ∧ e.count ≤ counterMax ∧ e.blocksDone ≤ counterMax

/-- The ranges of R47. -/
structure FllOk (f : FllRegs) : Prop where
  freq : -2 ^ 31 ≤ f.freqQ15 ∧ f.freqQ15 ≤ 2 ^ 31 - 1
  phase : 0 ≤ f.phaseQ15 ∧ f.phaseQ15 ≤ 32767
  prev : IsInt16Pair (f.prevR, f.prevJ)
  runs : f.acqQuietRuns ≤ counterMax
  err : -16384 ≤ f.fllErrQ14 ∧ f.fllErrQ14 ≤ 16384

/-- The ranges of R48, with `omega` in the widest clamp any legal TED_OMEGA_REL gives (R233). -/
structure TedOk (t : TedRegs) : Prop where
  mu : 0 ≤ t.mu ∧ t.mu < 1
  sps : 2 ≤ t.sps ∧ t.sps ≤ 20
  twice : t.twiceSps = 2 * t.sps
  omega : Config.InClamp t.sps (1 / 4) t.omega
  ema : -1 ≤ t.eEma ∧ t.eEma ≤ 1
  count : t.lockCount ≤ Config.params.tedLockWindow
  index : t.dlIndex < Config.params.tedDlSize
  kicks : t.fastAcqKicks ≤ Config.params.tedFastKicks
  skip : t.tedSkip ≤ 26

/-- The ranges of R51, with `window_log2` the rounded logarithm of `SQL_WINDOW` (R34). -/
structure SqlOk (c : CfgRegs) (q : SqlRegs) : Prop where
  power : 0 ≤ q.runningPower ∧ q.runningPower ≤ 2 ^ 31
  window : q.windowLog2 = roundLog2 c.sqlWindow.toNat
  phaseEven : q.decimPhase % 2 = 0
  phaseLt : (q.decimPhase : Int) < c.sqlStride
  env : 0 ≤ q.envQ15 ∧ q.envQ15 ≤ 32768

/-- The ranges of R53. -/
structure CondOk (k : CondRegs) : Prop where
  gain : 1024 ≤ k.gainQ15 ∧ k.gainQ15 ≤ 262144
  dc : IsInt16Pair (k.dcR, k.dcJ)
  emaR : -32768 ≤ k.iqEmaR ∧ k.iqEmaR ≤ 32768
  emaJ : -32768 ≤ k.iqEmaJ ∧ k.iqEmaJ ≤ 32768
  prev : IsInt16Pair (k.discPrevR, k.discPrevJ)

/-- The cache registers and taps: nothing before the first design, else the design of the keys (R54, R66, R206). -/
def RrcOk (k : RrcRegs) (taps : List Int) : Prop :=
  (k.cacheValid = false → taps = [] ∧ k.keySps = 0 ∧ k.keyAlpha = 0 ∧ k.keySpan = 0) ∧
  (k.cacheValid = true → 2 ≤ k.keySps ∧ k.keySps ≤ 20 ∧ 1 ≤ k.keyAlpha ∧ k.keyAlpha ≤ 32768 ∧
    0 ≤ k.keySpan ∧ k.keySpan ≤ 16 ∧ taps.length = ntaps k.keySps k.keySpan ∧
    taps = Config.params.rrcDesign k.keySps k.keyAlpha (ntaps k.keySps k.keySpan)) ∧
  taps.length ≤ Config.params.rrcMaxTaps

/-- The half-band histories: eight of them, 30 and 14 samples long, int16 (R63). -/
def HbOk (h : List (List Cplx)) : Prop :=
  h.length = 8 ∧ ∀ s, s < 8 → (h.getD s []).length = hbHistLen s ∧ ∀ z ∈ h.getD s [], IsInt16Pair z

/-- A channel low-pass history: 62 samples, int16 (R64). -/
def LpfOk (h : List Int) : Prop := h.length = 62 ∧ ∀ v ∈ h, IsInt16 v

/-- The delay line: in canonical form, inside its 4·D elements, int16, its two halves equal (R65, R100). -/
structure DlOk (m : Memory) : Prop where
  canonical : Memory.wf m = true
  inside : ∀ a, 4 * Config.params.tedDlSize ≤ a → m.read a = 0
  int16 : ∀ a, IsInt16 (m.read a)
  doubled : ∀ i, i < Config.params.tedDlSize → readSlot m (i + Config.params.tedDlSize) = readSlot m i

/-- A published snapshot satisfies the ranges of its registers (R84). -/
structure SnapOk (n : Snapshot) : Prop where
  cfg : CfgOk n.cfg
  err : ErrOk n.err
  lpLen : n.lpLen % 2 = 0 ∧ n.lpLen ≤ Config.params.maxLen
  outLen : n.outLen ≤ Config.params.maxLen
  fll : FllOk n.fll
  ted : TedOk n.ted
  tedState : n.tedState = Machine.tedState n.ted
  sql : SqlOk n.cfg n.sql
  cond : CondOk n.cond

/-- The invariant of the machine: every range spec/10_state.md gives, CP inside the delivered command words, and every record
and snapshot already sent in order (R20 to R75, R233). -/
structure StateInv (s : State) : Prop where
  cp : s.cp ≤ s.cmds.length
  buf : BufOk s.buf
  out : OutOk s.out
  cfg : CfgOk s.cfg
  err : ErrOk s.err
  fll : FllOk s.fll
  ted : TedOk s.ted
  sql : SqlOk s.cfg s.sql
  cond : CondOk s.cond
  rrc : RrcOk s.rrc s.rrcTaps
  hb : HbOk s.hbHist
  lpfR : LpfOk s.chlpfHistR
  lpfJ : LpfOk s.chlpfHistJ
  dl : DlOk s.dl
  records : ∀ r ∈ s.outPort, RecordOk r
  snapshots : ∀ n ∈ s.snapshots, SnapOk n

/-! ### Runs -/

/-- A safe run: no number of steps stops the machine (R281: there is no halt state, and an exception never stops the
loop). -/
def SafeRun (s : State) : Prop := ∀ n, ∃ t, Sys2Proof.core.run n s = .next t

/-- The machine at power-on with given contents of its two input ports (R341). -/
def powerOn (cmds : List Word) (samples : List Sample) : State :=
  { State.reset with cmds := cmds, samples := samples }

/-! ### The command sequence of a BLK -/

/-- Executes a sequence of operations one after another, stopping at the first that does not complete. -/
def runInstrs : List Instr → State → Host.Outcome State Fault Refusal
  | [], s => .next s
  | i :: is, s =>
    match exec i s with
    | .next t => runInstrs is t
    | .fault r => .fault r
    | .refused r => .refused r

/-- An outcome with its next state, if there is one, adjusted by `f`. -/
def mapNext (f : State → State) (o : Host.Outcome State Fault Refusal) : Host.Outcome State Fault Refusal :=
  match o with
  | .next t => .next (f t)
  | .fault r => .fault r
  | .refused r => .refused r

/-- One operation of a sequence, if its condition holds. -/
def stageIf (b : Bool) (i : Instr) : List Instr := if b then [i] else []

/-- The stage operations the configuration enables, in the order of the table of R291. -/
def enabledStages (c : CfgRegs) : List Instr :=
  stageIf (decide (0 < c.downsamplePasses)) (if c.decimLegacy = 1 then .decimleg else .decimhb) ++
  stageIf (decide (c.chlpfEnable = 1)) .chlpf ++
  [.sqlm] ++
  stageIf (decide (c.dcEnable = 1)) .dcblk ++
  stageIf (decide (c.agcEnable = 1) && decide (c.pathMode ≠ 2)) .agc ++
  stageIf (decide (c.limiterEnable = 1) && decide (c.pathMode ≠ 2)) .limit ++
  stageIf (decide (c.iqbalEnable = 1)) .iqbal ++
  stageIf (decide (c.fllEnable = 1)) (if c.pathMode = 2 then .fllbe else .flldd) ++
  stageIf (decide (c.mfEnable = 1)) (if c.pathMode = 2 ∧ c.cqpskRrcEnable = 1 then .rrc else .mf5) ++
  stageIf (decide (c.tedEnable = 1) && (decide (c.pathMode ≠ 0) || decide (c.tedForce = 1)))
    (if c.pathMode = 2 then .tedm else .tedf) ++
  [if c.discMode = 0 then .discfm else if c.discMode = 1 then .discdq else .discraw] ++
  stageIf (decide (c.gateEnable = 1)) .gate

/-- The command sequence `BLK n` equals but for `BLOCKS_DONE` and the error record: `LOAD n`, the enabled stage commands,
`EMIT` (R290). -/
def blkSequence (c : CfgRegs) (len : Nat) : List Instr := [.load len] ++ enabledStages c ++ [.emit]

end Sys2Proof.Safety
end

