-- ==== Sys2Proof/Certificates/Slice0/Obligations.lean ====
section
/-! DEFINITION. The statements for the provers. Each is about the machine with its own, opaque binding of the parameters
(`Config.params`), so it holds for every binding that meets the contracts of spec/00_scope.md R8. -/

open Sys2Proof Sys2Proof.Machine Sys2Proof.Safety

/-! ### Encoding -/

/-- R110 to R116: decoding the words of a well-formed operation gives it back, whatever follows them. -/
def Obligations.DecodeOfEncode : Prop :=
  ∀ (i : Instr) (rest : List Word), i.wellFormed = true → decode (encode i ++ rest) = .ok i

/-- R110 to R116: an operation is decoded from exactly one word sequence, its encoding, and is well formed. (R115 says
so; the spec marks it as its own inference from R116.) -/
def Obligations.EncodeOfDecode : Prop :=
  ∀ (ws : List Word) (i : Instr), decode ws = .ok i → i.wellFormed = true ∧ encode i = ws.take i.words

/-- R118: a first word is refused for its opcode exactly when the opcode is unassigned, and for a must-be-zero field
exactly when the opcode is assigned and a field its format requires to be zero is not. -/
def Obligations.IllegalWordsAreThoseOfTheTable : Prop :=
  ∀ (w : Word) (rest : List Word),
    let assigned := opField w ≤ 0x05 ∨ (0x10 ≤ opField w ∧ opField w ≤ 0x12) ∨ (0x20 ≤ opField w ∧ opField w ≤ 0x31)
    let mustBeZero :=
      (opField w = 0x01 ∧ immField w ≠ 0) ∨
      ((opField w = 0x10 ∨ opField w = 0x11) ∧ aField w ≠ 0) ∨
      (opField w ≠ 0x01 ∧ opField w ≠ 0x02 ∧ opField w ≠ 0x10 ∧ opField w ≠ 0x11 ∧ (aField w ≠ 0 ∨ immField w ≠ 0))
    (decode (w :: rest) = .error (.unassignedOpcode w) ↔ ¬ assigned) ∧
    (decode (w :: rest) = .error (.nonzeroField w) ↔ assigned ∧ mustBeZero)

/-- A word of every row of R116 decodes to the operation of its row, with the operands of its format (R110 to R113); the
operands of WRR, WRS, BLK and LOAD and the two illegal words are worked encodings of R123. (The spec marks R123 as its
own inference from R110 and R116.) -/
def Obligations.WorkedEncodingsDecode : Prop :=
  decode [0x0208000B] = .ok (.wrs 0x08 11) ∧
  decode [0x0215FFFF] = .ok (.wrs 0x15 (-1)) ∧
  decode [0x01000000, 0x0000BB80] = .ok (.wrr 0x00 48000) ∧
  decode [0x10000008] = .ok (.blk 8) ∧
  decode [0x11001000] = .ok (.load 4096) ∧
  decode [0x00000000] = .ok .nop ∧ decode [0x03000000] = .ok .rst ∧
  decode [0x04000000] = .ok .fllrst ∧ decode [0x05000000] = .ok .errclr ∧
  decode [0x12000000] = .ok .emit ∧ decode [0x20000000] = .ok .decimhb ∧
  decode [0x21000000] = .ok .decimleg ∧ decode [0x22000000] = .ok .chlpf ∧
  decode [0x23000000] = .ok .sqlm ∧ decode [0x24000000] = .ok .dcblk ∧
  decode [0x25000000] = .ok .agc ∧ decode [0x26000000] = .ok .limit ∧
  decode [0x27000000] = .ok .iqbal ∧ decode [0x28000000] = .ok .flldd ∧
  decode [0x29000000] = .ok .fllbe ∧ decode [0x2A000000] = .ok .mf5 ∧
  decode [0x2B000000] = .ok .rrc ∧ decode [0x2C000000] = .ok .tedm ∧
  decode [0x2D000000] = .ok .tedf ∧ decode [0x2E000000] = .ok .discfm ∧
  decode [0x2F000000] = .ok .discdq ∧ decode [0x30000000] = .ok .discraw ∧
  decode [0x31000000] = .ok .gate ∧
  decode [0x2E000001] = .error (.nonzeroField 0x2E000001) ∧
  decode [0x06000000] = .error (.unassignedOpcode 0x06000000)

/-! ### The step -/

/-- R281: when an operation stands at CP, a step is that operation executed, and a snapshot published if it reached a
batch boundary; the step faults when the operation does, and no operation is refused. -/
def Obligations.StepRunsDecodedInstruction : Prop :=
  ∀ (s : State) (i : Instr), fetch s = .ok i →
    (∀ t, exec i s = .next t → step s = .next (if batchBoundary i s.cp t then publish t else t)) ∧
    (∀ r, exec i s = .fault r → step s = .fault r) ∧
    (∀ r, exec i s ≠ .refused r)

/-- R81, R82, R281 (and R120, which the spec marks as its own inference from R114): where a word is missing nothing
changes, CP included: with no command word at CP, or only the first word of a WRR, the machine idles; while the sample
port holds fewer words than they ask for, LOAD and BLK wait. That a machine which waits answers the same state as a next
state, where R81 gives the operation no step, is the model's reading (log entry 3). -/
def Obligations.WaitingChangesNothing : Prop :=
  (∀ s : State, s.cmds.length ≤ s.cp → step s = .next s) ∧
  (∀ (s : State) (w : Word), s.cmds.drop s.cp = [w] → opField w = 0x01 → immField w = 0 → step s = .next s) ∧
  (∀ (s : State) (len : Nat), s.samples.length < len → exec (.load len) s = .next s ∧ exec (.blk len) s = .next s)

/-- R118, R314, R316: an illegal word raises CMD_ILLEGAL with the word as information and its `op` field as stage,
moves CP by one word, and changes nothing else. -/
def Obligations.IllegalWordRaisesCmdIllegal : Prop :=
  ∀ (s : State) (w : Word) (rest : List Word), s.cmds.drop s.cp = w :: rest →
    (decode (w :: rest) = .error (.unassignedOpcode w) ∨ decode (w :: rest) = .error (.nonzeroField w)) →
    step s = .next { s with
      cp := s.cp + 1
      err := { s.err with
        code := 4, count := min (s.err.count + 1) (2 ^ 32 - 1), stage := w.extractLsb' 24 8, info := w } }

/-- R84, R93, R281 (with log entry 6 for what counts as following, and log entry 14 for `legacy_state`): an operation
that completes leaves the published snapshots alone unless it is a control command or a BLK and no control command
follows, when exactly one is added, a copy of the registers after it. -/
def Obligations.SnapshotExactlyAtBatchBoundary : Prop :=
  ∀ (s t : State) (i : Instr), fetch s = .ok i → step s = .next t → t.cp ≠ s.cp →
    ((i.isControl = true ∨ ∃ n, i = .blk n) ∧ controlFollows t = false →
      ∃ n : Snapshot, t.snapshots = s.snapshots ++ [n] ∧ n.cfg = t.cfg ∧ n.err = t.err ∧ n.lpLen = t.buf.length ∧
        n.outLen = t.out.length ∧ n.fll = t.fll ∧ n.ted = t.ted ∧ n.tedState = tedState t.ted ∧ n.sql = t.sql ∧
        n.cond = t.cond ∧ n.rrc = t.rrc ∧ n.rrcNtaps = t.rrcTaps.length ∧
        n.legacyState = t.legacyState) ∧
    (¬ ((i.isControl = true ∨ ∃ n, i = .blk n) ∧ controlFollows t = false) → t.snapshots = s.snapshots)

/-! ### Control operations -/

/-- R282: NOP moves CP by one word and changes nothing else. -/
def Obligations.NopMovesOnlyCp : Prop :=
  ∀ s : State, exec .nop s = .next { s with cp := s.cp + 1 }

/-- R27, R29, R90: the configuration registers. The number of each names the register; an INT or Qn register is the field
of its name and takes exactly the integers of its legal set; a REAL register likewise exactly the rationals of its set;
no number above 0x27 names one. -/
def Obligations.ConfigRegistersAreThoseOfTheTable : Prop :=
  (∀ row ∈ ([(0x01, .pathMode, CfgRegs.pathMode, 0, 2), (0x02, .discMode, CfgRegs.discMode, 0, 2),
      (0x03, .downsamplePasses, CfgRegs.downsamplePasses, 0, 8), (0x04, .decimLegacy, CfgRegs.decimLegacy, 0, 1),
      (0x05, .chlpfEnable, CfgRegs.chlpfEnable, 0, 1), (0x06, .chlpfProfile, CfgRegs.chlpfProfile, 0, 1),
      (0x07, .dcEnable, CfgRegs.dcEnable, 0, 1), (0x08, .dcBlockShift, CfgRegs.dcBlockShift, 6, 15),
      (0x09, .agcEnable, CfgRegs.agcEnable, 0, 1), (0x0A, .agcTargetRms, CfgRegs.agcTargetRms, 1, 32767),
      (0x0B, .agcMinRms, CfgRegs.agcMinRms, 0, 32767), (0x0C, .agcAlphaUpQ15, CfgRegs.agcAlphaUpQ15, 0, 32768),
      (0x0D, .agcAlphaDownQ15, CfgRegs.agcAlphaDownQ15, 0, 32768), (0x0E, .limiterEnable, CfgRegs.limiterEnable, 0, 1),
      (0x0F, .iqbalEnable, CfgRegs.iqbalEnable, 0, 1), (0x10, .iqbalThrQ15, CfgRegs.iqbalThrQ15, 0, 32768),
      (0x11, .iqbalEmaQ15, CfgRegs.iqbalEmaQ15, 0, 32768), (0x12, .fllEnable, CfgRegs.fllEnable, 0, 1),
      (0x13, .fllAlphaQ15, CfgRegs.fllAlphaQ15, 0, 32768), (0x14, .fllBetaQ15, CfgRegs.fllBetaQ15, 0, 32768),
      (0x15, .fllDeadbandQ14, CfgRegs.fllDeadbandQ14, 0, 16384),
      (0x16, .fllSlewMaxQ15, CfgRegs.fllSlewMaxQ15, 0, 32767), (0x17, .mfEnable, CfgRegs.mfEnable, 0, 1),
      (0x18, .cqpskRrcEnable, CfgRegs.cqpskRrcEnable, 0, 1), (0x19, .rrcAlphaQ15, CfgRegs.rrcAlphaQ15, 1, 32768),
      (0x1A, .rrcSpanSyms, CfgRegs.rrcSpanSyms, 0, 16), (0x1B, .tedEnable, CfgRegs.tedEnable, 0, 1),
      (0x1C, .tedForce, CfgRegs.tedForce, 0, 1), (0x1D, .tedSps, CfgRegs.tedSps, 2, 20),
      (0x22, .sqlLevel, CfgRegs.sqlLevel, 0, 2 ^ 30), (0x23, .sqlWindow, CfgRegs.sqlWindow, 1, 65536),
      (0x25, .gateEnable, CfgRegs.gateEnable, 0, 1), (0x26, .gateAttackQ15, CfgRegs.gateAttackQ15, 0, 32768),
      (0x27, .gateReleaseQ15, CfgRegs.gateReleaseQ15, 0, 32768)] :
      List (Nat × CfgReg × (CfgRegs → Int) × Int × Int)),
    cfgRegOf row.1 = some row.2.1 ∧ isReal row.2.1 = false ∧ (∀ c, getInt c row.2.1 = row.2.2.1 c) ∧
      ∀ v, legalInt row.2.1 v = true ↔ row.2.2.2.1 ≤ v ∧ v ≤ row.2.2.2.2) ∧
  (cfgRegOf 0x00 = some .sampleRateHz ∧ isReal .sampleRateHz = false ∧
    (∀ c, getInt c .sampleRateHz = c.sampleRateHz) ∧
    ∀ v, legalInt .sampleRateHz v = true ↔ v = 24000 ∨ v = 48000 ∨ v = 96000) ∧
  (cfgRegOf 0x24 = some .sqlStride ∧ isReal .sqlStride = false ∧ (∀ c, getInt c .sqlStride = c.sqlStride) ∧
    ∀ v, legalInt .sqlStride v = true ↔ 2 ≤ v ∧ v ≤ 65534 ∧ v % 2 = 0) ∧
  (∀ row ∈ ([(0x1E, .tedGainMu, CfgRegs.tedGainMu, 1 / 2), (0x1F, .tedGainOmega, CfgRegs.tedGainOmega, 1 / 2),
      (0x20, .tedOmegaRel, CfgRegs.tedOmegaRel, 1 / 4)] : List (Nat × CfgReg × (CfgRegs → Rat) × Rat)),
    cfgRegOf row.1 = some row.2.1 ∧ isReal row.2.1 = true ∧ (∀ c, getReal c row.2.1 = row.2.2.1 c) ∧
      ∀ q, legalReal row.2.1 q = true ↔ 0 ≤ q ∧ q ≤ row.2.2.2) ∧
  (cfgRegOf 0x21 = some .tedLockThr ∧ isReal .tedLockThr = true ∧ (∀ c, getReal c .tedLockThr = c.tedLockThr) ∧
    ∀ q, legalReal .tedLockThr q = true ↔ 0 ≤ q ∧ q < 1) ∧
  ∀ n, 0x27 < n → cfgRegOf n = none

/-- R12, R28, R283, R293 (with log entry 5 for the quantiser on a configuration register, and R52, the spec's own
inference from R51, for the phase): WRR of a legal value stores it and leaves every other configuration register alone:
an INT or Qn register takes the signed word, with the side effect of `SQL_WINDOW` and `SQL_STRIDE` only; a REAL
register takes the quantised Q0.32 fraction, with none. Two words are consumed. -/
def Obligations.WrrStoresLegalValue : Prop :=
  ∀ (s : State) (reg : Nat) (r : CfgReg) (data : Word), cfgRegOf reg = some r →
    (isReal r = false → legalInt r data.toInt = true →
      ∃ c : CfgRegs, getInt c r = data.toInt ∧ (∀ r', r' ≠ r → getInt c r' = getInt s.cfg r') ∧
        (∀ r', getReal c r' = getReal s.cfg r') ∧
        exec (.wrr reg data) s = .next { s with
          cp := s.cp + 2
          cfg := c
          sql := if r = .sqlWindow then { s.sql with windowLog2 := roundLog2 data.toNat }
                 else if r = .sqlStride then { s.sql with decimPhase := 2 * (s.sql.decimPhase % data.toNat / 2) }
                 else s.sql }) ∧
    (isReal r = true → legalReal r ((data.toNat : Rat) / 2 ^ 32) = true →
      ∃ c : CfgRegs, getReal c r = Config.params.qreal ((data.toNat : Rat) / 2 ^ 32) ∧
        (∀ r', r' ≠ r → getReal c r' = getReal s.cfg r') ∧ (∀ r', getInt c r' = getInt s.cfg r') ∧
        exec (.wrr reg data) s = .next { s with cp := s.cp + 2, cfg := c })

/-- R28, R284, R293 (and R52, the spec's own inference from R51): WRS of a legal value to an INT or Qn register
likewise, with the sign-extended immediate, consuming one word. -/
def Obligations.WrsStoresLegalInteger : Prop :=
  ∀ (s : State) (reg : Nat) (r : CfgReg) (imm : BitVec 16),
    cfgRegOf reg = some r → isReal r = false → legalInt r imm.toInt = true →
    ∃ c : CfgRegs, getInt c r = imm.toInt ∧ (∀ r', r' ≠ r → getInt c r' = getInt s.cfg r') ∧
      (∀ r', getReal c r' = getReal s.cfg r') ∧
      exec (.wrs reg imm) s = .next { s with
        cp := s.cp + 1
        cfg := c
        sql := if r = .sqlWindow then { s.sql with windowLog2 := roundLog2 imm.toNat }
               else if r = .sqlStride then { s.sql with decimPhase := 2 * (s.sql.decimPhase % imm.toNat / 2) }
               else s.sql }

/-- R313, R315: a WRR or WRS that is refused raises CFG_BADREG for a number above 0x27, else CFG_RANGE, with the
information of R311, changes no register but the four error registers, and consumes all its words. -/
def Obligations.RefusedWritesRaise : Prop :=
  (∀ (s : State) (reg : Nat) (data : Word), 0x27 < reg →
    exec (.wrr reg data) s = .next { s with cp := s.cp + 2, err := { s.err with
      code := 5, count := min (s.err.count + 1) (2 ^ 32 - 1), stage := 0x01, info := BitVec.ofNat 32 reg } }) ∧
  (∀ (s : State) (reg : Nat) (imm : BitVec 16), 0x27 < reg →
    exec (.wrs reg imm) s = .next { s with cp := s.cp + 1, err := { s.err with
      code := 5, count := min (s.err.count + 1) (2 ^ 32 - 1), stage := 0x02, info := BitVec.ofNat 32 reg } }) ∧
  (∀ (s : State) (reg : Nat) (r : CfgReg) (data : Word), cfgRegOf reg = some r →
    (if isReal r then legalReal r ((data.toNat : Rat) / 2 ^ 32) else legalInt r data.toInt) = false →
    exec (.wrr reg data) s = .next { s with cp := s.cp + 2, err := { s.err with
      code := 3, count := min (s.err.count + 1) (2 ^ 32 - 1), stage := 0x01, info := data } }) ∧
  (∀ (s : State) (reg : Nat) (r : CfgReg) (imm : BitVec 16), cfgRegOf reg = some r →
    isReal r = true ∨ legalInt r imm.toInt = false →
    exec (.wrs reg imm) s = .next { s with cp := s.cp + 1, err := { s.err with
      code := 3, count := min (s.err.count + 1) (2 ^ 32 - 1), stage := 0x02
      info := if isReal r then imm.setWidth 32 else imm.signExtend 32 } })

/-- R34: writing a legal `SQL_WINDOW` w sets `window_log2` to the p that minimises |2^p − w|, the larger p on a tie. -/
def Obligations.WindowLog2IsNearestPower : Prop :=
  ∀ (s : State) (data : Word), 1 ≤ data.toInt → data.toInt ≤ 65536 →
    ∃ t, exec (.wrr 0x23 data) s = .next t ∧ t.cfg.sqlWindow = data.toInt ∧
      ∀ p : Nat, p ≠ t.sql.windowLog2 →
        |(2 : Int) ^ t.sql.windowLog2 - data.toInt| ≤ |2 ^ p - data.toInt| ∧
        (|(2 : Int) ^ t.sql.windowLog2 - data.toInt| = |2 ^ p - data.toInt| → p < t.sql.windowLog2)

/-- R29, R46 to R54, R63 to R67, R74, R285: RST puts every register, register file and buffer in its power-on state and
leaves the four ports and CP's normal advance; the power-on state is the one given here, field by field. Only the knobs
R74 lists, and RRC_SPAN_SYMS (R33), have a default that the spec takes from its source (the gain of omega is a tenth of
the square of that of mu, R32); the other values are the spec's own decision (D41, log entry 9), the empty input ports and
the coding of `legacy_state` the model's (log entries 2 and 4). -/
def Obligations.RstRestoresPowerOn : Prop :=
  (∀ s : State, exec .rst s = .next { State.reset with
    cmds := s.cmds, cp := s.cp + 1, samples := s.samples, outPort := s.outPort, snapshots := s.snapshots }) ∧
  State.reset =
    { cmds := [], cp := 0, samples := [], outPort := [], snapshots := [], buf := [], out := []
      cfg := {
        sampleRateHz := 0, pathMode := 0, discMode := 0, downsamplePasses := 0, decimLegacy := 0,
        chlpfEnable := 0, chlpfProfile := 0, dcEnable := 0, dcBlockShift := 11, agcEnable := 0, agcTargetRms := 10000,
        agcMinRms := 0, agcAlphaUpQ15 := 0, agcAlphaDownQ15 := 0, limiterEnable := 0, iqbalEnable := 0,
        iqbalThrQ15 := 0, iqbalEmaQ15 := 0, fllEnable := 0, fllAlphaQ15 := 0, fllBetaQ15 := 0, fllDeadbandQ14 := 0,
        fllSlewMaxQ15 := 0, mfEnable := 0, cqpskRrcEnable := 0, rrcAlphaQ15 := 8192, rrcSpanSyms := 0, tedEnable := 0,
        tedForce := 0, tedSps := 10, tedGainMu := 1 / 40, tedGainOmega := 1 / 16000, tedOmegaRel := 1 / 500,
        tedLockThr := 2 / 5, sqlLevel := 0, sqlWindow := 1, sqlStride := 2, gateEnable := 0, gateAttackQ15 := 32768,
        gateReleaseQ15 := 32768 }
      err := { code := 0, count := 0, stage := 0, info := 0, blocksDone := 0 }
      fll := {
        freqQ15 := 0, phaseQ15 := 0, prevR := 0, prevJ := 0, acqLocked := false, acqQuietRuns := 0, fllErrQ14 := 0 }
      ted := {
        mu := 0, omega := 10, lastR := 0, lastJ := 0, eEma := 0, lockAccum := 0, lockCount := 0, dlIndex := 0,
        twiceSps := 20, sps := 10, fastAcqKicks := 0, tedSkip := 0, tedLocked := false }
      sql := { runningPower := 0, windowLog2 := 0, decimPhase := 0, gateOpen := false, envQ15 := 0 }
      cond := { gainQ15 := 32768, dcR := 0, dcJ := 0, iqEmaR := 0, iqEmaJ := 0, discPrevR := 0, discPrevJ := 0 }
      rrc := { keySps := 0, keyAlpha := 0, keySpan := 0, cacheValid := false }
      rrcTaps := []
      hbHist := List.replicate 30 (0, 0) :: List.replicate 7 (List.replicate 14 (0, 0))
      chlpfHistR := List.replicate 62 0, chlpfHistJ := List.replicate 62 0
      dl := [], legacyState := [] } ∧
  (∀ a, Memory.read State.reset.dl a = 0) ∧
  State.reset.cfg.tedGainOmega = 1 / 10 * State.reset.cfg.tedGainMu ^ 2

/-- R286, R289: FLLRST clears the seven FLL dynamic registers and ERRCLR clears ERR_CODE; each changes nothing else but
CP. -/
def Obligations.PartialResetsClearOnlyTheirRegisters : Prop :=
  (∀ s : State, exec .fllrst s = .next { s with cp := s.cp + 1, fll := ⟨0, 0, 0, 0, false, 0, 0⟩ }) ∧
  (∀ s : State, exec .errclr s = .next { s with cp := s.cp + 1, err := { s.err with code := 0 } })

/-! ### Block operations -/

/-- R287: a LOAD of a legal length at a legal rate moves the next L port words to BUF and empties OUT. -/
def Obligations.LoadFillsBuf : Prop :=
  ∀ (s : State) (len : Nat), len ≤ s.samples.length →
    s.cfg.sampleRateHz = 24000 ∨ s.cfg.sampleRateHz = 48000 ∨ s.cfg.sampleRateHz = 96000 →
    len % 2 = 0 → len ≤ Config.params.maxLen →
    exec (.load len) s = .next { s with
      cp := s.cp + 1
      samples := s.samples.drop len
      buf := (s.samples.take len).map BitVec.toInt
      out := [] }

/-- R287, R310, R312, R316, R317: a LOAD at an illegal rate, of odd length or of a length above `P_MAXLEN`, in this
priority, drops the words and raises; nothing else changes. -/
def Obligations.LoadRaisesInPriority : Prop :=
  ∀ (s : State) (len : Nat), len ≤ s.samples.length →
    let legal := s.cfg.sampleRateHz = 24000 ∨ s.cfg.sampleRateHz = 48000 ∨ s.cfg.sampleRateHz = 96000
    let raised := fun (code : Nat) (info : BitVec 32) => ({ s with
      cp := s.cp + 1
      samples := s.samples.drop len
      err := { s.err with
        code := code, count := min (s.err.count + 1) (2 ^ 32 - 1), stage := 0x11, info := info } } : State)
    (¬ legal → exec (.load len) s = .next (raised 2 (BitVec.ofInt 32 s.cfg.sampleRateHz))) ∧
    (legal → len % 2 = 1 → exec (.load len) s = .next (raised 1 (BitVec.ofNat 32 len))) ∧
    (legal → len % 2 = 0 → Config.params.maxLen < len → exec (.load len) s = .next (raised 6 (BitVec.ofNat 32 len)))

/-- R288: EMIT appends the record (`out_len`, OUT, `gate_open`, 0) to the output port and changes nothing else. -/
def Obligations.EmitSendsOut : Prop :=
  ∀ s : State, exec .emit s = .next { s with
    cp := s.cp + 1
    outPort := s.outPort ++ [{ len := s.out.length, data := s.out, gate := s.sql.gateOpen, exc := 0 }] }

/-- R83, R290: a BLK whose LOAD raises has the effect of that LOAD and sends the record (0, [], `gate_open`, ERR_CODE);
no stage runs and `BLOCKS_DONE` is not incremented. -/
def Obligations.BlkHaltedSendsEmptyRecord : Prop :=
  ∀ (s t : State) (len : Nat), len ≤ s.samples.length →
    ¬ ((s.cfg.sampleRateHz = 24000 ∨ s.cfg.sampleRateHz = 48000 ∨ s.cfg.sampleRateHz = 96000) ∧
      len % 2 = 0 ∧ len ≤ Config.params.maxLen) →
    exec (.load len) s = .next t →
    exec (.blk len) s = .next { t with
      outPort := s.outPort ++ [{ len := 0, data := [], gate := s.sql.gateOpen, exc := t.err.code }] }

/-- R290, R291: a BLK whose LOAD does not raise equals the command sequence `LOAD n`, the enabled stage commands in the
order of R291, `EMIT`, but for `BLOCKS_DONE`, which counts it, and CP, which moves by its one word. -/
def Obligations.BlkEqualsItsCommandSequence : Prop :=
  ∀ (s : State) (len : Nat), len ≤ s.samples.length →
    s.cfg.sampleRateHz = 24000 ∨ s.cfg.sampleRateHz = 48000 ∨ s.cfg.sampleRateHz = 96000 →
    len % 2 = 0 → len ≤ Config.params.maxLen →
    exec (.blk len) s =
      mapNext (fun u => { u with
        cp := s.cp + 1
        err := { s.err with blocksDone := min (s.err.blocksDone + 1) (2 ^ 32 - 1) } })
      (runInstrs (blkSequence s.cfg len) s)

/-- R290: at a legal rate, for an even length within `P_MAXLEN` whose words are there, with the squelch stride and
phase even, BLK completes: one normal record is sent, `BLOCKS_DONE` counts the block, and the configuration, the
command stream and the snapshots are as before. -/
def Obligations.BlkCompletes : Prop :=
  ∀ (s : State) (len : Nat), len ≤ s.samples.length →
    s.cfg.sampleRateHz = 24000 ∨ s.cfg.sampleRateHz = 48000 ∨ s.cfg.sampleRateHz = 96000 →
    len % 2 = 0 → len ≤ Config.params.maxLen → s.cfg.sqlStride % 2 = 0 → s.sql.decimPhase % 2 = 0 →
    ∃ t, exec (.blk len) s = .next t ∧ t.cp = s.cp + 1 ∧ t.samples = s.samples.drop len ∧
      t.outPort = s.outPort ++ [{ len := t.out.length, data := t.out, gate := t.sql.gateOpen, exc := 0 }] ∧
      t.err = { s.err with blocksDone := min (s.err.blocksDone + 1) (2 ^ 32 - 1) } ∧
      t.cfg = s.cfg ∧ t.cmds = s.cmds ∧ t.snapshots = s.snapshots

/-! ### Decimator and channel low-pass -/

/-- R141, R142: DECIMHB with N = 0 changes nothing but CP; when floor(M / 2^N) = 0 it leaves an empty block and changes
nothing else; otherwise it is the cascade of N filters, each over its own history and the sequence the one before it
gave, and the histories of stages from N on are not touched. -/
def Obligations.DecimhbIsFilterCascade : Prop :=
  ∀ (s : State) (n : Nat), s.cfg.downsamplePasses = n → n ≤ s.hbHist.length →
    (n = 0 → exec .decimhb s = .next { s with cp := s.cp + 1 }) ∧
    (n ≠ 0 → s.buf.length / 2 / 2 ^ n = 0 → exec .decimhb s = .next { s with cp := s.cp + 1, buf := [] }) ∧
    (n ≠ 0 → s.buf.length / 2 / 2 ^ n ≠ 0 →
      ∃ (x : Nat → List Cplx) (h : List (List Cplx)),
        x 0 = (List.range (s.buf.length / 2)).map (fun i => (elemI s.buf i, elemQ s.buf i)) ∧
        h.length = s.hbHist.length ∧
        (∀ k, n ≤ k → h.getD k [] = s.hbHist.getD k []) ∧
        (∀ k, k < n →
          let taps := if k = 0 then Config.params.hb31 else Config.params.hb15
          let xe := s.hbHist.getD k [] ++ x k
          h.getD k [] = xe.drop (xe.length - (taps.length - 1)) ∧
          (x (k + 1)).length = (x k).length / 2 ∧
          ∀ m, m < (x k).length / 2 →
            (x (k + 1)).getD m (0, 0) =
              (sat16 (rsh (∑ j ∈ Finset.range taps.length,
                  taps.getD j 0 * (xe.getD (taps.length - 1 + 2 * m - j) (0, 0)).1) 15),
               sat16 (rsh (∑ j ∈ Finset.range taps.length,
                  taps.getD j 0 * (xe.getD (taps.length - 1 + 2 * m - j) (0, 0)).2) 15))) ∧
        exec .decimhb s = .next { s with cp := s.cp + 1, buf := interleave (x n), hbHist := h })

/-- R144: DECIMLEG with N = 0 changes nothing but CP; when floor(M / 2^N) = 0 it leaves an empty block and changes
nothing else; otherwise it is the uninterpreted function applied to its own state, the block and N, whose block has the
required length and range, and it changes nothing else. -/
def Obligations.DecimlegAppliesLegacyFunction : Prop :=
  ∀ (s : State) (n : Nat), s.cfg.downsamplePasses = n →
    (n = 0 → exec .decimleg s = .next { s with cp := s.cp + 1 }) ∧
    (n ≠ 0 → s.buf.length / 2 / 2 ^ n = 0 → exec .decimleg s = .next { s with cp := s.cp + 1, buf := [] }) ∧
    (n ≠ 0 → s.buf.length / 2 / 2 ^ n ≠ 0 →
      let r := Config.params.legacyDecim s.legacyState s.buf n
      r.2.length = 2 * (s.buf.length / 2 / 2 ^ n) ∧ (∀ v ∈ r.2, IsInt16 v) ∧
      exec .decimleg s = .next { s with cp := s.cp + 1, buf := r.2, legacyState := r.1 })

/-- R141 (and R147 (a), the spec's own inference from it): both decimators complete and leave `lp_len` = 2·floor(M /
2^N), which is L / 2^N when 2^(N+1) divides L. -/
def Obligations.DecimatorsDivideLength : Prop :=
  ∀ (s : State) (n : Nat), s.cfg.downsamplePasses = n → s.buf.length % 2 = 0 →
    (∃ t, exec .decimhb s = .next t ∧ t.buf.length = 2 * (s.buf.length / 2 / 2 ^ n) ∧
      (2 ^ (n + 1) ∣ s.buf.length → t.buf.length = s.buf.length / 2 ^ n)) ∧
    (∃ t, exec .decimleg s = .next t ∧ t.buf.length = 2 * (s.buf.length / 2 / 2 ^ n) ∧
      (2 ^ (n + 1) ∣ s.buf.length → t.buf.length = s.buf.length / 2 ^ n))

/-- R145, R146: CHLPF is the 63-tap streaming filter of the selected profile on each component, keeps the length and
the last 62 samples of each component, and changes nothing else; an empty block changes only CP. -/
def Obligations.ChlpfIsStreamingFilter : Prop :=
  ∀ s : State,
    let m := s.buf.length / 2
    let h := if s.cfg.chlpfProfile = 0 then Config.params.chlpfWide else Config.params.chlpfDigital
    let xeR := s.chlpfHistR ++ (List.range m).map (elemI s.buf)
    let xeJ := s.chlpfHistJ ++ (List.range m).map (elemQ s.buf)
    (m = 0 → exec .chlpf s = .next { s with cp := s.cp + 1 }) ∧
    (m ≠ 0 → ∃ b : List Int, SameShape s.buf b ∧
      (∀ n, n < m →
        elemI b n = sat16 (rsh (∑ k ∈ Finset.range 63, h.getD k 0 * xeR.getD (62 + n - k) 0) 15) ∧
        elemQ b n = sat16 (rsh (∑ k ∈ Finset.range 63, h.getD k 0 * xeJ.getD (62 + n - k) 0) 15)) ∧
      exec .chlpf s = .next { s with
        cp := s.cp + 1
        buf := b
        chlpfHistR := xeR.drop (xeR.length - 62)
        chlpfHistJ := xeJ.drop (xeJ.length - 62) })

/-- R146: a constant input held through the history and the block comes out exactly, for either profile. -/
def Obligations.ChlpfPassesConstant : Prop :=
  ∀ (s : State) (vr vj : Int), IsInt16 vr → IsInt16 vj → s.chlpfHistR = List.replicate 62 vr →
    s.chlpfHistJ = List.replicate 62 vj → (∀ n, n < s.buf.length / 2 → elemI s.buf n = vr ∧ elemQ s.buf n = vj) →
    exec .chlpf s = .next { s with cp := s.cp + 1 }

/-! ### Conditioner -/

/-- R161: DCBLK updates each estimate by the rounded shift of its distance to the sample, then subtracts it; the
estimates after the last sample are kept and nothing else changes. -/
def Obligations.DcblkSubtractsRunningEstimate : Prop :=
  ∀ s : State, ∃ (dr dj : Nat → Int) (b : List Int),
    let m := s.buf.length / 2
    let k := s.cfg.dcBlockShift.toNat
    dr 0 = s.cond.dcR ∧ dj 0 = s.cond.dcJ ∧
    (∀ n, n < m → dr (n + 1) = dr n + rsh (elemI s.buf n - dr n) k ∧ dj (n + 1) = dj n + rsh (elemQ s.buf n - dj n) k) ∧
    SameShape s.buf b ∧
    (∀ n, n < m → elemI b n = sat16 (elemI s.buf n - dr (n + 1)) ∧ elemQ b n = sat16 (elemQ s.buf n - dj (n + 1))) ∧
    exec .dcblk s = .next { s with cp := s.cp + 1, buf := b, cond := { s.cond with dcR := dr m, dcJ := dj m } }

/-- R163: AGC with the block RMS `rms` moves the gain toward the clamped target by the selected coefficient, or holds
it below `AGC_MIN_RMS`, and scales every element by the gain after the update; an empty block changes only CP. -/
def Obligations.AgcScalesByUpdatedGain : Prop :=
  ∀ s : State,
    let m := s.buf.length / 2
    (m = 0 → exec .agc s = .next { s with cp := s.cp + 1 }) ∧
    (m ≠ 0 → ∃ rms : Nat,
      (rms : Int) ^ 2 ≤ (∑ n ∈ Finset.range m, (elemI s.buf n ^ 2 + elemQ s.buf n ^ 2)) / (m : Int) ∧
      (∑ n ∈ Finset.range m, (elemI s.buf n ^ 2 + elemQ s.buf n ^ 2)) / (m : Int) < ((rms : Int) + 1) ^ 2 ∧
      let d := rnd (clampRat ((s.cfg.agcTargetRms : Rat) / (rms : Rat)) (1 / 8) 8 * 32768) - s.cond.gainQ15
      let a := if 0 < d then s.cfg.agcAlphaUpQ15 else s.cfg.agcAlphaDownQ15
      let g := if max s.cfg.agcMinRms 1 ≤ (rms : Int) then clampInt (s.cond.gainQ15 + rsh (a * d) 15) 1024 262144
               else s.cond.gainQ15
      exec .agc s = .next { s with
        cp := s.cp + 1
        buf := s.buf.map fun v => sat16 (rsh (v * g) 15)
        cond := { s.cond with gainQ15 := g } })

/-- R166: LIMIT leaves a sample inside the inclusive tolerance, and a zero sample, as it is, and rescales any other by
the target over the integer square root of its power; nothing but BUF changes. -/
def Obligations.LimitRescalesOutsideTolerance : Prop :=
  ∀ s : State, ∃ b : List Int, SameShape s.buf b ∧
    (∀ n, n < s.buf.length / 2 →
      let i := elemI s.buf n
      let q := elemQ s.buf n
      let p := i * i + q * q
      let t := s.cfg.agcTargetRms
      (t * t ≤ 4 * p → p ≤ 4 * t * t → elemI b n = i ∧ elemQ b n = q) ∧
      (p = 0 → elemI b n = 0 ∧ elemQ b n = 0) ∧
      (4 * p < t * t ∨ 4 * t * t < p → p ≠ 0 → ∀ m : Nat, (m : Int) ^ 2 ≤ p → p < ((m : Int) + 1) ^ 2 →
        elemI b n = sat16 (rnd ((i : Rat) * t / m)) ∧ elemQ b n = sat16 (rnd ((q : Rat) * t / m)))) ∧
    exec .limit s = .next { s with cp := s.cp + 1, buf := b }

/-- R168: IQBAL moves each component of the coefficient toward the block estimate when the block has power, and applies
y = z − α·conj(z) when |α| reaches the threshold; nothing else changes. -/
def Obligations.IqbalEstimatesThenCorrects : Prop :=
  ∀ s : State,
    let m := s.buf.length / 2
    let ar := ∑ n ∈ Finset.range m, (elemI s.buf n ^ 2 - elemQ s.buf n ^ 2)
    let aj := ∑ n ∈ Finset.range m, 2 * elemI s.buf n * elemQ s.buf n
    let p := ∑ n ∈ Finset.range m, (elemI s.buf n ^ 2 + elemQ s.buf n ^ 2)
    let er := if 0 < p then
        s.cond.iqEmaR + rsh (s.cfg.iqbalEmaQ15 * (rnd ((32768 * ar : Int) / (p : Rat)) - s.cond.iqEmaR)) 15
      else s.cond.iqEmaR
    let ej := if 0 < p then
        s.cond.iqEmaJ + rsh (s.cfg.iqbalEmaQ15 * (rnd ((32768 * aj : Int) / (p : Rat)) - s.cond.iqEmaJ)) 15
      else s.cond.iqEmaJ
    ∃ b : List Int, SameShape s.buf b ∧
      (er ^ 2 + ej ^ 2 < s.cfg.iqbalThrQ15 ^ 2 → b = s.buf) ∧
      (s.cfg.iqbalThrQ15 ^ 2 ≤ er ^ 2 + ej ^ 2 → ∀ n, n < m →
        elemI b n = sat16 (elemI s.buf n - rsh (er * elemI s.buf n + ej * elemQ s.buf n) 15) ∧
        elemQ b n = sat16 (elemQ s.buf n - rsh (ej * elemI s.buf n - er * elemQ s.buf n) 15)) ∧
      exec .iqbal s = .next { s with cp := s.cp + 1, buf := b, cond := { s.cond with iqEmaR := er, iqEmaJ := ej } }

/-- R11: `isqrt` is the integer square root; `rsh` by 0 is the identity; `rsh` and `rnd` are odd functions that round to
nearest, ties away from zero; `clamp`, `sat16`, `sat32` and the clearing of bit 0 are as defined there. -/
def Obligations.RoundingPrimitivesMeetTheirDefinitions : Prop :=
  (∀ n : Nat, isqrt n * isqrt n ≤ n ∧ n < (isqrt n + 1) * (isqrt n + 1)) ∧
  (∀ v : Int, rsh v 0 = v) ∧
  (∀ (v : Int) (k : Nat), rsh (-v) k = -rsh v k) ∧
  (∀ (v : Int) (k : Nat), 0 ≤ v → 1 ≤ k → 2 ^ k * rsh v k ≤ v + 2 ^ (k - 1) ∧ v + 2 ^ (k - 1) < 2 ^ k * (rsh v k + 1)) ∧
  (∀ q : Rat, rnd (-q) = -rnd q) ∧
  (∀ q : Rat, 0 ≤ q → (rnd q : Rat) ≤ q + 1 / 2 ∧ q + 1 / 2 < (rnd q : Rat) + 1) ∧
  (∀ v lo hi : Int, clampInt v lo hi = min (max v lo) hi) ∧
  (∀ v lo hi : Rat, clampRat v lo hi = min (max v lo) hi) ∧
  (∀ v : Int, sat16 v = min (max v (-32768)) 32767) ∧
  (∀ v : Int, sat32 v = min (max v (-2 ^ 31)) (2 ^ 31 - 1)) ∧
  (∀ x : Nat, clearBit0 x = x - x % 2)

/-! ### Carrier recovery -/

/-- R182, R184, R185, R186: FLLDD on a block that is not empty rotates it by the NCO, takes the rounded mean of the
phase steps of the rotated block as the error, and updates frequency and phase with deadband and slew clamp; the latch
is not touched and nothing else changes. An empty block changes only CP. -/
def Obligations.FllddRotatesEstimatesUpdates : Prop :=
  ∀ s : State,
    let m := s.buf.length / 2
    (m = 0 → exec .flldd s = .next { s with cp := s.cp + 1 }) ∧
    (m ≠ 0 → ∃ (ph : Nat → Int) (y : Nat → Cplx) (b : List Int),
      ph 0 = s.fll.phaseQ15 ∧ (∀ n, n < m → ph (n + 1) = (ph n + s.fll.freqQ15) % 32768) ∧
      (∀ n, n < m →
        let cs := Config.params.ncoCs (ph n)
        y n = (sat16 (rsh (elemI s.buf n * cs.1 + elemQ s.buf n * cs.2) 15),
               sat16 (rsh (elemQ s.buf n * cs.1 - elemI s.buf n * cs.2) 15)) ∧
        elemI b n = (y n).1 ∧ elemQ b n = (y n).2) ∧
      SameShape s.buf b ∧
      let prev := fun n => if n = 0 then (s.fll.prevR, s.fll.prevJ) else y (n - 1)
      let raw := rnd ((∑ n ∈ Finset.range m, Config.params.atan2
        ((y n).2 * (prev n).1 - (y n).1 * (prev n).2) ((y n).1 * (prev n).1 + (y n).2 * (prev n).2) : Int) / (m : Rat))
      let err := if |raw| ≤ s.cfg.fllDeadbandQ14 then 0 else raw
      exec .flldd s = .next { s with
        cp := s.cp + 1
        buf := b
        fll := { s.fll with
          freqQ15 := sat32 (s.fll.freqQ15 +
            clampInt (rsh (s.cfg.fllBetaQ15 * err) 15) (-s.cfg.fllSlewMaxQ15) s.cfg.fllSlewMaxQ15)
          phaseQ15 := (ph m + rsh (s.cfg.fllAlphaQ15 * err) 15) % 32768
          prevR := (y (m - 1)).1
          prevJ := (y (m - 1)).2
          fllErrQ14 := err } })

/-- R182, R184, R187, R188, R190: FLLBE rotates like FLLDD; while unlocked it takes the band-edge estimate of the
rotated block, updates, and counts quiet updates towards the latch; while locked only phase and previous sample move.
An empty block changes only CP. -/
def Obligations.FllbeRotatesAndLatches : Prop :=
  ∀ s : State,
    let m := s.buf.length / 2
    (m = 0 → exec .fllbe s = .next { s with cp := s.cp + 1 }) ∧
    (m ≠ 0 → ∃ (ph : Nat → Int) (y : Nat → Cplx) (b : List Int),
      ph 0 = s.fll.phaseQ15 ∧ (∀ n, n < m → ph (n + 1) = (ph n + s.fll.freqQ15) % 32768) ∧
      (∀ n, n < m →
        let cs := Config.params.ncoCs (ph n)
        y n = (sat16 (rsh (elemI s.buf n * cs.1 + elemQ s.buf n * cs.2) 15),
               sat16 (rsh (elemQ s.buf n * cs.1 - elemI s.buf n * cs.2) 15)) ∧
        elemI b n = (y n).1 ∧ elemQ b n = (y n).2) ∧
      SameShape s.buf b ∧
      let raw := Config.params.beDetect ((List.range m).map y) s.cfg.tedSps (s.fll.prevR, s.fll.prevJ)
      let err := if |raw| ≤ s.cfg.fllDeadbandQ14 then 0 else raw
      let freq := sat32 (s.fll.freqQ15 +
        clampInt (rsh (s.cfg.fllBetaQ15 * err) 15) (-s.cfg.fllSlewMaxQ15) s.cfg.fllSlewMaxQ15)
      let runs := if |freq| ≤ (Config.params.lockFreqThr : Int) then min (s.fll.acqQuietRuns + 1) (2 ^ 32 - 1) else 0
      exec .fllbe s = .next { s with
        cp := s.cp + 1
        buf := b
        fll := if s.fll.acqLocked = true then
            { s.fll with phaseQ15 := ph m, prevR := (y (m - 1)).1, prevJ := (y (m - 1)).2 }
          else
            { freqQ15 := freq
              phaseQ15 := (ph m + rsh (s.cfg.fllAlphaQ15 * err) 15) % 32768
              prevR := (y (m - 1)).1
              prevJ := (y (m - 1)).2
              acqLocked := decide (Config.params.lockBlocks ≤ runs)
              acqQuietRuns := runs
              fllErrQ14 := err } })

/-- The slew law of R184, which the spec infers as R191 (a): no FLL operation moves the frequency by more than the slew
bound, from a frequency in its 32-bit range. -/
def Obligations.FllSlewIsBounded : Prop :=
  ∀ (s t : State), 0 ≤ s.cfg.fllSlewMaxQ15 → -2 ^ 31 ≤ s.fll.freqQ15 → s.fll.freqQ15 ≤ 2 ^ 31 - 1 →
    exec .flldd s = .next t ∨ exec .fllbe s = .next t →
    |t.fll.freqQ15 - s.fll.freqQ15| ≤ s.cfg.fllSlewMaxQ15

/-- R190 (and R191 (d), the spec's own inference from it): once set, the acquisition latch is cleared by FLLRST and RST
alone. -/
def Obligations.AcquisitionLatchHoldsUntilReset : Prop :=
  ∀ s t : State, step s = .next t → s.fll.acqLocked = true →
    t.fll.acqLocked = true ∨ fetch s = .ok .fllrst ∨ fetch s = .ok .rst

/-! ### Matched filters -/

/-- R101, R201, R202: MF5 is the block-local 5-tap filter with the block's edge samples repeated outside it; nothing
but BUF changes. -/
def Obligations.Mf5IsBlockLocalFilter : Prop :=
  ∀ s : State, ∃ b : List Int,
    let m := s.buf.length / 2
    let at' := fun (n k : Nat) => (clampInt ((n : Int) + k - 2) 0 ((m : Int) - 1)).toNat
    SameShape s.buf b ∧
    (∀ n, n < m →
      elemI b n = sat16 (rsh (∑ k ∈ Finset.range 5, Config.params.mf5.getD k 0 * elemI s.buf (at' n k)) 15) ∧
      elemQ b n = sat16 (rsh (∑ k ∈ Finset.range 5, Config.params.mf5.getD k 0 * elemQ s.buf (at' n k)) 15)) ∧
    exec .mf5 s = .next { s with cp := s.cp + 1, buf := b }

/-- R203, R204, R206: RRC redesigns the taps and rewrites the cache registers when the cache is invalid or its key
differs from the registers, else leaves them, and then is the block-local filter with those taps; nothing else changes. -/
def Obligations.RrcDesignsThenFilters : Prop :=
  ∀ s : State, ∃ b : List Int,
    let m := s.buf.length / 2
    let sps := s.cfg.tedSps
    let span := s.cfg.rrcSpanSyms
    let stale := s.rrc.cacheValid = false ∨ s.rrc.keySps ≠ sps ∨ s.rrc.keyAlpha ≠ s.cfg.rrcAlphaQ15 ∨ s.rrc.keySpan ≠ span
    let nt := if span = 0 then (11 * sps + 1).toNat else (2 * span * sps + 1).toNat
    ∃ taps : List Int,
      (stale → taps = Config.params.rrcDesign sps s.cfg.rrcAlphaQ15 (if nt % 2 = 0 then nt + 1 else nt)) ∧
      (¬ stale → taps = s.rrcTaps) ∧
      SameShape s.buf b ∧
      (∀ n, n < m →
        let at' := fun k : Nat => (clampInt ((n : Int) + k - ((taps.length - 1) / 2 : Nat)) 0 ((m : Int) - 1)).toNat
        elemI b n = sat16 (rsh (∑ k ∈ Finset.range taps.length, taps.getD k 0 * elemI s.buf (at' k)) 15) ∧
        elemQ b n = sat16 (rsh (∑ k ∈ Finset.range taps.length, taps.getD k 0 * elemQ s.buf (at' k)) 15)) ∧
      exec .rrc s = .next { s with
        cp := s.cp + 1, buf := b, rrcTaps := taps, rrc := ⟨sps, s.cfg.rrcAlphaQ15, span, true⟩ }

/-- The spec's own inference R207 (b) from R203 and R205: RRC reproduces a constant block exactly, edges included, in
every state whose cache is as operations leave it. -/
def Obligations.RrcPassesConstantBlock : Prop :=
  ∀ (s t : State) (vr vj : Int), IsInt16 vr → IsInt16 vj → RrcOk s.rrc s.rrcTaps →
    (∀ n, n < s.buf.length / 2 → elemI s.buf n = vr ∧ elemQ s.buf n = vj) →
    exec .rrc s = .next t → t.buf = s.buf

/-! ### Timing recovery -/

/-- R65 and the push order (R100 and R218, which the spec marks as its own inferences from it): the delay line reads
back the most recent pushes in order: after pushing `xs` from any line in its canonical form and any legal index, the
sample of age a < min(D, number pushed) is the a-th from the end of `xs`. -/
def Obligations.DelayLineHoldsRecentSamples : Prop :=
  ∀ (l : TedLoop) (xs : List Cplx) (a : Nat), Memory.wf l.dl = true → l.regs.dlIndex < Config.params.tedDlSize →
    a < Config.params.tedDlSize → a < xs.length →
    let l' := xs.foldl (fun l x => tedPush Config.params x l) l
    age Config.params l'.regs.dlIndex l'.dl (a : Int) = xs.getD (xs.length - 1 - a) (0, 0)

/-- R219: the MMSE interpolator blends rows p and p + 1 of the bank over the eight samples n+m−3 .. n+m+4. -/
def Obligations.MmseBlendsAdjacentRows : Prop :=
  ∀ (l : TedLoop) (m : Int) (f : Rat) (p : Nat), 0 ≤ f → f < 1 →
    (p : Rat) ≤ f * Config.params.mmseK → f * Config.params.mmseK < (p : Rat) + 1 →
    let g := f * Config.params.mmseK - (p : Rat)
    let w := fun t : Nat => age Config.params l.regs.dlIndex l.dl (7 - m - (t : Int))
    let row := fun r t : Nat => (Config.params.mmse.getD r []).getD t 0
    interpMmse Config.params l m f =
      ((1 - g) * (∑ t ∈ Finset.range 8, row p t * ((w t).1 : Rat)) +
          g * (∑ t ∈ Finset.range 8, row (p + 1) t * ((w t).1 : Rat)),
       (1 - g) * (∑ t ∈ Finset.range 8, row p t * ((w t).2 : Rat)) +
          g * (∑ t ∈ Finset.range 8, row (p + 1) t * ((w t).2 : Rat)))

/-- R220: at every fraction the cubic Lagrange interpolation through the samples n+m−1 to n+m+2, of ages 5−m to 2−m;
the coefficients sum to 1, and at the fraction 0 the value is the sample n + m. -/
def Obligations.FarrowIsCubicThroughSamples : Prop :=
  ∀ (l : TedLoop) (m : Int) (f : Rat),
    let basis := fun i : Int => ∏ j ∈ (Finset.Icc (-1 : Int) 2).erase i, (f - (j : Rat)) / ((i : Rat) - (j : Rat))
    let smp := fun i : Int => age Config.params l.regs.dlIndex l.dl (4 - m - i)
    interpFarrow Config.params l m f =
      (∑ i ∈ Finset.Icc (-1 : Int) 2, basis i * ((smp i).1 : Rat),
       ∑ i ∈ Finset.Icc (-1 : Int) 2, basis i * ((smp i).2 : Rat)) ∧
    (farrowTaps f).sum = 1 ∧
    interpFarrow Config.params l m 0 = (((smp 0).1 : Rat), ((smp 0).2 : Rat))

/-- R12, R221, R222, R223, R231, R232, R234: the registers after a strobe with on-symbol value `cur` and mid-sample `mid`.
That the quantiser acts on what each register stores, the stored 0 included, and on no local value is the model's reading
(log entry 5). -/
def Obligations.StrobeUpdatesLoop : Prop :=
  ∀ (c : CfgRegs) (cur mid : RCplx) (r : TedRegs),
    let P := Config.params
    let e := clampRat (((r.lastR - cur.1) * mid.1 + (r.lastJ - cur.2) * mid.2) / 2 ^ 30) (-1) 1
    let omega := P.qreal (clampRat (r.omega + c.tedGainOmega * e)
      ((r.sps : Rat) * (1 - c.tedOmegaRel)) ((r.sps : Rat) * (1 + c.tedOmegaRel)))
    let next := r.mu + omega + c.tedGainMu * e
    let mu := P.qreal (Int.fract next)
    let ema := P.qreal (r.eEma + P.tedEmaAlpha * (e - r.eEma))
    let pc := cur.1 ^ 2 + cur.2 ^ 2
    let pm := mid.1 ^ 2 + mid.2 ^ 2
    let accum := P.qreal (r.lockAccum + if pc + pm = 0 then 0 else (pc - pm) / (pc + pm))
    let full := P.tedLockWindow ≤ r.lockCount + 1
    let k := P.tedKick mu omega e ema
    strobeRegs P c cur mid r =
      { mu := if 0 < r.fastAcqKicks then P.qreal k.1 else mu
        omega := if 0 < r.fastAcqKicks then P.qreal k.2 else omega
        lastR := P.qreal cur.1
        lastJ := P.qreal cur.2
        eEma := ema
        lockAccum := if full then P.qreal 0 else accum
        lockCount := if full then 0 else r.lockCount + 1
        dlIndex := r.dlIndex
        twiceSps := r.twiceSps
        sps := r.sps
        fastAcqKicks := r.fastAcqKicks - 1
        tedSkip := ⌊next⌋.toNat
        tedLocked := if full then decide (c.tedLockThr < accum / ((r.lockCount + 1 : Nat) : Rat)) else r.tedLocked }

/-- R12, R222, R223, R232 (the invariant R233, which the spec marks as its own inference, with the contracts of log
entry 5): a strobe from registers in range leaves omega inside its clamp, mu in [0, 1), e_ema in [-1, 1] and an advance
of 1 to 26 samples. -/
def Obligations.StrobeKeepsLoopInRange : Prop :=
  ∀ (c : CfgRegs) (cur mid : RCplx) (r : TedRegs), CfgOk c → TedOk r →
    let r' := strobeRegs Config.params c cur mid r
    Config.InClamp r.sps c.tedOmegaRel r'.omega ∧ 0 ≤ r'.mu ∧ r'.mu < 1 ∧ -1 ≤ r'.eEma ∧ r'.eEma ≤ 1 ∧
      1 ≤ r'.tedSkip ∧ r'.tedSkip ≤ 26

/-- R12, R216, R217, R234, R235 (with log entry 5 for the quantised values the check and the strobe store): TEDM checks
the samples per symbol, then takes the samples one by one: push, count down, and at a count of 0 a strobe whose
on-symbol value is one output sample; nothing but BUF, the TED registers and the delay line changes. -/
def Obligations.TedmEmitsOneSamplePerStrobe : Prop :=
  ∀ s : State, ∃ (l : Nat → TedLoop) (y : Nat → List Cplx),
    let P := Config.params
    let m := s.buf.length / 2
    (s.cfg.tedSps = s.ted.sps → l 0 = ⟨s.ted, s.dl⟩) ∧
    (s.cfg.tedSps ≠ s.ted.sps → l 0 = ⟨{ s.ted with
      sps := s.cfg.tedSps, twiceSps := 2 * s.cfg.tedSps, omega := P.qreal s.cfg.tedSps, mu := P.qreal 0, tedSkip := 0,
      lastR := P.qreal 0, lastJ := P.qreal 0, eEma := P.qreal 0, lockAccum := P.qreal 0, lockCount := 0,
      tedLocked := false, fastAcqKicks := P.tedFastKicks }, s.dl⟩) ∧
    (∀ n, n < m →
      let p := tedPush P (elemI s.buf n, elemQ s.buf n) (l n)
      let q : TedLoop := ⟨{ p.regs with tedSkip := 0 }, p.dl⟩
      let d := p.regs.mu - p.regs.omega / 2
      let cur := interpMmse P q 0 p.regs.mu
      (1 < p.regs.tedSkip → l (n + 1) = ⟨{ p.regs with tedSkip := p.regs.tedSkip - 1 }, p.dl⟩ ∧ y n = []) ∧
      (p.regs.tedSkip ≤ 1 →
        l (n + 1) = ⟨strobeRegs P s.cfg cur (interpMmse P q ⌊d⌋ (Int.fract d)) q.regs, p.dl⟩ ∧
        y n = [(sat16 (rnd cur.1), sat16 (rnd cur.2))])) ∧
    exec .tedm s = .next { s with
      cp := s.cp + 1
      buf := interleave ((List.range m).flatMap y)
      ted := (l m).regs
      dl := (l m).dl }

/-- R12, R216, R217, R234, R236 (with log entry 5 for the quantised values the check and the strobe store): TEDF checks
the samples per symbol, then for each sample pushes it, outputs the cubic between the samples of age 2 and 1 at the
present mu, counts down, and strobes at a count of 0; `lp_len` is unchanged and nothing but BUF, the TED registers and
the delay line changes. -/
def Obligations.TedfResamplesEverySample : Prop :=
  ∀ s : State, ∃ (l : Nat → TedLoop) (b : List Int),
    let P := Config.params
    let m := s.buf.length / 2
    (s.cfg.tedSps = s.ted.sps → l 0 = ⟨s.ted, s.dl⟩) ∧
    (s.cfg.tedSps ≠ s.ted.sps → l 0 = ⟨{ s.ted with
      sps := s.cfg.tedSps, twiceSps := 2 * s.cfg.tedSps, omega := P.qreal s.cfg.tedSps, mu := P.qreal 0, tedSkip := 0,
      lastR := P.qreal 0, lastJ := P.qreal 0, eEma := P.qreal 0, lockAccum := P.qreal 0, lockCount := 0,
      tedLocked := false, fastAcqKicks := P.tedFastKicks }, s.dl⟩) ∧
    SameShape s.buf b ∧
    (∀ n, n < m →
      let p := tedPush P (elemI s.buf n, elemQ s.buf n) (l n)
      let q : TedLoop := ⟨{ p.regs with tedSkip := 0 }, p.dl⟩
      let d := p.regs.mu - p.regs.omega / 2
      let v := interpFarrow P p 2 p.regs.mu
      elemI b n = sat16 (rnd v.1) ∧ elemQ b n = sat16 (rnd v.2) ∧
      (1 < p.regs.tedSkip → l (n + 1) = ⟨{ p.regs with tedSkip := p.regs.tedSkip - 1 }, p.dl⟩) ∧
      (p.regs.tedSkip ≤ 1 →
        l (n + 1) = ⟨strobeRegs P s.cfg (interpFarrow P q 0 p.regs.mu) (interpFarrow P q ⌊d⌋ (Int.fract d)) q.regs,
          p.dl⟩)) ∧
    exec .tedf s = .next { s with cp := s.cp + 1, buf := b, ted := (l m).regs, dl := (l m).dl }

/-! ### Squelch and gate -/

/-- R251, R253, R254: SQLM takes the floored mean of the pair power over the grid phase, phase + S, ... below `lp_len`,
moves the running power by its rounded shift when there is a grid point, advances the phase, and decides the gate; nothing
else changes. The phase advance is the model's choice between two rules that disagree (DESIGN CHOICE, log entry 15): it is
the formula of R251, and not the continuous grid R252 claims for it. -/
def Obligations.SqlmMeasuresGridPower : Prop :=
  ∀ (s : State) (stride : Nat), s.cfg.sqlStride = stride → 2 ≤ stride → stride % 2 = 0 → s.sql.decimPhase % 2 = 0 →
    s.buf.length % 2 = 0 →
    let grid := (Finset.range s.buf.length).filter fun j => s.sql.decimPhase ≤ j ∧ stride ∣ j - s.sql.decimPhase
    let mean := (∑ j ∈ grid, (s.buf.getD j 0 ^ 2 + s.buf.getD (j + 1) 0 ^ 2)) / (grid.card : Int)
    let power := if grid.card = 0 then s.sql.runningPower
      else s.sql.runningPower + rsh (mean - s.sql.runningPower) s.sql.windowLog2
    exec .sqlm s = .next { s with
      cp := s.cp + 1
      sql := { s.sql with
        runningPower := power
        decimPhase := (s.sql.decimPhase + 2 * (s.buf.length % stride / 2)) % stride
        gateOpen := decide (2 * s.cfg.sqlLevel ≤ power) } }

/-- R21 and spec/93_implementation_defined.md U12, read as in log entry 7: a SQLM whose grid would read an element at
an index ≥ `lp_len`, and only such a one, is a fault of the model. -/
def Obligations.SqlmFaultsOnlyBeyondValid : Prop :=
  ∀ (s : State) (r : Fault), 0 < s.cfg.sqlStride →
    (exec .sqlm s = .fault r ↔ ∃ k : Nat, s.sql.decimPhase + k * s.cfg.sqlStride.toNat + 1 = s.buf.length)

/-- R256: GATE moves the envelope once per output element, toward 32768 when the gate is open and toward 0 when it is
closed, and scales the element by it; nothing else changes. -/
def Obligations.GateScalesByMovingEnvelope : Prop :=
  ∀ s : State, ∃ (env : Nat → Int) (o : List Int),
    let tgt : Int := if s.sql.gateOpen = true then 32768 else 0
    let a := if s.sql.gateOpen = true then s.cfg.gateAttackQ15 else s.cfg.gateReleaseQ15
    env 0 = s.sql.envQ15 ∧ o.length = s.out.length ∧
    (∀ n, n < s.out.length →
      env (n + 1) = env n + rsh (a * (tgt - env n)) 15 ∧ o.getD n 0 = sat16 (rsh (s.out.getD n 0 * env (n + 1)) 15)) ∧
    exec .gate s = .next { s with cp := s.cp + 1, out := o, sql := { s.sql with envQ15 := env s.out.length } }

/-! ### Discriminators -/

/-- R267, R268: DISCFM and DISCDQ put into OUT the arctangent of each sample against the one before it, the first
against `disc_prev`, keep the last sample, and change nothing else; BUF stays. -/
def Obligations.DiscriminatorsGivePhaseSteps : Prop :=
  ∀ s : State, ∃ o : List Int,
    let m := s.buf.length / 2
    let z := fun n : Nat => if n = 0 then (s.cond.discPrevR, s.cond.discPrevJ) else (elemI s.buf (n - 1), elemQ s.buf (n - 1))
    o.length = m ∧
    (∀ n, n < m → o.getD n 0 = sat16 (Config.params.atan2
      ((z (n + 1)).2 * (z n).1 - (z (n + 1)).1 * (z n).2) ((z (n + 1)).1 * (z n).1 + (z (n + 1)).2 * (z n).2))) ∧
    exec .discfm s = .next { s with
      cp := s.cp + 1, out := o, cond := { s.cond with discPrevR := (z m).1, discPrevJ := (z m).2 } } ∧
    exec .discdq s = .next { s with
      cp := s.cp + 1, out := o, cond := { s.cond with discPrevR := (z m).1, discPrevJ := (z m).2 } }

/-- R269: DISCRAW copies BUF to OUT and changes nothing else. -/
def Obligations.DiscrawCopiesBuf : Prop :=
  ∀ s : State, exec .discraw s = .next { s with cp := s.cp + 1, out := s.buf }

/-! ### The whole machine -/

/-- R348, which the spec marks as its own inference from the operation rules: the stages that do not depend on how the
stream is cut into blocks: running DCBLK, CHLPF or DISCFM on two blocks one after the other gives the outputs, and
leaves the state, of one run on their concatenation. -/
def Obligations.StreamingStagesIgnoreBlockCuts : Prop :=
  ∀ (s u v w : State) (x y : List Int), x.length % 2 = 0 → y.length % 2 = 0 →
    s.chlpfHistR.length = 62 → s.chlpfHistJ.length = 62 →
    (∀ i, i = Instr.dcblk ∨ i = .chlpf →
      exec i { s with buf := x } = .next u → exec i { u with buf := y } = .next v →
      exec i { s with buf := x ++ y } = .next w →
      w.buf = u.buf ++ v.buf ∧ w.cond = v.cond ∧ w.chlpfHistR = v.chlpfHistR ∧ w.chlpfHistJ = v.chlpfHistJ) ∧
    (exec .discfm { s with buf := x } = .next u → exec .discfm { u with buf := y } = .next v →
      exec .discfm { s with buf := x ++ y } = .next w → w.out = u.out ++ v.out ∧ w.cond = v.cond)

/-- R21, R22, R102: every step keeps BUF an even number of int16 elements within `P_MAXLEN`, and OUT within it and
int16. -/
def Obligations.StepKeepsBlockBuffers : Prop :=
  ∀ s t : State, BufOk s.buf → OutOk s.out → step s = .next t → BufOk t.buf ∧ OutOk t.out

/-- R75, which the spec marks as its own inference from the reset tables: the power-on state meets the invariant,
whatever the input ports hold. -/
def Obligations.PowerOnMeetsInvariant : Prop :=
  ∀ (cmds : List Word) (samples : List Sample), StateInv (powerOn cmds samples)

/-- R20 to R75, R222, R232 (with the model's reading of the arrays and contracts, log entries 5, 7 and 8): every step
keeps the whole invariant, from every state that meets it. -/
def Obligations.StepKeepsInvariant : Prop :=
  ∀ s t : State, StateInv s → step s = .next t → StateInv t

/-- R281, R319, R322, R351: no state that meets the invariant stops: there is no halt, and no fault or refusal. -/
def Obligations.InvariantStatesNeverStop : Prop :=
  ∀ s : State, StateInv s → SafeRun s

/-- R27, R92: the configuration changes by WRR, WRS and RST alone. -/
def Obligations.OnlyWritesAndResetChangeConfig : Prop :=
  ∀ s t : State, step s = .next t → t.cfg ≠ s.cfg →
    fetch s = .ok .rst ∨ (∃ reg data, fetch s = .ok (.wrr reg data)) ∨ (∃ reg imm, fetch s = .ok (.wrs reg imm))

/-- R24, R81, R82, R83: the command words are never changed, CP moves by at most 2 and never back, samples are only
taken from the front, and what has been sent or published stays. -/
def Obligations.PortsOnlyMoveForward : Prop :=
  ∀ s t : State, step s = .next t →
    t.cmds = s.cmds ∧ s.cp ≤ t.cp ∧ t.cp ≤ s.cp + 2 ∧ t.samples <:+ s.samples ∧
    s.outPort <+: t.outPort ∧ t.outPort.length ≤ s.outPort.length + 1 ∧
    s.snapshots <+: t.snapshots ∧ t.snapshots.length ≤ s.snapshots.length + 1

/-- R311, R316, R322: the error registers other than `BLOCKS_DONE` change by an illegal word, WRR, WRS, LOAD, BLK,
ERRCLR and RST alone; in particular no datapath stage raises. -/
def Obligations.OnlyListedCommandsTouchErrors : Prop :=
  ∀ (s t : State) (i : Instr), fetch s = .ok i → step s = .next t →
    (t.err.code ≠ s.err.code ∨ t.err.count ≠ s.err.count ∨ t.err.stage ≠ s.err.stage ∨ t.err.info ≠ s.err.info) →
    i = .errclr ∨ i = .rst ∨ (∃ reg data, i = .wrr reg data) ∨ (∃ reg imm, i = .wrs reg imm) ∨
      (∃ len, i = .load len) ∨ (∃ len, i = .blk len)

/-- R319: an earlier error never changes what a later operation does: from two states that differ in the error
registers alone, an operation completes in states that differ there alone. -/
def Obligations.EarlierErrorsDoNotInfluenceOperations : Prop :=
  ∀ (i : Instr) (s t : State) (e : ErrRegs), exec i s = .next t →
    ∃ t', exec i { s with err := e } = .next t' ∧ { t' with err := t.err } = t
end

