-- ==== Sys2Proof/Laws/Frames.lean ====
section
/-! SUPPORT. The frame of every stage and block operation: the fields it can change, said once for the whole state, then
each field it leaves alone as a rewriting lemma. -/

namespace Sys2Proof.Machine

/-- DECIMHB changes no field but `buf`, `hbHist`. -/
theorem decimhb_frame (P : Config.Params) (s : State) :
    decimhb P s = { s with buf := (decimhb P s).buf, hbHist := (decimhb P s).hbHist } := by
  unfold decimhb; split_ifs <;> rfl

@[simp] theorem decimhb_cmds (P : Config.Params) (s : State) : (decimhb P s).cmds = s.cmds :=
  (congrArg State.cmds (decimhb_frame P s) :)
@[simp] theorem decimhb_cp (P : Config.Params) (s : State) : (decimhb P s).cp = s.cp :=
  (congrArg State.cp (decimhb_frame P s) :)
@[simp] theorem decimhb_samples (P : Config.Params) (s : State) : (decimhb P s).samples = s.samples :=
  (congrArg State.samples (decimhb_frame P s) :)
@[simp] theorem decimhb_outPort (P : Config.Params) (s : State) : (decimhb P s).outPort = s.outPort :=
  (congrArg State.outPort (decimhb_frame P s) :)
@[simp] theorem decimhb_snapshots (P : Config.Params) (s : State) : (decimhb P s).snapshots = s.snapshots :=
  (congrArg State.snapshots (decimhb_frame P s) :)
@[simp] theorem decimhb_out (P : Config.Params) (s : State) : (decimhb P s).out = s.out :=
  (congrArg State.out (decimhb_frame P s) :)
@[simp] theorem decimhb_cfg (P : Config.Params) (s : State) : (decimhb P s).cfg = s.cfg :=
  (congrArg State.cfg (decimhb_frame P s) :)
@[simp] theorem decimhb_err (P : Config.Params) (s : State) : (decimhb P s).err = s.err :=
  (congrArg State.err (decimhb_frame P s) :)
@[simp] theorem decimhb_fll (P : Config.Params) (s : State) : (decimhb P s).fll = s.fll :=
  (congrArg State.fll (decimhb_frame P s) :)
@[simp] theorem decimhb_ted (P : Config.Params) (s : State) : (decimhb P s).ted = s.ted :=
  (congrArg State.ted (decimhb_frame P s) :)
@[simp] theorem decimhb_sql (P : Config.Params) (s : State) : (decimhb P s).sql = s.sql :=
  (congrArg State.sql (decimhb_frame P s) :)
@[simp] theorem decimhb_cond (P : Config.Params) (s : State) : (decimhb P s).cond = s.cond :=
  (congrArg State.cond (decimhb_frame P s) :)
@[simp] theorem decimhb_rrc (P : Config.Params) (s : State) : (decimhb P s).rrc = s.rrc :=
  (congrArg State.rrc (decimhb_frame P s) :)
@[simp] theorem decimhb_rrcTaps (P : Config.Params) (s : State) : (decimhb P s).rrcTaps = s.rrcTaps :=
  (congrArg State.rrcTaps (decimhb_frame P s) :)
@[simp] theorem decimhb_chlpfHistR (P : Config.Params) (s : State) : (decimhb P s).chlpfHistR = s.chlpfHistR :=
  (congrArg State.chlpfHistR (decimhb_frame P s) :)
@[simp] theorem decimhb_chlpfHistJ (P : Config.Params) (s : State) : (decimhb P s).chlpfHistJ = s.chlpfHistJ :=
  (congrArg State.chlpfHistJ (decimhb_frame P s) :)
@[simp] theorem decimhb_dl (P : Config.Params) (s : State) : (decimhb P s).dl = s.dl :=
  (congrArg State.dl (decimhb_frame P s) :)
@[simp] theorem decimhb_legacyState (P : Config.Params) (s : State) : (decimhb P s).legacyState = s.legacyState :=
  (congrArg State.legacyState (decimhb_frame P s) :)

/-- DECIMLEG changes no field but `buf`, `legacyState`. -/
theorem decimleg_frame (P : Config.Params) (s : State) :
    decimleg P s = { s with buf := (decimleg P s).buf, legacyState := (decimleg P s).legacyState } := by
  unfold decimleg; split_ifs <;> rfl

@[simp] theorem decimleg_cmds (P : Config.Params) (s : State) : (decimleg P s).cmds = s.cmds :=
  (congrArg State.cmds (decimleg_frame P s) :)
@[simp] theorem decimleg_cp (P : Config.Params) (s : State) : (decimleg P s).cp = s.cp :=
  (congrArg State.cp (decimleg_frame P s) :)
@[simp] theorem decimleg_samples (P : Config.Params) (s : State) : (decimleg P s).samples = s.samples :=
  (congrArg State.samples (decimleg_frame P s) :)
@[simp] theorem decimleg_outPort (P : Config.Params) (s : State) : (decimleg P s).outPort = s.outPort :=
  (congrArg State.outPort (decimleg_frame P s) :)
@[simp] theorem decimleg_snapshots (P : Config.Params) (s : State) : (decimleg P s).snapshots = s.snapshots :=
  (congrArg State.snapshots (decimleg_frame P s) :)
@[simp] theorem decimleg_out (P : Config.Params) (s : State) : (decimleg P s).out = s.out :=
  (congrArg State.out (decimleg_frame P s) :)
@[simp] theorem decimleg_cfg (P : Config.Params) (s : State) : (decimleg P s).cfg = s.cfg :=
  (congrArg State.cfg (decimleg_frame P s) :)
@[simp] theorem decimleg_err (P : Config.Params) (s : State) : (decimleg P s).err = s.err :=
  (congrArg State.err (decimleg_frame P s) :)
@[simp] theorem decimleg_fll (P : Config.Params) (s : State) : (decimleg P s).fll = s.fll :=
  (congrArg State.fll (decimleg_frame P s) :)
@[simp] theorem decimleg_ted (P : Config.Params) (s : State) : (decimleg P s).ted = s.ted :=
  (congrArg State.ted (decimleg_frame P s) :)
@[simp] theorem decimleg_sql (P : Config.Params) (s : State) : (decimleg P s).sql = s.sql :=
  (congrArg State.sql (decimleg_frame P s) :)
@[simp] theorem decimleg_cond (P : Config.Params) (s : State) : (decimleg P s).cond = s.cond :=
  (congrArg State.cond (decimleg_frame P s) :)
@[simp] theorem decimleg_rrc (P : Config.Params) (s : State) : (decimleg P s).rrc = s.rrc :=
  (congrArg State.rrc (decimleg_frame P s) :)
@[simp] theorem decimleg_rrcTaps (P : Config.Params) (s : State) : (decimleg P s).rrcTaps = s.rrcTaps :=
  (congrArg State.rrcTaps (decimleg_frame P s) :)
@[simp] theorem decimleg_hbHist (P : Config.Params) (s : State) : (decimleg P s).hbHist = s.hbHist :=
  (congrArg State.hbHist (decimleg_frame P s) :)
@[simp] theorem decimleg_chlpfHistR (P : Config.Params) (s : State) : (decimleg P s).chlpfHistR = s.chlpfHistR :=
  (congrArg State.chlpfHistR (decimleg_frame P s) :)
@[simp] theorem decimleg_chlpfHistJ (P : Config.Params) (s : State) : (decimleg P s).chlpfHistJ = s.chlpfHistJ :=
  (congrArg State.chlpfHistJ (decimleg_frame P s) :)
@[simp] theorem decimleg_dl (P : Config.Params) (s : State) : (decimleg P s).dl = s.dl :=
  (congrArg State.dl (decimleg_frame P s) :)

/-- CHLPF changes no field but `buf`, `chlpfHistR`, `chlpfHistJ`. -/
theorem chlpf_frame (P : Config.Params) (s : State) :
    chlpf P s = { s with
      buf := (chlpf P s).buf, chlpfHistR := (chlpf P s).chlpfHistR, chlpfHistJ := (chlpf P s).chlpfHistJ } := by
  unfold chlpf; dsimp only; split_ifs <;> rfl

@[simp] theorem chlpf_cmds (P : Config.Params) (s : State) : (chlpf P s).cmds = s.cmds :=
  (congrArg State.cmds (chlpf_frame P s) :)
@[simp] theorem chlpf_cp (P : Config.Params) (s : State) : (chlpf P s).cp = s.cp :=
  (congrArg State.cp (chlpf_frame P s) :)
@[simp] theorem chlpf_samples (P : Config.Params) (s : State) : (chlpf P s).samples = s.samples :=
  (congrArg State.samples (chlpf_frame P s) :)
@[simp] theorem chlpf_outPort (P : Config.Params) (s : State) : (chlpf P s).outPort = s.outPort :=
  (congrArg State.outPort (chlpf_frame P s) :)
@[simp] theorem chlpf_snapshots (P : Config.Params) (s : State) : (chlpf P s).snapshots = s.snapshots :=
  (congrArg State.snapshots (chlpf_frame P s) :)
@[simp] theorem chlpf_out (P : Config.Params) (s : State) : (chlpf P s).out = s.out :=
  (congrArg State.out (chlpf_frame P s) :)
@[simp] theorem chlpf_cfg (P : Config.Params) (s : State) : (chlpf P s).cfg = s.cfg :=
  (congrArg State.cfg (chlpf_frame P s) :)
@[simp] theorem chlpf_err (P : Config.Params) (s : State) : (chlpf P s).err = s.err :=
  (congrArg State.err (chlpf_frame P s) :)
@[simp] theorem chlpf_fll (P : Config.Params) (s : State) : (chlpf P s).fll = s.fll :=
  (congrArg State.fll (chlpf_frame P s) :)
@[simp] theorem chlpf_ted (P : Config.Params) (s : State) : (chlpf P s).ted = s.ted :=
  (congrArg State.ted (chlpf_frame P s) :)
@[simp] theorem chlpf_sql (P : Config.Params) (s : State) : (chlpf P s).sql = s.sql :=
  (congrArg State.sql (chlpf_frame P s) :)
@[simp] theorem chlpf_cond (P : Config.Params) (s : State) : (chlpf P s).cond = s.cond :=
  (congrArg State.cond (chlpf_frame P s) :)
@[simp] theorem chlpf_rrc (P : Config.Params) (s : State) : (chlpf P s).rrc = s.rrc :=
  (congrArg State.rrc (chlpf_frame P s) :)
@[simp] theorem chlpf_rrcTaps (P : Config.Params) (s : State) : (chlpf P s).rrcTaps = s.rrcTaps :=
  (congrArg State.rrcTaps (chlpf_frame P s) :)
@[simp] theorem chlpf_hbHist (P : Config.Params) (s : State) : (chlpf P s).hbHist = s.hbHist :=
  (congrArg State.hbHist (chlpf_frame P s) :)
@[simp] theorem chlpf_dl (P : Config.Params) (s : State) : (chlpf P s).dl = s.dl :=
  (congrArg State.dl (chlpf_frame P s) :)
@[simp] theorem chlpf_legacyState (P : Config.Params) (s : State) : (chlpf P s).legacyState = s.legacyState :=
  (congrArg State.legacyState (chlpf_frame P s) :)

/-- SQLM changes no field but `sql`. -/
theorem sqlm_frame (s : State) :
    sqlm s = { s with sql := (sqlm s).sql } := by
  rfl

@[simp] theorem sqlm_cmds (s : State) : (sqlm s).cmds = s.cmds := (congrArg State.cmds (sqlm_frame s) :)
@[simp] theorem sqlm_cp (s : State) : (sqlm s).cp = s.cp := (congrArg State.cp (sqlm_frame s) :)
@[simp] theorem sqlm_samples (s : State) : (sqlm s).samples = s.samples := (congrArg State.samples (sqlm_frame s) :)
@[simp] theorem sqlm_outPort (s : State) : (sqlm s).outPort = s.outPort := (congrArg State.outPort (sqlm_frame s) :)
@[simp] theorem sqlm_snapshots (s : State) : (sqlm s).snapshots = s.snapshots :=
  (congrArg State.snapshots (sqlm_frame s) :)
@[simp] theorem sqlm_buf (s : State) : (sqlm s).buf = s.buf := (congrArg State.buf (sqlm_frame s) :)
@[simp] theorem sqlm_out (s : State) : (sqlm s).out = s.out := (congrArg State.out (sqlm_frame s) :)
@[simp] theorem sqlm_cfg (s : State) : (sqlm s).cfg = s.cfg := (congrArg State.cfg (sqlm_frame s) :)
@[simp] theorem sqlm_err (s : State) : (sqlm s).err = s.err := (congrArg State.err (sqlm_frame s) :)
@[simp] theorem sqlm_fll (s : State) : (sqlm s).fll = s.fll := (congrArg State.fll (sqlm_frame s) :)
@[simp] theorem sqlm_ted (s : State) : (sqlm s).ted = s.ted := (congrArg State.ted (sqlm_frame s) :)
@[simp] theorem sqlm_cond (s : State) : (sqlm s).cond = s.cond := (congrArg State.cond (sqlm_frame s) :)
@[simp] theorem sqlm_rrc (s : State) : (sqlm s).rrc = s.rrc := (congrArg State.rrc (sqlm_frame s) :)
@[simp] theorem sqlm_rrcTaps (s : State) : (sqlm s).rrcTaps = s.rrcTaps := (congrArg State.rrcTaps (sqlm_frame s) :)
@[simp] theorem sqlm_hbHist (s : State) : (sqlm s).hbHist = s.hbHist := (congrArg State.hbHist (sqlm_frame s) :)
@[simp] theorem sqlm_chlpfHistR (s : State) : (sqlm s).chlpfHistR = s.chlpfHistR :=
  (congrArg State.chlpfHistR (sqlm_frame s) :)
@[simp] theorem sqlm_chlpfHistJ (s : State) : (sqlm s).chlpfHistJ = s.chlpfHistJ :=
  (congrArg State.chlpfHistJ (sqlm_frame s) :)
@[simp] theorem sqlm_dl (s : State) : (sqlm s).dl = s.dl := (congrArg State.dl (sqlm_frame s) :)
@[simp] theorem sqlm_legacyState (s : State) : (sqlm s).legacyState = s.legacyState :=
  (congrArg State.legacyState (sqlm_frame s) :)

/-- DCBLK changes no field but `buf`, `cond`. -/
theorem dcblk_frame (s : State) :
    dcblk s = { s with buf := (dcblk s).buf, cond := (dcblk s).cond } := by
  rfl

@[simp] theorem dcblk_cmds (s : State) : (dcblk s).cmds = s.cmds := (congrArg State.cmds (dcblk_frame s) :)
@[simp] theorem dcblk_cp (s : State) : (dcblk s).cp = s.cp := (congrArg State.cp (dcblk_frame s) :)
@[simp] theorem dcblk_samples (s : State) : (dcblk s).samples = s.samples := (congrArg State.samples (dcblk_frame s) :)
@[simp] theorem dcblk_outPort (s : State) : (dcblk s).outPort = s.outPort := (congrArg State.outPort (dcblk_frame s) :)
@[simp] theorem dcblk_snapshots (s : State) : (dcblk s).snapshots = s.snapshots :=
  (congrArg State.snapshots (dcblk_frame s) :)
@[simp] theorem dcblk_out (s : State) : (dcblk s).out = s.out := (congrArg State.out (dcblk_frame s) :)
@[simp] theorem dcblk_cfg (s : State) : (dcblk s).cfg = s.cfg := (congrArg State.cfg (dcblk_frame s) :)
@[simp] theorem dcblk_err (s : State) : (dcblk s).err = s.err := (congrArg State.err (dcblk_frame s) :)
@[simp] theorem dcblk_fll (s : State) : (dcblk s).fll = s.fll := (congrArg State.fll (dcblk_frame s) :)
@[simp] theorem dcblk_ted (s : State) : (dcblk s).ted = s.ted := (congrArg State.ted (dcblk_frame s) :)
@[simp] theorem dcblk_sql (s : State) : (dcblk s).sql = s.sql := (congrArg State.sql (dcblk_frame s) :)
@[simp] theorem dcblk_rrc (s : State) : (dcblk s).rrc = s.rrc := (congrArg State.rrc (dcblk_frame s) :)
@[simp] theorem dcblk_rrcTaps (s : State) : (dcblk s).rrcTaps = s.rrcTaps := (congrArg State.rrcTaps (dcblk_frame s) :)
@[simp] theorem dcblk_hbHist (s : State) : (dcblk s).hbHist = s.hbHist := (congrArg State.hbHist (dcblk_frame s) :)
@[simp] theorem dcblk_chlpfHistR (s : State) : (dcblk s).chlpfHistR = s.chlpfHistR :=
  (congrArg State.chlpfHistR (dcblk_frame s) :)
@[simp] theorem dcblk_chlpfHistJ (s : State) : (dcblk s).chlpfHistJ = s.chlpfHistJ :=
  (congrArg State.chlpfHistJ (dcblk_frame s) :)
@[simp] theorem dcblk_dl (s : State) : (dcblk s).dl = s.dl := (congrArg State.dl (dcblk_frame s) :)
@[simp] theorem dcblk_legacyState (s : State) : (dcblk s).legacyState = s.legacyState :=
  (congrArg State.legacyState (dcblk_frame s) :)

/-- AGC changes no field but `buf`, `cond`. -/
theorem agc_frame (s : State) :
    agc s = { s with buf := (agc s).buf, cond := (agc s).cond } := by
  unfold agc; dsimp only; split_ifs <;> rfl

@[simp] theorem agc_cmds (s : State) : (agc s).cmds = s.cmds := (congrArg State.cmds (agc_frame s) :)
@[simp] theorem agc_cp (s : State) : (agc s).cp = s.cp := (congrArg State.cp (agc_frame s) :)
@[simp] theorem agc_samples (s : State) : (agc s).samples = s.samples := (congrArg State.samples (agc_frame s) :)
@[simp] theorem agc_outPort (s : State) : (agc s).outPort = s.outPort := (congrArg State.outPort (agc_frame s) :)
@[simp] theorem agc_snapshots (s : State) : (agc s).snapshots = s.snapshots :=
  (congrArg State.snapshots (agc_frame s) :)
@[simp] theorem agc_out (s : State) : (agc s).out = s.out := (congrArg State.out (agc_frame s) :)
@[simp] theorem agc_cfg (s : State) : (agc s).cfg = s.cfg := (congrArg State.cfg (agc_frame s) :)
@[simp] theorem agc_err (s : State) : (agc s).err = s.err := (congrArg State.err (agc_frame s) :)
@[simp] theorem agc_fll (s : State) : (agc s).fll = s.fll := (congrArg State.fll (agc_frame s) :)
@[simp] theorem agc_ted (s : State) : (agc s).ted = s.ted := (congrArg State.ted (agc_frame s) :)
@[simp] theorem agc_sql (s : State) : (agc s).sql = s.sql := (congrArg State.sql (agc_frame s) :)
@[simp] theorem agc_rrc (s : State) : (agc s).rrc = s.rrc := (congrArg State.rrc (agc_frame s) :)
@[simp] theorem agc_rrcTaps (s : State) : (agc s).rrcTaps = s.rrcTaps := (congrArg State.rrcTaps (agc_frame s) :)
@[simp] theorem agc_hbHist (s : State) : (agc s).hbHist = s.hbHist := (congrArg State.hbHist (agc_frame s) :)
@[simp] theorem agc_chlpfHistR (s : State) : (agc s).chlpfHistR = s.chlpfHistR :=
  (congrArg State.chlpfHistR (agc_frame s) :)
@[simp] theorem agc_chlpfHistJ (s : State) : (agc s).chlpfHistJ = s.chlpfHistJ :=
  (congrArg State.chlpfHistJ (agc_frame s) :)
@[simp] theorem agc_dl (s : State) : (agc s).dl = s.dl := (congrArg State.dl (agc_frame s) :)
@[simp] theorem agc_legacyState (s : State) : (agc s).legacyState = s.legacyState :=
  (congrArg State.legacyState (agc_frame s) :)

/-- LIMIT changes no field but `buf`. -/
theorem limit_frame (s : State) :
    limit s = { s with buf := (limit s).buf } := by
  rfl

@[simp] theorem limit_cmds (s : State) : (limit s).cmds = s.cmds := (congrArg State.cmds (limit_frame s) :)
@[simp] theorem limit_cp (s : State) : (limit s).cp = s.cp := (congrArg State.cp (limit_frame s) :)
@[simp] theorem limit_samples (s : State) : (limit s).samples = s.samples := (congrArg State.samples (limit_frame s) :)
@[simp] theorem limit_outPort (s : State) : (limit s).outPort = s.outPort := (congrArg State.outPort (limit_frame s) :)
@[simp] theorem limit_snapshots (s : State) : (limit s).snapshots = s.snapshots :=
  (congrArg State.snapshots (limit_frame s) :)
@[simp] theorem limit_out (s : State) : (limit s).out = s.out := (congrArg State.out (limit_frame s) :)
@[simp] theorem limit_cfg (s : State) : (limit s).cfg = s.cfg := (congrArg State.cfg (limit_frame s) :)
@[simp] theorem limit_err (s : State) : (limit s).err = s.err := (congrArg State.err (limit_frame s) :)
@[simp] theorem limit_fll (s : State) : (limit s).fll = s.fll := (congrArg State.fll (limit_frame s) :)
@[simp] theorem limit_ted (s : State) : (limit s).ted = s.ted := (congrArg State.ted (limit_frame s) :)
@[simp] theorem limit_sql (s : State) : (limit s).sql = s.sql := (congrArg State.sql (limit_frame s) :)
@[simp] theorem limit_cond (s : State) : (limit s).cond = s.cond := (congrArg State.cond (limit_frame s) :)
@[simp] theorem limit_rrc (s : State) : (limit s).rrc = s.rrc := (congrArg State.rrc (limit_frame s) :)
@[simp] theorem limit_rrcTaps (s : State) : (limit s).rrcTaps = s.rrcTaps := (congrArg State.rrcTaps (limit_frame s) :)
@[simp] theorem limit_hbHist (s : State) : (limit s).hbHist = s.hbHist := (congrArg State.hbHist (limit_frame s) :)
@[simp] theorem limit_chlpfHistR (s : State) : (limit s).chlpfHistR = s.chlpfHistR :=
  (congrArg State.chlpfHistR (limit_frame s) :)
@[simp] theorem limit_chlpfHistJ (s : State) : (limit s).chlpfHistJ = s.chlpfHistJ :=
  (congrArg State.chlpfHistJ (limit_frame s) :)
@[simp] theorem limit_dl (s : State) : (limit s).dl = s.dl := (congrArg State.dl (limit_frame s) :)
@[simp] theorem limit_legacyState (s : State) : (limit s).legacyState = s.legacyState :=
  (congrArg State.legacyState (limit_frame s) :)

/-- IQBAL changes no field but `buf`, `cond`. -/
theorem iqbal_frame (s : State) :
    iqbal s = { s with buf := (iqbal s).buf, cond := (iqbal s).cond } := by
  unfold iqbal; dsimp only; split_ifs <;> rfl

@[simp] theorem iqbal_cmds (s : State) : (iqbal s).cmds = s.cmds := (congrArg State.cmds (iqbal_frame s) :)
@[simp] theorem iqbal_cp (s : State) : (iqbal s).cp = s.cp := (congrArg State.cp (iqbal_frame s) :)
@[simp] theorem iqbal_samples (s : State) : (iqbal s).samples = s.samples := (congrArg State.samples (iqbal_frame s) :)
@[simp] theorem iqbal_outPort (s : State) : (iqbal s).outPort = s.outPort := (congrArg State.outPort (iqbal_frame s) :)
@[simp] theorem iqbal_snapshots (s : State) : (iqbal s).snapshots = s.snapshots :=
  (congrArg State.snapshots (iqbal_frame s) :)
@[simp] theorem iqbal_out (s : State) : (iqbal s).out = s.out := (congrArg State.out (iqbal_frame s) :)
@[simp] theorem iqbal_cfg (s : State) : (iqbal s).cfg = s.cfg := (congrArg State.cfg (iqbal_frame s) :)
@[simp] theorem iqbal_err (s : State) : (iqbal s).err = s.err := (congrArg State.err (iqbal_frame s) :)
@[simp] theorem iqbal_fll (s : State) : (iqbal s).fll = s.fll := (congrArg State.fll (iqbal_frame s) :)
@[simp] theorem iqbal_ted (s : State) : (iqbal s).ted = s.ted := (congrArg State.ted (iqbal_frame s) :)
@[simp] theorem iqbal_sql (s : State) : (iqbal s).sql = s.sql := (congrArg State.sql (iqbal_frame s) :)
@[simp] theorem iqbal_rrc (s : State) : (iqbal s).rrc = s.rrc := (congrArg State.rrc (iqbal_frame s) :)
@[simp] theorem iqbal_rrcTaps (s : State) : (iqbal s).rrcTaps = s.rrcTaps := (congrArg State.rrcTaps (iqbal_frame s) :)
@[simp] theorem iqbal_hbHist (s : State) : (iqbal s).hbHist = s.hbHist := (congrArg State.hbHist (iqbal_frame s) :)
@[simp] theorem iqbal_chlpfHistR (s : State) : (iqbal s).chlpfHistR = s.chlpfHistR :=
  (congrArg State.chlpfHistR (iqbal_frame s) :)
@[simp] theorem iqbal_chlpfHistJ (s : State) : (iqbal s).chlpfHistJ = s.chlpfHistJ :=
  (congrArg State.chlpfHistJ (iqbal_frame s) :)
@[simp] theorem iqbal_dl (s : State) : (iqbal s).dl = s.dl := (congrArg State.dl (iqbal_frame s) :)
@[simp] theorem iqbal_legacyState (s : State) : (iqbal s).legacyState = s.legacyState :=
  (congrArg State.legacyState (iqbal_frame s) :)

/-- FLLDD changes no field but `buf`, `fll`. -/
theorem flldd_frame (P : Config.Params) (s : State) :
    flldd P s = { s with buf := (flldd P s).buf, fll := (flldd P s).fll } := by
  unfold flldd; dsimp only; split_ifs <;> rfl

@[simp] theorem flldd_cmds (P : Config.Params) (s : State) : (flldd P s).cmds = s.cmds :=
  (congrArg State.cmds (flldd_frame P s) :)
@[simp] theorem flldd_cp (P : Config.Params) (s : State) : (flldd P s).cp = s.cp :=
  (congrArg State.cp (flldd_frame P s) :)
@[simp] theorem flldd_samples (P : Config.Params) (s : State) : (flldd P s).samples = s.samples :=
  (congrArg State.samples (flldd_frame P s) :)
@[simp] theorem flldd_outPort (P : Config.Params) (s : State) : (flldd P s).outPort = s.outPort :=
  (congrArg State.outPort (flldd_frame P s) :)
@[simp] theorem flldd_snapshots (P : Config.Params) (s : State) : (flldd P s).snapshots = s.snapshots :=
  (congrArg State.snapshots (flldd_frame P s) :)
@[simp] theorem flldd_out (P : Config.Params) (s : State) : (flldd P s).out = s.out :=
  (congrArg State.out (flldd_frame P s) :)
@[simp] theorem flldd_cfg (P : Config.Params) (s : State) : (flldd P s).cfg = s.cfg :=
  (congrArg State.cfg (flldd_frame P s) :)
@[simp] theorem flldd_err (P : Config.Params) (s : State) : (flldd P s).err = s.err :=
  (congrArg State.err (flldd_frame P s) :)
@[simp] theorem flldd_ted (P : Config.Params) (s : State) : (flldd P s).ted = s.ted :=
  (congrArg State.ted (flldd_frame P s) :)
@[simp] theorem flldd_sql (P : Config.Params) (s : State) : (flldd P s).sql = s.sql :=
  (congrArg State.sql (flldd_frame P s) :)
@[simp] theorem flldd_cond (P : Config.Params) (s : State) : (flldd P s).cond = s.cond :=
  (congrArg State.cond (flldd_frame P s) :)
@[simp] theorem flldd_rrc (P : Config.Params) (s : State) : (flldd P s).rrc = s.rrc :=
  (congrArg State.rrc (flldd_frame P s) :)
@[simp] theorem flldd_rrcTaps (P : Config.Params) (s : State) : (flldd P s).rrcTaps = s.rrcTaps :=
  (congrArg State.rrcTaps (flldd_frame P s) :)
@[simp] theorem flldd_hbHist (P : Config.Params) (s : State) : (flldd P s).hbHist = s.hbHist :=
  (congrArg State.hbHist (flldd_frame P s) :)
@[simp] theorem flldd_chlpfHistR (P : Config.Params) (s : State) : (flldd P s).chlpfHistR = s.chlpfHistR :=
  (congrArg State.chlpfHistR (flldd_frame P s) :)
@[simp] theorem flldd_chlpfHistJ (P : Config.Params) (s : State) : (flldd P s).chlpfHistJ = s.chlpfHistJ :=
  (congrArg State.chlpfHistJ (flldd_frame P s) :)
@[simp] theorem flldd_dl (P : Config.Params) (s : State) : (flldd P s).dl = s.dl :=
  (congrArg State.dl (flldd_frame P s) :)
@[simp] theorem flldd_legacyState (P : Config.Params) (s : State) : (flldd P s).legacyState = s.legacyState :=
  (congrArg State.legacyState (flldd_frame P s) :)

/-- FLLBE changes no field but `buf`, `fll`. -/
theorem fllbe_frame (P : Config.Params) (s : State) :
    fllbe P s = { s with buf := (fllbe P s).buf, fll := (fllbe P s).fll } := by
  unfold fllbe; dsimp only; split_ifs <;> rfl

@[simp] theorem fllbe_cmds (P : Config.Params) (s : State) : (fllbe P s).cmds = s.cmds :=
  (congrArg State.cmds (fllbe_frame P s) :)
@[simp] theorem fllbe_cp (P : Config.Params) (s : State) : (fllbe P s).cp = s.cp :=
  (congrArg State.cp (fllbe_frame P s) :)
@[simp] theorem fllbe_samples (P : Config.Params) (s : State) : (fllbe P s).samples = s.samples :=
  (congrArg State.samples (fllbe_frame P s) :)
@[simp] theorem fllbe_outPort (P : Config.Params) (s : State) : (fllbe P s).outPort = s.outPort :=
  (congrArg State.outPort (fllbe_frame P s) :)
@[simp] theorem fllbe_snapshots (P : Config.Params) (s : State) : (fllbe P s).snapshots = s.snapshots :=
  (congrArg State.snapshots (fllbe_frame P s) :)
@[simp] theorem fllbe_out (P : Config.Params) (s : State) : (fllbe P s).out = s.out :=
  (congrArg State.out (fllbe_frame P s) :)
@[simp] theorem fllbe_cfg (P : Config.Params) (s : State) : (fllbe P s).cfg = s.cfg :=
  (congrArg State.cfg (fllbe_frame P s) :)
@[simp] theorem fllbe_err (P : Config.Params) (s : State) : (fllbe P s).err = s.err :=
  (congrArg State.err (fllbe_frame P s) :)
@[simp] theorem fllbe_ted (P : Config.Params) (s : State) : (fllbe P s).ted = s.ted :=
  (congrArg State.ted (fllbe_frame P s) :)
@[simp] theorem fllbe_sql (P : Config.Params) (s : State) : (fllbe P s).sql = s.sql :=
  (congrArg State.sql (fllbe_frame P s) :)
@[simp] theorem fllbe_cond (P : Config.Params) (s : State) : (fllbe P s).cond = s.cond :=
  (congrArg State.cond (fllbe_frame P s) :)
@[simp] theorem fllbe_rrc (P : Config.Params) (s : State) : (fllbe P s).rrc = s.rrc :=
  (congrArg State.rrc (fllbe_frame P s) :)
@[simp] theorem fllbe_rrcTaps (P : Config.Params) (s : State) : (fllbe P s).rrcTaps = s.rrcTaps :=
  (congrArg State.rrcTaps (fllbe_frame P s) :)
@[simp] theorem fllbe_hbHist (P : Config.Params) (s : State) : (fllbe P s).hbHist = s.hbHist :=
  (congrArg State.hbHist (fllbe_frame P s) :)
@[simp] theorem fllbe_chlpfHistR (P : Config.Params) (s : State) : (fllbe P s).chlpfHistR = s.chlpfHistR :=
  (congrArg State.chlpfHistR (fllbe_frame P s) :)
@[simp] theorem fllbe_chlpfHistJ (P : Config.Params) (s : State) : (fllbe P s).chlpfHistJ = s.chlpfHistJ :=
  (congrArg State.chlpfHistJ (fllbe_frame P s) :)
@[simp] theorem fllbe_dl (P : Config.Params) (s : State) : (fllbe P s).dl = s.dl :=
  (congrArg State.dl (fllbe_frame P s) :)
@[simp] theorem fllbe_legacyState (P : Config.Params) (s : State) : (fllbe P s).legacyState = s.legacyState :=
  (congrArg State.legacyState (fllbe_frame P s) :)

/-- MF5 changes no field but `buf`. -/
theorem mf5_frame (P : Config.Params) (s : State) :
    mf5 P s = { s with buf := (mf5 P s).buf } := by
  rfl

@[simp] theorem mf5_cmds (P : Config.Params) (s : State) : (mf5 P s).cmds = s.cmds :=
  (congrArg State.cmds (mf5_frame P s) :)
@[simp] theorem mf5_cp (P : Config.Params) (s : State) : (mf5 P s).cp = s.cp := (congrArg State.cp (mf5_frame P s) :)
@[simp] theorem mf5_samples (P : Config.Params) (s : State) : (mf5 P s).samples = s.samples :=
  (congrArg State.samples (mf5_frame P s) :)
@[simp] theorem mf5_outPort (P : Config.Params) (s : State) : (mf5 P s).outPort = s.outPort :=
  (congrArg State.outPort (mf5_frame P s) :)
@[simp] theorem mf5_snapshots (P : Config.Params) (s : State) : (mf5 P s).snapshots = s.snapshots :=
  (congrArg State.snapshots (mf5_frame P s) :)
@[simp] theorem mf5_out (P : Config.Params) (s : State) : (mf5 P s).out = s.out :=
  (congrArg State.out (mf5_frame P s) :)
@[simp] theorem mf5_cfg (P : Config.Params) (s : State) : (mf5 P s).cfg = s.cfg :=
  (congrArg State.cfg (mf5_frame P s) :)
@[simp] theorem mf5_err (P : Config.Params) (s : State) : (mf5 P s).err = s.err :=
  (congrArg State.err (mf5_frame P s) :)
@[simp] theorem mf5_fll (P : Config.Params) (s : State) : (mf5 P s).fll = s.fll :=
  (congrArg State.fll (mf5_frame P s) :)
@[simp] theorem mf5_ted (P : Config.Params) (s : State) : (mf5 P s).ted = s.ted :=
  (congrArg State.ted (mf5_frame P s) :)
@[simp] theorem mf5_sql (P : Config.Params) (s : State) : (mf5 P s).sql = s.sql :=
  (congrArg State.sql (mf5_frame P s) :)
@[simp] theorem mf5_cond (P : Config.Params) (s : State) : (mf5 P s).cond = s.cond :=
  (congrArg State.cond (mf5_frame P s) :)
@[simp] theorem mf5_rrc (P : Config.Params) (s : State) : (mf5 P s).rrc = s.rrc :=
  (congrArg State.rrc (mf5_frame P s) :)
@[simp] theorem mf5_rrcTaps (P : Config.Params) (s : State) : (mf5 P s).rrcTaps = s.rrcTaps :=
  (congrArg State.rrcTaps (mf5_frame P s) :)
@[simp] theorem mf5_hbHist (P : Config.Params) (s : State) : (mf5 P s).hbHist = s.hbHist :=
  (congrArg State.hbHist (mf5_frame P s) :)
@[simp] theorem mf5_chlpfHistR (P : Config.Params) (s : State) : (mf5 P s).chlpfHistR = s.chlpfHistR :=
  (congrArg State.chlpfHistR (mf5_frame P s) :)
@[simp] theorem mf5_chlpfHistJ (P : Config.Params) (s : State) : (mf5 P s).chlpfHistJ = s.chlpfHistJ :=
  (congrArg State.chlpfHistJ (mf5_frame P s) :)
@[simp] theorem mf5_dl (P : Config.Params) (s : State) : (mf5 P s).dl = s.dl := (congrArg State.dl (mf5_frame P s) :)
@[simp] theorem mf5_legacyState (P : Config.Params) (s : State) : (mf5 P s).legacyState = s.legacyState :=
  (congrArg State.legacyState (mf5_frame P s) :)

/-- RRC changes no field but `buf`, `rrc`, `rrcTaps`. -/
theorem rrc_frame (P : Config.Params) (s : State) :
    rrc P s = { s with buf := (rrc P s).buf, rrc := (rrc P s).rrc, rrcTaps := (rrc P s).rrcTaps } := by
  unfold rrc rrcRefresh; split_ifs <;> rfl

@[simp] theorem rrc_cmds (P : Config.Params) (s : State) : (rrc P s).cmds = s.cmds :=
  (congrArg State.cmds (rrc_frame P s) :)
@[simp] theorem rrc_cp (P : Config.Params) (s : State) : (rrc P s).cp = s.cp := (congrArg State.cp (rrc_frame P s) :)
@[simp] theorem rrc_samples (P : Config.Params) (s : State) : (rrc P s).samples = s.samples :=
  (congrArg State.samples (rrc_frame P s) :)
@[simp] theorem rrc_outPort (P : Config.Params) (s : State) : (rrc P s).outPort = s.outPort :=
  (congrArg State.outPort (rrc_frame P s) :)
@[simp] theorem rrc_snapshots (P : Config.Params) (s : State) : (rrc P s).snapshots = s.snapshots :=
  (congrArg State.snapshots (rrc_frame P s) :)
@[simp] theorem rrc_out (P : Config.Params) (s : State) : (rrc P s).out = s.out :=
  (congrArg State.out (rrc_frame P s) :)
@[simp] theorem rrc_cfg (P : Config.Params) (s : State) : (rrc P s).cfg = s.cfg :=
  (congrArg State.cfg (rrc_frame P s) :)
@[simp] theorem rrc_err (P : Config.Params) (s : State) : (rrc P s).err = s.err :=
  (congrArg State.err (rrc_frame P s) :)
@[simp] theorem rrc_fll (P : Config.Params) (s : State) : (rrc P s).fll = s.fll :=
  (congrArg State.fll (rrc_frame P s) :)
@[simp] theorem rrc_ted (P : Config.Params) (s : State) : (rrc P s).ted = s.ted :=
  (congrArg State.ted (rrc_frame P s) :)
@[simp] theorem rrc_sql (P : Config.Params) (s : State) : (rrc P s).sql = s.sql :=
  (congrArg State.sql (rrc_frame P s) :)
@[simp] theorem rrc_cond (P : Config.Params) (s : State) : (rrc P s).cond = s.cond :=
  (congrArg State.cond (rrc_frame P s) :)
@[simp] theorem rrc_hbHist (P : Config.Params) (s : State) : (rrc P s).hbHist = s.hbHist :=
  (congrArg State.hbHist (rrc_frame P s) :)
@[simp] theorem rrc_chlpfHistR (P : Config.Params) (s : State) : (rrc P s).chlpfHistR = s.chlpfHistR :=
  (congrArg State.chlpfHistR (rrc_frame P s) :)
@[simp] theorem rrc_chlpfHistJ (P : Config.Params) (s : State) : (rrc P s).chlpfHistJ = s.chlpfHistJ :=
  (congrArg State.chlpfHistJ (rrc_frame P s) :)
@[simp] theorem rrc_dl (P : Config.Params) (s : State) : (rrc P s).dl = s.dl := (congrArg State.dl (rrc_frame P s) :)
@[simp] theorem rrc_legacyState (P : Config.Params) (s : State) : (rrc P s).legacyState = s.legacyState :=
  (congrArg State.legacyState (rrc_frame P s) :)

/-- TEDM changes no field but `buf`, `ted`, `dl`. -/
theorem tedm_frame (P : Config.Params) (s : State) :
    tedm P s = { s with buf := (tedm P s).buf, ted := (tedm P s).ted, dl := (tedm P s).dl } := by
  rfl

@[simp] theorem tedm_cmds (P : Config.Params) (s : State) : (tedm P s).cmds = s.cmds :=
  (congrArg State.cmds (tedm_frame P s) :)
@[simp] theorem tedm_cp (P : Config.Params) (s : State) : (tedm P s).cp = s.cp :=
  (congrArg State.cp (tedm_frame P s) :)
@[simp] theorem tedm_samples (P : Config.Params) (s : State) : (tedm P s).samples = s.samples :=
  (congrArg State.samples (tedm_frame P s) :)
@[simp] theorem tedm_outPort (P : Config.Params) (s : State) : (tedm P s).outPort = s.outPort :=
  (congrArg State.outPort (tedm_frame P s) :)
@[simp] theorem tedm_snapshots (P : Config.Params) (s : State) : (tedm P s).snapshots = s.snapshots :=
  (congrArg State.snapshots (tedm_frame P s) :)
@[simp] theorem tedm_out (P : Config.Params) (s : State) : (tedm P s).out = s.out :=
  (congrArg State.out (tedm_frame P s) :)
@[simp] theorem tedm_cfg (P : Config.Params) (s : State) : (tedm P s).cfg = s.cfg :=
  (congrArg State.cfg (tedm_frame P s) :)
@[simp] theorem tedm_err (P : Config.Params) (s : State) : (tedm P s).err = s.err :=
  (congrArg State.err (tedm_frame P s) :)
@[simp] theorem tedm_fll (P : Config.Params) (s : State) : (tedm P s).fll = s.fll :=
  (congrArg State.fll (tedm_frame P s) :)
@[simp] theorem tedm_sql (P : Config.Params) (s : State) : (tedm P s).sql = s.sql :=
  (congrArg State.sql (tedm_frame P s) :)
@[simp] theorem tedm_cond (P : Config.Params) (s : State) : (tedm P s).cond = s.cond :=
  (congrArg State.cond (tedm_frame P s) :)
@[simp] theorem tedm_rrc (P : Config.Params) (s : State) : (tedm P s).rrc = s.rrc :=
  (congrArg State.rrc (tedm_frame P s) :)
@[simp] theorem tedm_rrcTaps (P : Config.Params) (s : State) : (tedm P s).rrcTaps = s.rrcTaps :=
  (congrArg State.rrcTaps (tedm_frame P s) :)
@[simp] theorem tedm_hbHist (P : Config.Params) (s : State) : (tedm P s).hbHist = s.hbHist :=
  (congrArg State.hbHist (tedm_frame P s) :)
@[simp] theorem tedm_chlpfHistR (P : Config.Params) (s : State) : (tedm P s).chlpfHistR = s.chlpfHistR :=
  (congrArg State.chlpfHistR (tedm_frame P s) :)
@[simp] theorem tedm_chlpfHistJ (P : Config.Params) (s : State) : (tedm P s).chlpfHistJ = s.chlpfHistJ :=
  (congrArg State.chlpfHistJ (tedm_frame P s) :)
@[simp] theorem tedm_legacyState (P : Config.Params) (s : State) : (tedm P s).legacyState = s.legacyState :=
  (congrArg State.legacyState (tedm_frame P s) :)

/-- TEDF changes no field but `buf`, `ted`, `dl`. -/
theorem tedf_frame (P : Config.Params) (s : State) :
    tedf P s = { s with buf := (tedf P s).buf, ted := (tedf P s).ted, dl := (tedf P s).dl } := by
  rfl

@[simp] theorem tedf_cmds (P : Config.Params) (s : State) : (tedf P s).cmds = s.cmds :=
  (congrArg State.cmds (tedf_frame P s) :)
@[simp] theorem tedf_cp (P : Config.Params) (s : State) : (tedf P s).cp = s.cp :=
  (congrArg State.cp (tedf_frame P s) :)
@[simp] theorem tedf_samples (P : Config.Params) (s : State) : (tedf P s).samples = s.samples :=
  (congrArg State.samples (tedf_frame P s) :)
@[simp] theorem tedf_outPort (P : Config.Params) (s : State) : (tedf P s).outPort = s.outPort :=
  (congrArg State.outPort (tedf_frame P s) :)
@[simp] theorem tedf_snapshots (P : Config.Params) (s : State) : (tedf P s).snapshots = s.snapshots :=
  (congrArg State.snapshots (tedf_frame P s) :)
@[simp] theorem tedf_out (P : Config.Params) (s : State) : (tedf P s).out = s.out :=
  (congrArg State.out (tedf_frame P s) :)
@[simp] theorem tedf_cfg (P : Config.Params) (s : State) : (tedf P s).cfg = s.cfg :=
  (congrArg State.cfg (tedf_frame P s) :)
@[simp] theorem tedf_err (P : Config.Params) (s : State) : (tedf P s).err = s.err :=
  (congrArg State.err (tedf_frame P s) :)
@[simp] theorem tedf_fll (P : Config.Params) (s : State) : (tedf P s).fll = s.fll :=
  (congrArg State.fll (tedf_frame P s) :)
@[simp] theorem tedf_sql (P : Config.Params) (s : State) : (tedf P s).sql = s.sql :=
  (congrArg State.sql (tedf_frame P s) :)
@[simp] theorem tedf_cond (P : Config.Params) (s : State) : (tedf P s).cond = s.cond :=
  (congrArg State.cond (tedf_frame P s) :)
@[simp] theorem tedf_rrc (P : Config.Params) (s : State) : (tedf P s).rrc = s.rrc :=
  (congrArg State.rrc (tedf_frame P s) :)
@[simp] theorem tedf_rrcTaps (P : Config.Params) (s : State) : (tedf P s).rrcTaps = s.rrcTaps :=
  (congrArg State.rrcTaps (tedf_frame P s) :)
@[simp] theorem tedf_hbHist (P : Config.Params) (s : State) : (tedf P s).hbHist = s.hbHist :=
  (congrArg State.hbHist (tedf_frame P s) :)
@[simp] theorem tedf_chlpfHistR (P : Config.Params) (s : State) : (tedf P s).chlpfHistR = s.chlpfHistR :=
  (congrArg State.chlpfHistR (tedf_frame P s) :)
@[simp] theorem tedf_chlpfHistJ (P : Config.Params) (s : State) : (tedf P s).chlpfHistJ = s.chlpfHistJ :=
  (congrArg State.chlpfHistJ (tedf_frame P s) :)
@[simp] theorem tedf_legacyState (P : Config.Params) (s : State) : (tedf P s).legacyState = s.legacyState :=
  (congrArg State.legacyState (tedf_frame P s) :)

/-- DISCFM changes no field but `out`, `cond`. -/
theorem discfm_frame (P : Config.Params) (s : State) :
    discfm P s = { s with out := (discfm P s).out, cond := (discfm P s).cond } := by
  rfl

@[simp] theorem discfm_cmds (P : Config.Params) (s : State) : (discfm P s).cmds = s.cmds :=
  (congrArg State.cmds (discfm_frame P s) :)
@[simp] theorem discfm_cp (P : Config.Params) (s : State) : (discfm P s).cp = s.cp :=
  (congrArg State.cp (discfm_frame P s) :)
@[simp] theorem discfm_samples (P : Config.Params) (s : State) : (discfm P s).samples = s.samples :=
  (congrArg State.samples (discfm_frame P s) :)
@[simp] theorem discfm_outPort (P : Config.Params) (s : State) : (discfm P s).outPort = s.outPort :=
  (congrArg State.outPort (discfm_frame P s) :)
@[simp] theorem discfm_snapshots (P : Config.Params) (s : State) : (discfm P s).snapshots = s.snapshots :=
  (congrArg State.snapshots (discfm_frame P s) :)
@[simp] theorem discfm_buf (P : Config.Params) (s : State) : (discfm P s).buf = s.buf :=
  (congrArg State.buf (discfm_frame P s) :)
@[simp] theorem discfm_cfg (P : Config.Params) (s : State) : (discfm P s).cfg = s.cfg :=
  (congrArg State.cfg (discfm_frame P s) :)
@[simp] theorem discfm_err (P : Config.Params) (s : State) : (discfm P s).err = s.err :=
  (congrArg State.err (discfm_frame P s) :)
@[simp] theorem discfm_fll (P : Config.Params) (s : State) : (discfm P s).fll = s.fll :=
  (congrArg State.fll (discfm_frame P s) :)
@[simp] theorem discfm_ted (P : Config.Params) (s : State) : (discfm P s).ted = s.ted :=
  (congrArg State.ted (discfm_frame P s) :)
@[simp] theorem discfm_sql (P : Config.Params) (s : State) : (discfm P s).sql = s.sql :=
  (congrArg State.sql (discfm_frame P s) :)
@[simp] theorem discfm_rrc (P : Config.Params) (s : State) : (discfm P s).rrc = s.rrc :=
  (congrArg State.rrc (discfm_frame P s) :)
@[simp] theorem discfm_rrcTaps (P : Config.Params) (s : State) : (discfm P s).rrcTaps = s.rrcTaps :=
  (congrArg State.rrcTaps (discfm_frame P s) :)
@[simp] theorem discfm_hbHist (P : Config.Params) (s : State) : (discfm P s).hbHist = s.hbHist :=
  (congrArg State.hbHist (discfm_frame P s) :)
@[simp] theorem discfm_chlpfHistR (P : Config.Params) (s : State) : (discfm P s).chlpfHistR = s.chlpfHistR :=
  (congrArg State.chlpfHistR (discfm_frame P s) :)
@[simp] theorem discfm_chlpfHistJ (P : Config.Params) (s : State) : (discfm P s).chlpfHistJ = s.chlpfHistJ :=
  (congrArg State.chlpfHistJ (discfm_frame P s) :)
@[simp] theorem discfm_dl (P : Config.Params) (s : State) : (discfm P s).dl = s.dl :=
  (congrArg State.dl (discfm_frame P s) :)
@[simp] theorem discfm_legacyState (P : Config.Params) (s : State) : (discfm P s).legacyState = s.legacyState :=
  (congrArg State.legacyState (discfm_frame P s) :)

/-- DISCDQ changes no field but `out`, `cond`. -/
theorem discdq_frame (P : Config.Params) (s : State) :
    discdq P s = { s with out := (discdq P s).out, cond := (discdq P s).cond } := by
  rfl

@[simp] theorem discdq_cmds (P : Config.Params) (s : State) : (discdq P s).cmds = s.cmds :=
  (congrArg State.cmds (discdq_frame P s) :)
@[simp] theorem discdq_cp (P : Config.Params) (s : State) : (discdq P s).cp = s.cp :=
  (congrArg State.cp (discdq_frame P s) :)
@[simp] theorem discdq_samples (P : Config.Params) (s : State) : (discdq P s).samples = s.samples :=
  (congrArg State.samples (discdq_frame P s) :)
@[simp] theorem discdq_outPort (P : Config.Params) (s : State) : (discdq P s).outPort = s.outPort :=
  (congrArg State.outPort (discdq_frame P s) :)
@[simp] theorem discdq_snapshots (P : Config.Params) (s : State) : (discdq P s).snapshots = s.snapshots :=
  (congrArg State.snapshots (discdq_frame P s) :)
@[simp] theorem discdq_buf (P : Config.Params) (s : State) : (discdq P s).buf = s.buf :=
  (congrArg State.buf (discdq_frame P s) :)
@[simp] theorem discdq_cfg (P : Config.Params) (s : State) : (discdq P s).cfg = s.cfg :=
  (congrArg State.cfg (discdq_frame P s) :)
@[simp] theorem discdq_err (P : Config.Params) (s : State) : (discdq P s).err = s.err :=
  (congrArg State.err (discdq_frame P s) :)
@[simp] theorem discdq_fll (P : Config.Params) (s : State) : (discdq P s).fll = s.fll :=
  (congrArg State.fll (discdq_frame P s) :)
@[simp] theorem discdq_ted (P : Config.Params) (s : State) : (discdq P s).ted = s.ted :=
  (congrArg State.ted (discdq_frame P s) :)
@[simp] theorem discdq_sql (P : Config.Params) (s : State) : (discdq P s).sql = s.sql :=
  (congrArg State.sql (discdq_frame P s) :)
@[simp] theorem discdq_rrc (P : Config.Params) (s : State) : (discdq P s).rrc = s.rrc :=
  (congrArg State.rrc (discdq_frame P s) :)
@[simp] theorem discdq_rrcTaps (P : Config.Params) (s : State) : (discdq P s).rrcTaps = s.rrcTaps :=
  (congrArg State.rrcTaps (discdq_frame P s) :)
@[simp] theorem discdq_hbHist (P : Config.Params) (s : State) : (discdq P s).hbHist = s.hbHist :=
  (congrArg State.hbHist (discdq_frame P s) :)
@[simp] theorem discdq_chlpfHistR (P : Config.Params) (s : State) : (discdq P s).chlpfHistR = s.chlpfHistR :=
  (congrArg State.chlpfHistR (discdq_frame P s) :)
@[simp] theorem discdq_chlpfHistJ (P : Config.Params) (s : State) : (discdq P s).chlpfHistJ = s.chlpfHistJ :=
  (congrArg State.chlpfHistJ (discdq_frame P s) :)
@[simp] theorem discdq_dl (P : Config.Params) (s : State) : (discdq P s).dl = s.dl :=
  (congrArg State.dl (discdq_frame P s) :)
@[simp] theorem discdq_legacyState (P : Config.Params) (s : State) : (discdq P s).legacyState = s.legacyState :=
  (congrArg State.legacyState (discdq_frame P s) :)

/-- DISCRAW changes no field but `out`. -/
theorem discraw_frame (s : State) :
    discraw s = { s with out := (discraw s).out } := by
  rfl

@[simp] theorem discraw_cmds (s : State) : (discraw s).cmds = s.cmds := (congrArg State.cmds (discraw_frame s) :)
@[simp] theorem discraw_cp (s : State) : (discraw s).cp = s.cp := (congrArg State.cp (discraw_frame s) :)
@[simp] theorem discraw_samples (s : State) : (discraw s).samples = s.samples :=
  (congrArg State.samples (discraw_frame s) :)
@[simp] theorem discraw_outPort (s : State) : (discraw s).outPort = s.outPort :=
  (congrArg State.outPort (discraw_frame s) :)
@[simp] theorem discraw_snapshots (s : State) : (discraw s).snapshots = s.snapshots :=
  (congrArg State.snapshots (discraw_frame s) :)
@[simp] theorem discraw_buf (s : State) : (discraw s).buf = s.buf := (congrArg State.buf (discraw_frame s) :)
@[simp] theorem discraw_cfg (s : State) : (discraw s).cfg = s.cfg := (congrArg State.cfg (discraw_frame s) :)
@[simp] theorem discraw_err (s : State) : (discraw s).err = s.err := (congrArg State.err (discraw_frame s) :)
@[simp] theorem discraw_fll (s : State) : (discraw s).fll = s.fll := (congrArg State.fll (discraw_frame s) :)
@[simp] theorem discraw_ted (s : State) : (discraw s).ted = s.ted := (congrArg State.ted (discraw_frame s) :)
@[simp] theorem discraw_sql (s : State) : (discraw s).sql = s.sql := (congrArg State.sql (discraw_frame s) :)
@[simp] theorem discraw_cond (s : State) : (discraw s).cond = s.cond := (congrArg State.cond (discraw_frame s) :)
@[simp] theorem discraw_rrc (s : State) : (discraw s).rrc = s.rrc := (congrArg State.rrc (discraw_frame s) :)
@[simp] theorem discraw_rrcTaps (s : State) : (discraw s).rrcTaps = s.rrcTaps :=
  (congrArg State.rrcTaps (discraw_frame s) :)
@[simp] theorem discraw_hbHist (s : State) : (discraw s).hbHist = s.hbHist :=
  (congrArg State.hbHist (discraw_frame s) :)
@[simp] theorem discraw_chlpfHistR (s : State) : (discraw s).chlpfHistR = s.chlpfHistR :=
  (congrArg State.chlpfHistR (discraw_frame s) :)
@[simp] theorem discraw_chlpfHistJ (s : State) : (discraw s).chlpfHistJ = s.chlpfHistJ :=
  (congrArg State.chlpfHistJ (discraw_frame s) :)
@[simp] theorem discraw_dl (s : State) : (discraw s).dl = s.dl := (congrArg State.dl (discraw_frame s) :)
@[simp] theorem discraw_legacyState (s : State) : (discraw s).legacyState = s.legacyState :=
  (congrArg State.legacyState (discraw_frame s) :)

/-- GATE changes no field but `out`, `sql`. -/
theorem gate_frame (s : State) :
    gate s = { s with out := (gate s).out, sql := (gate s).sql } := by
  rfl

@[simp] theorem gate_cmds (s : State) : (gate s).cmds = s.cmds := (congrArg State.cmds (gate_frame s) :)
@[simp] theorem gate_cp (s : State) : (gate s).cp = s.cp := (congrArg State.cp (gate_frame s) :)
@[simp] theorem gate_samples (s : State) : (gate s).samples = s.samples := (congrArg State.samples (gate_frame s) :)
@[simp] theorem gate_outPort (s : State) : (gate s).outPort = s.outPort := (congrArg State.outPort (gate_frame s) :)
@[simp] theorem gate_snapshots (s : State) : (gate s).snapshots = s.snapshots :=
  (congrArg State.snapshots (gate_frame s) :)
@[simp] theorem gate_buf (s : State) : (gate s).buf = s.buf := (congrArg State.buf (gate_frame s) :)
@[simp] theorem gate_cfg (s : State) : (gate s).cfg = s.cfg := (congrArg State.cfg (gate_frame s) :)
@[simp] theorem gate_err (s : State) : (gate s).err = s.err := (congrArg State.err (gate_frame s) :)
@[simp] theorem gate_fll (s : State) : (gate s).fll = s.fll := (congrArg State.fll (gate_frame s) :)
@[simp] theorem gate_ted (s : State) : (gate s).ted = s.ted := (congrArg State.ted (gate_frame s) :)
@[simp] theorem gate_cond (s : State) : (gate s).cond = s.cond := (congrArg State.cond (gate_frame s) :)
@[simp] theorem gate_rrc (s : State) : (gate s).rrc = s.rrc := (congrArg State.rrc (gate_frame s) :)
@[simp] theorem gate_rrcTaps (s : State) : (gate s).rrcTaps = s.rrcTaps := (congrArg State.rrcTaps (gate_frame s) :)
@[simp] theorem gate_hbHist (s : State) : (gate s).hbHist = s.hbHist := (congrArg State.hbHist (gate_frame s) :)
@[simp] theorem gate_chlpfHistR (s : State) : (gate s).chlpfHistR = s.chlpfHistR :=
  (congrArg State.chlpfHistR (gate_frame s) :)
@[simp] theorem gate_chlpfHistJ (s : State) : (gate s).chlpfHistJ = s.chlpfHistJ :=
  (congrArg State.chlpfHistJ (gate_frame s) :)
@[simp] theorem gate_dl (s : State) : (gate s).dl = s.dl := (congrArg State.dl (gate_frame s) :)
@[simp] theorem gate_legacyState (s : State) : (gate s).legacyState = s.legacyState :=
  (congrArg State.legacyState (gate_frame s) :)

/-- EMIT changes no field but `outPort`. -/
theorem emit_frame (s : State) :
    emit s = { s with outPort := (emit s).outPort } := by
  rfl

@[simp] theorem emit_cmds (s : State) : (emit s).cmds = s.cmds := (congrArg State.cmds (emit_frame s) :)
@[simp] theorem emit_cp (s : State) : (emit s).cp = s.cp := (congrArg State.cp (emit_frame s) :)
@[simp] theorem emit_samples (s : State) : (emit s).samples = s.samples := (congrArg State.samples (emit_frame s) :)
@[simp] theorem emit_snapshots (s : State) : (emit s).snapshots = s.snapshots :=
  (congrArg State.snapshots (emit_frame s) :)
@[simp] theorem emit_buf (s : State) : (emit s).buf = s.buf := (congrArg State.buf (emit_frame s) :)
@[simp] theorem emit_out (s : State) : (emit s).out = s.out := (congrArg State.out (emit_frame s) :)
@[simp] theorem emit_cfg (s : State) : (emit s).cfg = s.cfg := (congrArg State.cfg (emit_frame s) :)
@[simp] theorem emit_err (s : State) : (emit s).err = s.err := (congrArg State.err (emit_frame s) :)
@[simp] theorem emit_fll (s : State) : (emit s).fll = s.fll := (congrArg State.fll (emit_frame s) :)
@[simp] theorem emit_ted (s : State) : (emit s).ted = s.ted := (congrArg State.ted (emit_frame s) :)
@[simp] theorem emit_sql (s : State) : (emit s).sql = s.sql := (congrArg State.sql (emit_frame s) :)
@[simp] theorem emit_cond (s : State) : (emit s).cond = s.cond := (congrArg State.cond (emit_frame s) :)
@[simp] theorem emit_rrc (s : State) : (emit s).rrc = s.rrc := (congrArg State.rrc (emit_frame s) :)
@[simp] theorem emit_rrcTaps (s : State) : (emit s).rrcTaps = s.rrcTaps := (congrArg State.rrcTaps (emit_frame s) :)
@[simp] theorem emit_hbHist (s : State) : (emit s).hbHist = s.hbHist := (congrArg State.hbHist (emit_frame s) :)
@[simp] theorem emit_chlpfHistR (s : State) : (emit s).chlpfHistR = s.chlpfHistR :=
  (congrArg State.chlpfHistR (emit_frame s) :)
@[simp] theorem emit_chlpfHistJ (s : State) : (emit s).chlpfHistJ = s.chlpfHistJ :=
  (congrArg State.chlpfHistJ (emit_frame s) :)
@[simp] theorem emit_dl (s : State) : (emit s).dl = s.dl := (congrArg State.dl (emit_frame s) :)
@[simp] theorem emit_legacyState (s : State) : (emit s).legacyState = s.legacyState :=
  (congrArg State.legacyState (emit_frame s) :)

/-- The record of a halted BLK changes no field but `outPort`. -/
theorem errorRecord_frame (s : State) :
    errorRecord s = { s with outPort := (errorRecord s).outPort } := by
  rfl

@[simp] theorem errorRecord_cmds (s : State) : (errorRecord s).cmds = s.cmds :=
  (congrArg State.cmds (errorRecord_frame s) :)
@[simp] theorem errorRecord_cp (s : State) : (errorRecord s).cp = s.cp := (congrArg State.cp (errorRecord_frame s) :)
@[simp] theorem errorRecord_samples (s : State) : (errorRecord s).samples = s.samples :=
  (congrArg State.samples (errorRecord_frame s) :)
@[simp] theorem errorRecord_snapshots (s : State) : (errorRecord s).snapshots = s.snapshots :=
  (congrArg State.snapshots (errorRecord_frame s) :)
@[simp] theorem errorRecord_buf (s : State) : (errorRecord s).buf = s.buf :=
  (congrArg State.buf (errorRecord_frame s) :)
@[simp] theorem errorRecord_out (s : State) : (errorRecord s).out = s.out :=
  (congrArg State.out (errorRecord_frame s) :)
@[simp] theorem errorRecord_cfg (s : State) : (errorRecord s).cfg = s.cfg :=
  (congrArg State.cfg (errorRecord_frame s) :)
@[simp] theorem errorRecord_err (s : State) : (errorRecord s).err = s.err :=
  (congrArg State.err (errorRecord_frame s) :)
@[simp] theorem errorRecord_fll (s : State) : (errorRecord s).fll = s.fll :=
  (congrArg State.fll (errorRecord_frame s) :)
@[simp] theorem errorRecord_ted (s : State) : (errorRecord s).ted = s.ted :=
  (congrArg State.ted (errorRecord_frame s) :)
@[simp] theorem errorRecord_sql (s : State) : (errorRecord s).sql = s.sql :=
  (congrArg State.sql (errorRecord_frame s) :)
@[simp] theorem errorRecord_cond (s : State) : (errorRecord s).cond = s.cond :=
  (congrArg State.cond (errorRecord_frame s) :)
@[simp] theorem errorRecord_rrc (s : State) : (errorRecord s).rrc = s.rrc :=
  (congrArg State.rrc (errorRecord_frame s) :)
@[simp] theorem errorRecord_rrcTaps (s : State) : (errorRecord s).rrcTaps = s.rrcTaps :=
  (congrArg State.rrcTaps (errorRecord_frame s) :)
@[simp] theorem errorRecord_hbHist (s : State) : (errorRecord s).hbHist = s.hbHist :=
  (congrArg State.hbHist (errorRecord_frame s) :)
@[simp] theorem errorRecord_chlpfHistR (s : State) : (errorRecord s).chlpfHistR = s.chlpfHistR :=
  (congrArg State.chlpfHistR (errorRecord_frame s) :)
@[simp] theorem errorRecord_chlpfHistJ (s : State) : (errorRecord s).chlpfHistJ = s.chlpfHistJ :=
  (congrArg State.chlpfHistJ (errorRecord_frame s) :)
@[simp] theorem errorRecord_dl (s : State) : (errorRecord s).dl = s.dl := (congrArg State.dl (errorRecord_frame s) :)
@[simp] theorem errorRecord_legacyState (s : State) : (errorRecord s).legacyState = s.legacyState :=
  (congrArg State.legacyState (errorRecord_frame s) :)

/-! ### The pipeline of BLK -/

theorem runIf_cmds {f : State → State} (h : ∀ t, (f t).cmds = t.cmds) (b : Bool) (s : State) :
    (runIf b f s).cmds = s.cmds := by
  cases b <;> simp [runIf, h]
theorem runIf_cp {f : State → State} (h : ∀ t, (f t).cp = t.cp) (b : Bool) (s : State) :
    (runIf b f s).cp = s.cp := by
  cases b <;> simp [runIf, h]
theorem runIf_samples {f : State → State} (h : ∀ t, (f t).samples = t.samples) (b : Bool) (s : State) :
    (runIf b f s).samples = s.samples := by
  cases b <;> simp [runIf, h]
theorem runIf_outPort {f : State → State} (h : ∀ t, (f t).outPort = t.outPort) (b : Bool) (s : State) :
    (runIf b f s).outPort = s.outPort := by
  cases b <;> simp [runIf, h]
theorem runIf_snapshots {f : State → State} (h : ∀ t, (f t).snapshots = t.snapshots) (b : Bool) (s : State) :
    (runIf b f s).snapshots = s.snapshots := by
  cases b <;> simp [runIf, h]
theorem runIf_out {f : State → State} (h : ∀ t, (f t).out = t.out) (b : Bool) (s : State) :
    (runIf b f s).out = s.out := by
  cases b <;> simp [runIf, h]
theorem runIf_cfg {f : State → State} (h : ∀ t, (f t).cfg = t.cfg) (b : Bool) (s : State) :
    (runIf b f s).cfg = s.cfg := by
  cases b <;> simp [runIf, h]
theorem runIf_err {f : State → State} (h : ∀ t, (f t).err = t.err) (b : Bool) (s : State) :
    (runIf b f s).err = s.err := by
  cases b <;> simp [runIf, h]
theorem runIf_fll {f : State → State} (h : ∀ t, (f t).fll = t.fll) (b : Bool) (s : State) :
    (runIf b f s).fll = s.fll := by
  cases b <;> simp [runIf, h]
theorem runIf_ted {f : State → State} (h : ∀ t, (f t).ted = t.ted) (b : Bool) (s : State) :
    (runIf b f s).ted = s.ted := by
  cases b <;> simp [runIf, h]
theorem runIf_sql {f : State → State} (h : ∀ t, (f t).sql = t.sql) (b : Bool) (s : State) :
    (runIf b f s).sql = s.sql := by
  cases b <;> simp [runIf, h]
theorem runIf_cond {f : State → State} (h : ∀ t, (f t).cond = t.cond) (b : Bool) (s : State) :
    (runIf b f s).cond = s.cond := by
  cases b <;> simp [runIf, h]
theorem runIf_rrc {f : State → State} (h : ∀ t, (f t).rrc = t.rrc) (b : Bool) (s : State) :
    (runIf b f s).rrc = s.rrc := by
  cases b <;> simp [runIf, h]
theorem runIf_rrcTaps {f : State → State} (h : ∀ t, (f t).rrcTaps = t.rrcTaps) (b : Bool) (s : State) :
    (runIf b f s).rrcTaps = s.rrcTaps := by
  cases b <;> simp [runIf, h]
theorem runIf_hbHist {f : State → State} (h : ∀ t, (f t).hbHist = t.hbHist) (b : Bool) (s : State) :
    (runIf b f s).hbHist = s.hbHist := by
  cases b <;> simp [runIf, h]
theorem runIf_chlpfHistR {f : State → State} (h : ∀ t, (f t).chlpfHistR = t.chlpfHistR) (b : Bool) (s : State) :
    (runIf b f s).chlpfHistR = s.chlpfHistR := by
  cases b <;> simp [runIf, h]
theorem runIf_chlpfHistJ {f : State → State} (h : ∀ t, (f t).chlpfHistJ = t.chlpfHistJ) (b : Bool) (s : State) :
    (runIf b f s).chlpfHistJ = s.chlpfHistJ := by
  cases b <;> simp [runIf, h]
theorem runIf_dl {f : State → State} (h : ∀ t, (f t).dl = t.dl) (b : Bool) (s : State) :
    (runIf b f s).dl = s.dl := by
  cases b <;> simp [runIf, h]
theorem runIf_legacyState {f : State → State} (h : ∀ t, (f t).legacyState = t.legacyState) (b : Bool) (s : State) :
    (runIf b f s).legacyState = s.legacyState := by
  cases b <;> simp [runIf, h]

@[simp] theorem blkDecimate_cmds (P : Config.Params) (s : State) : (blkDecimate P s).cmds = s.cmds := by
  unfold blkDecimate; split_ifs <;> simp
@[simp] theorem blkFront_cmds (P : Config.Params) (s : State) : (blkFront P s).cmds = s.cmds := by
  simp [blkFront, runIf_cmds]
@[simp] theorem blkDecimate_cp (P : Config.Params) (s : State) : (blkDecimate P s).cp = s.cp := by
  unfold blkDecimate; split_ifs <;> simp
@[simp] theorem blkFront_cp (P : Config.Params) (s : State) : (blkFront P s).cp = s.cp := by
  simp [blkFront, runIf_cp]
@[simp] theorem blkDecimate_samples (P : Config.Params) (s : State) : (blkDecimate P s).samples = s.samples := by
  unfold blkDecimate; split_ifs <;> simp
@[simp] theorem blkFront_samples (P : Config.Params) (s : State) : (blkFront P s).samples = s.samples := by
  simp [blkFront, runIf_samples]
@[simp] theorem blkDecimate_outPort (P : Config.Params) (s : State) : (blkDecimate P s).outPort = s.outPort := by
  unfold blkDecimate; split_ifs <;> simp
@[simp] theorem blkFront_outPort (P : Config.Params) (s : State) : (blkFront P s).outPort = s.outPort := by
  simp [blkFront, runIf_outPort]
@[simp] theorem blkDecimate_snapshots (P : Config.Params) (s : State) : (blkDecimate P s).snapshots = s.snapshots := by
  unfold blkDecimate; split_ifs <;> simp
@[simp] theorem blkFront_snapshots (P : Config.Params) (s : State) : (blkFront P s).snapshots = s.snapshots := by
  simp [blkFront, runIf_snapshots]
@[simp] theorem blkDecimate_out (P : Config.Params) (s : State) : (blkDecimate P s).out = s.out := by
  unfold blkDecimate; split_ifs <;> simp
@[simp] theorem blkFront_out (P : Config.Params) (s : State) : (blkFront P s).out = s.out := by
  simp [blkFront, runIf_out]
@[simp] theorem blkDecimate_cfg (P : Config.Params) (s : State) : (blkDecimate P s).cfg = s.cfg := by
  unfold blkDecimate; split_ifs <;> simp
@[simp] theorem blkFront_cfg (P : Config.Params) (s : State) : (blkFront P s).cfg = s.cfg := by
  simp [blkFront, runIf_cfg]
@[simp] theorem blkDecimate_err (P : Config.Params) (s : State) : (blkDecimate P s).err = s.err := by
  unfold blkDecimate; split_ifs <;> simp
@[simp] theorem blkFront_err (P : Config.Params) (s : State) : (blkFront P s).err = s.err := by
  simp [blkFront, runIf_err]
@[simp] theorem blkDecimate_fll (P : Config.Params) (s : State) : (blkDecimate P s).fll = s.fll := by
  unfold blkDecimate; split_ifs <;> simp
@[simp] theorem blkFront_fll (P : Config.Params) (s : State) : (blkFront P s).fll = s.fll := by
  simp [blkFront, runIf_fll]
@[simp] theorem blkDecimate_ted (P : Config.Params) (s : State) : (blkDecimate P s).ted = s.ted := by
  unfold blkDecimate; split_ifs <;> simp
@[simp] theorem blkFront_ted (P : Config.Params) (s : State) : (blkFront P s).ted = s.ted := by
  simp [blkFront, runIf_ted]
@[simp] theorem blkDecimate_sql (P : Config.Params) (s : State) : (blkDecimate P s).sql = s.sql := by
  unfold blkDecimate; split_ifs <;> simp
@[simp] theorem blkFront_sql (P : Config.Params) (s : State) : (blkFront P s).sql = s.sql := by
  simp [blkFront, runIf_sql]
@[simp] theorem blkDecimate_cond (P : Config.Params) (s : State) : (blkDecimate P s).cond = s.cond := by
  unfold blkDecimate; split_ifs <;> simp
@[simp] theorem blkFront_cond (P : Config.Params) (s : State) : (blkFront P s).cond = s.cond := by
  simp [blkFront, runIf_cond]
@[simp] theorem blkDecimate_rrc (P : Config.Params) (s : State) : (blkDecimate P s).rrc = s.rrc := by
  unfold blkDecimate; split_ifs <;> simp
@[simp] theorem blkFront_rrc (P : Config.Params) (s : State) : (blkFront P s).rrc = s.rrc := by
  simp [blkFront, runIf_rrc]
@[simp] theorem blkDecimate_rrcTaps (P : Config.Params) (s : State) : (blkDecimate P s).rrcTaps = s.rrcTaps := by
  unfold blkDecimate; split_ifs <;> simp
@[simp] theorem blkFront_rrcTaps (P : Config.Params) (s : State) : (blkFront P s).rrcTaps = s.rrcTaps := by
  simp [blkFront, runIf_rrcTaps]
@[simp] theorem blkDecimate_dl (P : Config.Params) (s : State) : (blkDecimate P s).dl = s.dl := by
  unfold blkDecimate; split_ifs <;> simp
@[simp] theorem blkFront_dl (P : Config.Params) (s : State) : (blkFront P s).dl = s.dl := by
  simp [blkFront, runIf_dl]

@[simp] theorem blkFll_cmds (P : Config.Params) (s : State) : (blkFll P s).cmds = s.cmds := by
  unfold blkFll; split_ifs <;> simp
@[simp] theorem blkFilter_cmds (P : Config.Params) (s : State) : (blkFilter P s).cmds = s.cmds := by
  unfold blkFilter; split_ifs <;> simp
@[simp] theorem blkTed_cmds (P : Config.Params) (s : State) : (blkTed P s).cmds = s.cmds := by
  unfold blkTed; split_ifs <;> simp
@[simp] theorem blkDisc_cmds (P : Config.Params) (s : State) : (blkDisc P s).cmds = s.cmds := by
  unfold blkDisc; split_ifs <;> simp
@[simp] theorem blkBack_cmds (P : Config.Params) (s : State) : (blkBack P s).cmds = s.cmds := by
  simp [blkBack, runIf_cmds]
@[simp] theorem blkFll_cp (P : Config.Params) (s : State) : (blkFll P s).cp = s.cp := by
  unfold blkFll; split_ifs <;> simp
@[simp] theorem blkFilter_cp (P : Config.Params) (s : State) : (blkFilter P s).cp = s.cp := by
  unfold blkFilter; split_ifs <;> simp
@[simp] theorem blkTed_cp (P : Config.Params) (s : State) : (blkTed P s).cp = s.cp := by
  unfold blkTed; split_ifs <;> simp
@[simp] theorem blkDisc_cp (P : Config.Params) (s : State) : (blkDisc P s).cp = s.cp := by
  unfold blkDisc; split_ifs <;> simp
@[simp] theorem blkBack_cp (P : Config.Params) (s : State) : (blkBack P s).cp = s.cp := by
  simp [blkBack, runIf_cp]
@[simp] theorem blkFll_samples (P : Config.Params) (s : State) : (blkFll P s).samples = s.samples := by
  unfold blkFll; split_ifs <;> simp
@[simp] theorem blkFilter_samples (P : Config.Params) (s : State) : (blkFilter P s).samples = s.samples := by
  unfold blkFilter; split_ifs <;> simp
@[simp] theorem blkTed_samples (P : Config.Params) (s : State) : (blkTed P s).samples = s.samples := by
  unfold blkTed; split_ifs <;> simp
@[simp] theorem blkDisc_samples (P : Config.Params) (s : State) : (blkDisc P s).samples = s.samples := by
  unfold blkDisc; split_ifs <;> simp
@[simp] theorem blkBack_samples (P : Config.Params) (s : State) : (blkBack P s).samples = s.samples := by
  simp [blkBack, runIf_samples]
@[simp] theorem blkFll_outPort (P : Config.Params) (s : State) : (blkFll P s).outPort = s.outPort := by
  unfold blkFll; split_ifs <;> simp
@[simp] theorem blkFilter_outPort (P : Config.Params) (s : State) : (blkFilter P s).outPort = s.outPort := by
  unfold blkFilter; split_ifs <;> simp
@[simp] theorem blkTed_outPort (P : Config.Params) (s : State) : (blkTed P s).outPort = s.outPort := by
  unfold blkTed; split_ifs <;> simp
@[simp] theorem blkDisc_outPort (P : Config.Params) (s : State) : (blkDisc P s).outPort = s.outPort := by
  unfold blkDisc; split_ifs <;> simp
@[simp] theorem blkBack_outPort (P : Config.Params) (s : State) : (blkBack P s).outPort = s.outPort := by
  simp [blkBack, runIf_outPort]
@[simp] theorem blkFll_snapshots (P : Config.Params) (s : State) : (blkFll P s).snapshots = s.snapshots := by
  unfold blkFll; split_ifs <;> simp
@[simp] theorem blkFilter_snapshots (P : Config.Params) (s : State) : (blkFilter P s).snapshots = s.snapshots := by
  unfold blkFilter; split_ifs <;> simp
@[simp] theorem blkTed_snapshots (P : Config.Params) (s : State) : (blkTed P s).snapshots = s.snapshots := by
  unfold blkTed; split_ifs <;> simp
@[simp] theorem blkDisc_snapshots (P : Config.Params) (s : State) : (blkDisc P s).snapshots = s.snapshots := by
  unfold blkDisc; split_ifs <;> simp
@[simp] theorem blkBack_snapshots (P : Config.Params) (s : State) : (blkBack P s).snapshots = s.snapshots := by
  simp [blkBack, runIf_snapshots]
@[simp] theorem blkFll_cfg (P : Config.Params) (s : State) : (blkFll P s).cfg = s.cfg := by
  unfold blkFll; split_ifs <;> simp
@[simp] theorem blkFilter_cfg (P : Config.Params) (s : State) : (blkFilter P s).cfg = s.cfg := by
  unfold blkFilter; split_ifs <;> simp
@[simp] theorem blkTed_cfg (P : Config.Params) (s : State) : (blkTed P s).cfg = s.cfg := by
  unfold blkTed; split_ifs <;> simp
@[simp] theorem blkDisc_cfg (P : Config.Params) (s : State) : (blkDisc P s).cfg = s.cfg := by
  unfold blkDisc; split_ifs <;> simp
@[simp] theorem blkBack_cfg (P : Config.Params) (s : State) : (blkBack P s).cfg = s.cfg := by
  simp [blkBack, runIf_cfg]
@[simp] theorem blkFll_err (P : Config.Params) (s : State) : (blkFll P s).err = s.err := by
  unfold blkFll; split_ifs <;> simp
@[simp] theorem blkFilter_err (P : Config.Params) (s : State) : (blkFilter P s).err = s.err := by
  unfold blkFilter; split_ifs <;> simp
@[simp] theorem blkTed_err (P : Config.Params) (s : State) : (blkTed P s).err = s.err := by
  unfold blkTed; split_ifs <;> simp
@[simp] theorem blkDisc_err (P : Config.Params) (s : State) : (blkDisc P s).err = s.err := by
  unfold blkDisc; split_ifs <;> simp
@[simp] theorem blkBack_err (P : Config.Params) (s : State) : (blkBack P s).err = s.err := by
  simp [blkBack, runIf_err]
@[simp] theorem blkFll_hbHist (P : Config.Params) (s : State) : (blkFll P s).hbHist = s.hbHist := by
  unfold blkFll; split_ifs <;> simp
@[simp] theorem blkFilter_hbHist (P : Config.Params) (s : State) : (blkFilter P s).hbHist = s.hbHist := by
  unfold blkFilter; split_ifs <;> simp
@[simp] theorem blkTed_hbHist (P : Config.Params) (s : State) : (blkTed P s).hbHist = s.hbHist := by
  unfold blkTed; split_ifs <;> simp
@[simp] theorem blkDisc_hbHist (P : Config.Params) (s : State) : (blkDisc P s).hbHist = s.hbHist := by
  unfold blkDisc; split_ifs <;> simp
@[simp] theorem blkBack_hbHist (P : Config.Params) (s : State) : (blkBack P s).hbHist = s.hbHist := by
  simp [blkBack, runIf_hbHist]
@[simp] theorem blkFll_chlpfHistR (P : Config.Params) (s : State) : (blkFll P s).chlpfHistR = s.chlpfHistR := by
  unfold blkFll; split_ifs <;> simp
@[simp] theorem blkFilter_chlpfHistR (P : Config.Params) (s : State) : (blkFilter P s).chlpfHistR = s.chlpfHistR := by
  unfold blkFilter; split_ifs <;> simp
@[simp] theorem blkTed_chlpfHistR (P : Config.Params) (s : State) : (blkTed P s).chlpfHistR = s.chlpfHistR := by
  unfold blkTed; split_ifs <;> simp
@[simp] theorem blkDisc_chlpfHistR (P : Config.Params) (s : State) : (blkDisc P s).chlpfHistR = s.chlpfHistR := by
  unfold blkDisc; split_ifs <;> simp
@[simp] theorem blkBack_chlpfHistR (P : Config.Params) (s : State) : (blkBack P s).chlpfHistR = s.chlpfHistR := by
  simp [blkBack, runIf_chlpfHistR]
@[simp] theorem blkFll_chlpfHistJ (P : Config.Params) (s : State) : (blkFll P s).chlpfHistJ = s.chlpfHistJ := by
  unfold blkFll; split_ifs <;> simp
@[simp] theorem blkFilter_chlpfHistJ (P : Config.Params) (s : State) : (blkFilter P s).chlpfHistJ = s.chlpfHistJ := by
  unfold blkFilter; split_ifs <;> simp
@[simp] theorem blkTed_chlpfHistJ (P : Config.Params) (s : State) : (blkTed P s).chlpfHistJ = s.chlpfHistJ := by
  unfold blkTed; split_ifs <;> simp
@[simp] theorem blkDisc_chlpfHistJ (P : Config.Params) (s : State) : (blkDisc P s).chlpfHistJ = s.chlpfHistJ := by
  unfold blkDisc; split_ifs <;> simp
@[simp] theorem blkBack_chlpfHistJ (P : Config.Params) (s : State) : (blkBack P s).chlpfHistJ = s.chlpfHistJ := by
  simp [blkBack, runIf_chlpfHistJ]
@[simp] theorem blkFll_legacyState (P : Config.Params) (s : State) : (blkFll P s).legacyState = s.legacyState := by
  unfold blkFll; split_ifs <;> simp
@[simp] theorem blkFilter_legacyState (P : Config.Params) (s : State) : (blkFilter P s).legacyState = s.legacyState := by
  unfold blkFilter; split_ifs <;> simp
@[simp] theorem blkTed_legacyState (P : Config.Params) (s : State) : (blkTed P s).legacyState = s.legacyState := by
  unfold blkTed; split_ifs <;> simp
@[simp] theorem blkDisc_legacyState (P : Config.Params) (s : State) : (blkDisc P s).legacyState = s.legacyState := by
  unfold blkDisc; split_ifs <;> simp
@[simp] theorem blkBack_legacyState (P : Config.Params) (s : State) : (blkBack P s).legacyState = s.legacyState := by
  simp [blkBack, runIf_legacyState]

end Sys2Proof.Machine
end

