-- ==== Sys2Proof/Laws/Memory.lean ====
section
/-! SUPPORT. The storage arrays: what a write leaves to be read, and that every operation keeps the canonical form. -/

namespace Sys2Proof.Machine

theorem Memory.wfFrom_mono {m : Memory} {lo lo' : Nat} (h : lo' ≤ lo) (hm : Memory.wfFrom lo m = true) :
    Memory.wfFrom lo' m = true := by
  cases m with
  | nil => rfl
  | cons p rest =>
    simp only [Memory.wfFrom, Bool.and_eq_true, decide_eq_true_eq] at hm ⊢
    exact ⟨⟨by omega, hm.1.2⟩, hm.2⟩

/-- Below its first listed element a canonical array reads as zero. -/
theorem Memory.read_below {m : Memory} {lo a : Nat} (hm : Memory.wfFrom lo m = true) (h : a < lo) : m.read a = 0 := by
  induction m generalizing lo with
  | nil => rfl
  | cons p rest ih =>
    simp only [Memory.wfFrom, Bool.and_eq_true, decide_eq_true_eq] at hm
    rw [Memory.read, if_neg (by omega)]
    exact ih hm.2 (by omega)

theorem Memory.wfFrom_write {m : Memory} {lo a : Nat} {v : Int} (hm : Memory.wfFrom lo m = true) (h : lo ≤ a) :
    Memory.wfFrom lo (m.write a v) = true := by
  induction m generalizing lo with
  | nil =>
    unfold Memory.write
    split_ifs with hv
    · rfl
    · simp [Memory.wfFrom, h]; exact hv
  | cons p rest ih =>
    obtain ⟨b, w⟩ := p
    have hm' := hm
    simp only [Memory.wfFrom, Bool.and_eq_true, decide_eq_true_eq] at hm
    unfold Memory.write
    split_ifs with h1 h2 h3 h4
    · exact hm'
    · simp only [Memory.wfFrom, Bool.and_eq_true, decide_eq_true_eq]
      exact ⟨⟨h, h2⟩, ⟨by omega, hm.1.2⟩, hm.2⟩
    · exact Memory.wfFrom_mono (by omega) hm.2
    · simp only [Memory.wfFrom, Bool.and_eq_true, decide_eq_true_eq]
      exact ⟨⟨h, h4⟩, h3 ▸ hm.2⟩
    · simp only [Memory.wfFrom, Bool.and_eq_true, decide_eq_true_eq]
      exact ⟨hm.1, ih hm.2 (by omega)⟩

/-- A write keeps the canonical form. -/
theorem Memory.wf_write {m : Memory} (hm : Memory.wf m = true) (a : Nat) (v : Int) : Memory.wf (m.write a v) = true :=
  Memory.wfFrom_write hm (Nat.zero_le a)

theorem Memory.read_write_from {m : Memory} {lo : Nat} (hm : Memory.wfFrom lo m = true) (a b : Nat) (v : Int) :
    (m.write a v).read b = if b = a then v else m.read b := by
  induction m generalizing lo with
  | nil =>
    unfold Memory.write
    split_ifs with h1 h2 h2
    · subst h2; simp [Memory.read, h1]
    · rfl
    · simp [Memory.read, h2]
    · simp [Memory.read, h2]
  | cons p rest ih =>
    obtain ⟨c, w⟩ := p
    have hm' := hm
    simp only [Memory.wfFrom, Bool.and_eq_true, decide_eq_true_eq] at hm
    unfold Memory.write
    split_ifs with h1 h2 h3 h4 h5 h6 h7 h8
    · subst h3
      rw [Memory.read_below (lo := c) (by simp [Memory.wfFrom, hm.1.2, hm.2]) h1, h2]; rfl
    · rfl
    · simp [Memory.read, h4]
    · simp [Memory.read, h4]
    · subst h7 h5
      rw [Memory.read_below hm.2 (by omega), h6]; rfl
    · subst h5
      rw [Memory.read, if_neg h7]
    · simp [Memory.read, h8]
    · subst h5
      simp [Memory.read, h8]
    · next h =>
        subst h
        rw [Memory.read, if_neg h5, ih hm.2, if_pos rfl]
    · next h =>
        rw [Memory.read, Memory.read, ih hm.2]
        simp [h]

/-- R14: a read gives the value last written to the same element, and any other element is unchanged. -/
theorem Memory.read_write {m : Memory} (hm : Memory.wf m = true) (a b : Nat) (v : Int) :
    (m.write a v).read b = if b = a then v else m.read b :=
  Memory.read_write_from hm a b v

theorem writeSlot_wf {m : Memory} (hm : Memory.wf m = true) (i : Nat) (x : Cplx) : Memory.wf (writeSlot m i x) = true :=
  Memory.wf_write (Memory.wf_write hm _ _) _ _

/-- R65: a slot reads back what was last written to it, and any other slot is unchanged. -/
theorem readSlot_writeSlot {m : Memory} (hm : Memory.wf m = true) (i j : Nat) (x : Cplx) :
    readSlot (writeSlot m i x) j = if j = i then x else readSlot m j := by
  unfold readSlot writeSlot
  simp only [Memory.read_write (Memory.wf_write hm _ _), Memory.read_write hm]
  by_cases h : j = i
  · subst h; simp
  · rw [if_neg h, if_neg (by omega), if_neg (by omega), if_neg (by omega), if_neg (by omega)]

theorem pushDl_wf (P : Config.Params) {m : Memory} (hm : Memory.wf m = true) (idx : Nat) (x : Cplx) :
    Memory.wf (pushDl P idx x m) = true :=
  writeSlot_wf (writeSlot_wf hm _ _) _ _

/-- R100: after a push the two slots of the index hold the sample and every other slot is unchanged. -/
theorem readSlot_pushDl (P : Config.Params) {m : Memory} (hm : Memory.wf m = true) (idx j : Nat) (x : Cplx) :
    readSlot (pushDl P idx x m) j = if j = idx ∨ j = idx + P.tedDlSize then x else readSlot m j := by
  unfold pushDl
  rw [readSlot_writeSlot (writeSlot_wf hm _ _), readSlot_writeSlot hm]
  split_ifs <;> simp_all

/-- R100: a push changes only the four elements of its two slots. -/
theorem read_pushDl_of_ne (P : Config.Params) {m : Memory} (hm : Memory.wf m = true) (idx a : Nat) (x : Cplx)
    (h : a / 2 ≠ idx) (h' : a / 2 ≠ idx + P.tedDlSize) : (pushDl P idx x m).read a = m.read a := by
  have w1 := Memory.wf_write hm (2 * idx) x.1
  have w2 := Memory.wf_write w1 (2 * idx + 1) x.2
  have w3 := Memory.wf_write w2 (2 * (idx + P.tedDlSize)) x.1
  unfold pushDl writeSlot
  rw [Memory.read_write w3, Memory.read_write w2, Memory.read_write w1, Memory.read_write hm]
  rw [if_neg (by omega), if_neg (by omega), if_neg (by omega), if_neg (by omega)]

/-- R100: a push of int16 values leaves int16 values. -/
theorem pushDl_isInt16 (P : Config.Params) {m : Memory} (hm : Memory.wf m = true) (hv : ∀ a, IsInt16 (m.read a))
    (idx : Nat) {x : Cplx} (hx : IsInt16Pair x) : ∀ a, IsInt16 ((pushDl P idx x m).read a) := by
  intro a
  have w1 := Memory.wf_write hm (2 * idx) x.1
  have w2 := Memory.wf_write w1 (2 * idx + 1) x.2
  have w3 := Memory.wf_write w2 (2 * (idx + P.tedDlSize)) x.1
  unfold pushDl writeSlot
  rw [Memory.read_write w3, Memory.read_write w2, Memory.read_write w1, Memory.read_write hm]
  have h1 := hx.1
  have h2 := hx.2
  have h3 := hv a
  split_ifs <;> assumption

/-- The delay line is empty at reset, which is its canonical form. -/
theorem State.reset_dl_wf : Memory.wf State.reset.dl = true := rfl

end Sys2Proof.Machine
end

