-- ==== Sys2Proof/Laws/Numeric.lean ====
section
/-! SUPPORT. The small lemmas of the rounding and range primitives, of the interleaved view, and of the list walks. -/

namespace Sys2Proof.Machine

/-! ### Ranges -/

theorem clampInt_mem (v : Int) {lo hi : Int} (h : lo ≤ hi) : lo ≤ clampInt v lo hi ∧ clampInt v lo hi ≤ hi := by
  unfold clampInt; omega

theorem clampInt_of_mem {v lo hi : Int} (h : lo ≤ v) (h' : v ≤ hi) : clampInt v lo hi = v := by
  unfold clampInt; omega

theorem clampRat_mem (v : Rat) {lo hi : Rat} (h : lo ≤ hi) : lo ≤ clampRat v lo hi ∧ clampRat v lo hi ≤ hi :=
  ⟨le_min (le_max_right _ _) h, min_le_right _ _⟩

theorem sat16_isInt16 (v : Int) : IsInt16 (sat16 v) := by
  unfold sat16 IsInt16 clampInt; omega

theorem sat16_of_isInt16 {v : Int} (h : IsInt16 v) : sat16 v = v := clampInt_of_mem h.1 h.2

theorem sat32_mem (v : Int) : -2 ^ 31 ≤ sat32 v ∧ sat32 v ≤ 2 ^ 31 - 1 := by
  unfold sat32 clampInt; omega

theorem clearBit0_even (x : Nat) : clearBit0 x % 2 = 0 := by unfold clearBit0; omega

theorem clearBit0_le (x : Nat) : clearBit0 x ≤ x := by unfold clearBit0; omega

/-! ### Rounded shifts -/

@[simp] theorem rsh_zero (k : Nat) : rsh 0 k = 0 := by
  unfold rsh; split_ifs <;> simp

theorem rsh_of_nonneg {v : Int} (h : 0 ≤ v) {k : Nat} (hk : k ≠ 0) : rsh v k = (v + 2 ^ (k - 1)) / 2 ^ k := by
  obtain ⟨n, rfl⟩ := Int.eq_ofNat_of_zero_le h
  rcases Nat.eq_zero_or_pos n with rfl | hn
  · have : (2 : Int) ^ (k - 1) < 2 ^ k := by
      exact_mod_cast Nat.pow_lt_pow_right (by decide) (by omega)
    simp only [Nat.cast_zero, rsh_zero, zero_add]
    exact (Int.ediv_eq_zero_of_lt (by positivity) this).symm
  · rw [rsh, if_neg hk, Int.sign_natCast_of_ne_zero (by omega)]
    simp

/-- R11: `rsh` is odd in the sense that a negative argument takes the negated value. -/
theorem rsh_of_nonpos {v : Int} (h : v ≤ 0) (k : Nat) : rsh v k = -rsh v.natAbs k := by
  rcases eq_or_lt_of_le h with rfl | hv
  · simp
  · unfold rsh
    split_ifs
    · omega
    · rw [Int.sign_eq_neg_one_of_neg hv, Int.sign_natCast_of_ne_zero (by omega)]
      simp

/-- A rounded shift of a value that is not negative lies between 0 and it. -/
theorem rsh_between_of_nonneg {v : Int} (h : 0 ≤ v) (k : Nat) : 0 ≤ rsh v k ∧ rsh v k ≤ v := by
  rcases Nat.eq_zero_or_pos k with rfl | hk
  · simp [rsh, h]
  · rw [rsh_of_nonneg h (by omega)]
    have e : (2 : Int) ^ k = 2 * 2 ^ (k - 1) := by
      rw [← pow_succ', Nat.sub_add_cancel hk]
    have p : (1 : Int) ≤ 2 ^ (k - 1) := by exact_mod_cast Nat.one_le_two_pow
    rw [e]
    generalize (2 : Int) ^ (k - 1) = c at p
    refine ⟨Int.ediv_nonneg (by omega) (by omega), ?_⟩
    rcases eq_or_lt_of_le h with rfl | hv
    · exact (Int.ediv_eq_zero_of_lt (by omega) (by omega)).le
    · refine Int.le_of_lt_add_one (Int.ediv_lt_of_lt_mul (by omega) ?_)
      nlinarith

/-- A rounded shift of a value that is not positive lies between it and 0. -/
theorem rsh_between_of_nonpos {v : Int} (h : v ≤ 0) (k : Nat) : v ≤ rsh v k ∧ rsh v k ≤ 0 := by
  have := rsh_between_of_nonneg (Int.natCast_nonneg v.natAbs) k
  rw [rsh_of_nonpos h]; omega

theorem rsh_mono_of_nonneg {v w : Int} (h : 0 ≤ v) (hw : v ≤ w) (k : Nat) : rsh v k ≤ rsh w k := by
  rcases Nat.eq_zero_or_pos k with rfl | hk
  · simpa [rsh] using hw
  · rw [rsh_of_nonneg h (by omega), rsh_of_nonneg (h.trans hw) (by omega)]
    exact Int.ediv_le_ediv (by positivity) (by omega)

/-- R11: a multiple of 2^k is shifted exactly. -/
theorem rsh_mul_two_pow (v : Int) (k : Nat) : rsh (v * 2 ^ k) k = v := by
  rcases Nat.eq_zero_or_pos k with rfl | hk
  · simp [rsh]
  · have q : (0 : Int) < 2 ^ k := by positivity
    have l : (2 : Int) ^ (k - 1) < 2 ^ k := by
      exact_mod_cast Nat.pow_lt_pow_right (by decide) (by omega)
    have l0 : (0 : Int) ≤ 2 ^ (k - 1) := by positivity
    have pos : ∀ w : Int, 0 ≤ w → rsh (w * 2 ^ k) k = w := by
      intro w hw
      rw [rsh_of_nonneg (by positivity) (by omega), Int.add_comm, Int.add_mul_ediv_right _ _ q.ne',
        Int.ediv_eq_zero_of_lt l0 l, zero_add]
    rcases le_total 0 v with h | h
    · exact pos v h
    · rw [rsh_of_nonpos (Int.mul_nonpos_of_nonpos_of_nonneg h q.le), Int.natAbs_mul]
      have e : (((v.natAbs * ((2 : Int) ^ k).natAbs : Nat)) : Int) = (v.natAbs : Int) * 2 ^ k := by
        rw [Nat.cast_mul, Int.natCast_natAbs ((2 : Int) ^ k), abs_of_pos q]
      rw [e, pos _ (Int.natCast_nonneg _)]
      omega

/-- A Q15 coefficient in [0, 1] moves a value by no more than its distance, toward the target. -/
theorem rsh_scaled_between {a d : Int} (ha : 0 ≤ a) (ha' : a ≤ 32768) :
    (0 ≤ d → 0 ≤ rsh (a * d) 15 ∧ rsh (a * d) 15 ≤ d) ∧ (d ≤ 0 → d ≤ rsh (a * d) 15 ∧ rsh (a * d) 15 ≤ 0) := by
  have pos : ∀ e : Int, 0 ≤ e → 0 ≤ rsh (a * e) 15 ∧ rsh (a * e) 15 ≤ e := by
    intro e he
    refine ⟨(rsh_between_of_nonneg (by positivity) 15).1, ?_⟩
    have := rsh_mono_of_nonneg (w := e * 2 ^ 15) (by positivity) (by nlinarith) 15 (v := a * e)
    rwa [rsh_mul_two_pow] at this
  refine ⟨pos d, fun hd => ?_⟩
  have := pos (d.natAbs : Int) (by omega)
  rw [rsh_of_nonpos (by nlinarith), Int.natAbs_mul]
  have e : ((a.natAbs * d.natAbs : Nat) : Int) = a * (d.natAbs : Int) := by
    rw [Nat.cast_mul]; congr 1; omega
  rw [e]; omega

/-! ### Rounding rationals -/

theorem rnd_intCast (v : Int) : rnd (v : Rat) = v := by
  unfold rnd
  split_ifs with hv
  · have h1 : (-(v : Rat) + 1 / 2).floor < -v + 1 := by
      rw [Rat.floor_lt_iff]; push_cast; linarith
    have h2 : -v ≤ (-(v : Rat) + 1 / 2).floor := by
      rw [Rat.le_floor_iff]; push_cast; linarith
    omega
  · have h1 : ((v : Rat) + 1 / 2).floor < v + 1 := by
      rw [Rat.floor_lt_iff]; push_cast; linarith
    have h2 : v ≤ ((v : Rat) + 1 / 2).floor := by
      rw [Rat.le_floor_iff]; linarith
    omega

/-- Rounding keeps integer bounds. -/
theorem rnd_mem {q : Rat} {lo hi : Int} (h : (lo : Rat) ≤ q) (h' : q ≤ hi) : lo ≤ rnd q ∧ rnd q ≤ hi := by
  unfold rnd
  split_ifs with hq
  · have h1 : (-q + 1 / 2).floor < -lo + 1 := by
      rw [Rat.floor_lt_iff]; push_cast; linarith
    have h2 : -hi ≤ (-q + 1 / 2).floor := by
      rw [Rat.le_floor_iff]; push_cast; linarith
    omega
  · have h1 : (q + 1 / 2).floor < hi + 1 := by
      rw [Rat.floor_lt_iff]; push_cast; linarith
    have h2 : lo ≤ (q + 1 / 2).floor := by
      rw [Rat.le_floor_iff]; linarith
    omega

end Sys2Proof.Machine
end

