-- ==== Sys2Proof/Laws/State.lean ====
section
/-! SUPPORT. One lemma per field per update of the state, each true by `rfl`, so that no proof unfolds a record update. -/

namespace Sys2Proof.Machine

/-! ### CP -/

@[simp] theorem advance_cmds (n : Nat) (s : State) : (advance n s).cmds = s.cmds := rfl
@[simp] theorem advance_cp (n : Nat) (s : State) : (advance n s).cp = s.cp + n := rfl
@[simp] theorem advance_samples (n : Nat) (s : State) : (advance n s).samples = s.samples := rfl
@[simp] theorem advance_outPort (n : Nat) (s : State) : (advance n s).outPort = s.outPort := rfl
@[simp] theorem advance_snapshots (n : Nat) (s : State) : (advance n s).snapshots = s.snapshots := rfl
@[simp] theorem advance_buf (n : Nat) (s : State) : (advance n s).buf = s.buf := rfl
@[simp] theorem advance_out (n : Nat) (s : State) : (advance n s).out = s.out := rfl
@[simp] theorem advance_cfg (n : Nat) (s : State) : (advance n s).cfg = s.cfg := rfl
@[simp] theorem advance_err (n : Nat) (s : State) : (advance n s).err = s.err := rfl
@[simp] theorem advance_fll (n : Nat) (s : State) : (advance n s).fll = s.fll := rfl
@[simp] theorem advance_ted (n : Nat) (s : State) : (advance n s).ted = s.ted := rfl
@[simp] theorem advance_sql (n : Nat) (s : State) : (advance n s).sql = s.sql := rfl
@[simp] theorem advance_cond (n : Nat) (s : State) : (advance n s).cond = s.cond := rfl
@[simp] theorem advance_rrc (n : Nat) (s : State) : (advance n s).rrc = s.rrc := rfl
@[simp] theorem advance_rrcTaps (n : Nat) (s : State) : (advance n s).rrcTaps = s.rrcTaps := rfl
@[simp] theorem advance_hbHist (n : Nat) (s : State) : (advance n s).hbHist = s.hbHist := rfl
@[simp] theorem advance_chlpfHistR (n : Nat) (s : State) : (advance n s).chlpfHistR = s.chlpfHistR := rfl
@[simp] theorem advance_chlpfHistJ (n : Nat) (s : State) : (advance n s).chlpfHistJ = s.chlpfHistJ := rfl
@[simp] theorem advance_dl (n : Nat) (s : State) : (advance n s).dl = s.dl := rfl
@[simp] theorem advance_legacyState (n : Nat) (s : State) : (advance n s).legacyState = s.legacyState := rfl

/-! ### The sample port -/

@[simp] theorem portDrop_cmds (n : Nat) (s : State) : (portDrop n s).cmds = s.cmds := rfl
@[simp] theorem portDrop_cp (n : Nat) (s : State) : (portDrop n s).cp = s.cp := rfl
@[simp] theorem portDrop_samples (n : Nat) (s : State) : (portDrop n s).samples = s.samples.drop n := rfl
@[simp] theorem portDrop_outPort (n : Nat) (s : State) : (portDrop n s).outPort = s.outPort := rfl
@[simp] theorem portDrop_snapshots (n : Nat) (s : State) : (portDrop n s).snapshots = s.snapshots := rfl
@[simp] theorem portDrop_buf (n : Nat) (s : State) : (portDrop n s).buf = s.buf := rfl
@[simp] theorem portDrop_out (n : Nat) (s : State) : (portDrop n s).out = s.out := rfl
@[simp] theorem portDrop_cfg (n : Nat) (s : State) : (portDrop n s).cfg = s.cfg := rfl
@[simp] theorem portDrop_err (n : Nat) (s : State) : (portDrop n s).err = s.err := rfl
@[simp] theorem portDrop_fll (n : Nat) (s : State) : (portDrop n s).fll = s.fll := rfl
@[simp] theorem portDrop_ted (n : Nat) (s : State) : (portDrop n s).ted = s.ted := rfl
@[simp] theorem portDrop_sql (n : Nat) (s : State) : (portDrop n s).sql = s.sql := rfl
@[simp] theorem portDrop_cond (n : Nat) (s : State) : (portDrop n s).cond = s.cond := rfl
@[simp] theorem portDrop_rrc (n : Nat) (s : State) : (portDrop n s).rrc = s.rrc := rfl
@[simp] theorem portDrop_rrcTaps (n : Nat) (s : State) : (portDrop n s).rrcTaps = s.rrcTaps := rfl
@[simp] theorem portDrop_hbHist (n : Nat) (s : State) : (portDrop n s).hbHist = s.hbHist := rfl
@[simp] theorem portDrop_chlpfHistR (n : Nat) (s : State) : (portDrop n s).chlpfHistR = s.chlpfHistR := rfl
@[simp] theorem portDrop_chlpfHistJ (n : Nat) (s : State) : (portDrop n s).chlpfHistJ = s.chlpfHistJ := rfl
@[simp] theorem portDrop_dl (n : Nat) (s : State) : (portDrop n s).dl = s.dl := rfl
@[simp] theorem portDrop_legacyState (n : Nat) (s : State) : (portDrop n s).legacyState = s.legacyState := rfl

/-! ### The output port -/

@[simp] theorem portWrite_cmds (r : Record) (s : State) : (portWrite r s).cmds = s.cmds := rfl
@[simp] theorem portWrite_cp (r : Record) (s : State) : (portWrite r s).cp = s.cp := rfl
@[simp] theorem portWrite_samples (r : Record) (s : State) : (portWrite r s).samples = s.samples := rfl
@[simp] theorem portWrite_outPort (r : Record) (s : State) : (portWrite r s).outPort = s.outPort ++ [r] := rfl
@[simp] theorem portWrite_snapshots (r : Record) (s : State) : (portWrite r s).snapshots = s.snapshots := rfl
@[simp] theorem portWrite_buf (r : Record) (s : State) : (portWrite r s).buf = s.buf := rfl
@[simp] theorem portWrite_out (r : Record) (s : State) : (portWrite r s).out = s.out := rfl
@[simp] theorem portWrite_cfg (r : Record) (s : State) : (portWrite r s).cfg = s.cfg := rfl
@[simp] theorem portWrite_err (r : Record) (s : State) : (portWrite r s).err = s.err := rfl
@[simp] theorem portWrite_fll (r : Record) (s : State) : (portWrite r s).fll = s.fll := rfl
@[simp] theorem portWrite_ted (r : Record) (s : State) : (portWrite r s).ted = s.ted := rfl
@[simp] theorem portWrite_sql (r : Record) (s : State) : (portWrite r s).sql = s.sql := rfl
@[simp] theorem portWrite_cond (r : Record) (s : State) : (portWrite r s).cond = s.cond := rfl
@[simp] theorem portWrite_rrc (r : Record) (s : State) : (portWrite r s).rrc = s.rrc := rfl
@[simp] theorem portWrite_rrcTaps (r : Record) (s : State) : (portWrite r s).rrcTaps = s.rrcTaps := rfl
@[simp] theorem portWrite_hbHist (r : Record) (s : State) : (portWrite r s).hbHist = s.hbHist := rfl
@[simp] theorem portWrite_chlpfHistR (r : Record) (s : State) : (portWrite r s).chlpfHistR = s.chlpfHistR := rfl
@[simp] theorem portWrite_chlpfHistJ (r : Record) (s : State) : (portWrite r s).chlpfHistJ = s.chlpfHistJ := rfl
@[simp] theorem portWrite_dl (r : Record) (s : State) : (portWrite r s).dl = s.dl := rfl
@[simp] theorem portWrite_legacyState (r : Record) (s : State) : (portWrite r s).legacyState = s.legacyState := rfl

/-! ### The snapshot port -/

@[simp] theorem publish_cmds (s : State) : (publish s).cmds = s.cmds := rfl
@[simp] theorem publish_cp (s : State) : (publish s).cp = s.cp := rfl
@[simp] theorem publish_samples (s : State) : (publish s).samples = s.samples := rfl
@[simp] theorem publish_outPort (s : State) : (publish s).outPort = s.outPort := rfl
@[simp] theorem publish_snapshots (s : State) : (publish s).snapshots = s.snapshots ++ [takeSnapshot s] := rfl
@[simp] theorem publish_buf (s : State) : (publish s).buf = s.buf := rfl
@[simp] theorem publish_out (s : State) : (publish s).out = s.out := rfl
@[simp] theorem publish_cfg (s : State) : (publish s).cfg = s.cfg := rfl
@[simp] theorem publish_err (s : State) : (publish s).err = s.err := rfl
@[simp] theorem publish_fll (s : State) : (publish s).fll = s.fll := rfl
@[simp] theorem publish_ted (s : State) : (publish s).ted = s.ted := rfl
@[simp] theorem publish_sql (s : State) : (publish s).sql = s.sql := rfl
@[simp] theorem publish_cond (s : State) : (publish s).cond = s.cond := rfl
@[simp] theorem publish_rrc (s : State) : (publish s).rrc = s.rrc := rfl
@[simp] theorem publish_rrcTaps (s : State) : (publish s).rrcTaps = s.rrcTaps := rfl
@[simp] theorem publish_hbHist (s : State) : (publish s).hbHist = s.hbHist := rfl
@[simp] theorem publish_chlpfHistR (s : State) : (publish s).chlpfHistR = s.chlpfHistR := rfl
@[simp] theorem publish_chlpfHistJ (s : State) : (publish s).chlpfHistJ = s.chlpfHistJ := rfl
@[simp] theorem publish_dl (s : State) : (publish s).dl = s.dl := rfl
@[simp] theorem publish_legacyState (s : State) : (publish s).legacyState = s.legacyState := rfl

/-! ### Exceptions -/

@[simp] theorem raise_cmds (x : Exc) (st : BitVec 8) (n : Int) (s : State) : (raise x st n s).cmds = s.cmds := rfl
@[simp] theorem raise_cp (x : Exc) (st : BitVec 8) (n : Int) (s : State) : (raise x st n s).cp = s.cp := rfl
@[simp] theorem raise_samples (x : Exc) (st : BitVec 8) (n : Int) (s : State) :
    (raise x st n s).samples = s.samples := rfl
@[simp] theorem raise_outPort (x : Exc) (st : BitVec 8) (n : Int) (s : State) :
    (raise x st n s).outPort = s.outPort := rfl
@[simp] theorem raise_snapshots (x : Exc) (st : BitVec 8) (n : Int) (s : State) :
    (raise x st n s).snapshots = s.snapshots := rfl
@[simp] theorem raise_buf (x : Exc) (st : BitVec 8) (n : Int) (s : State) : (raise x st n s).buf = s.buf := rfl
@[simp] theorem raise_out (x : Exc) (st : BitVec 8) (n : Int) (s : State) : (raise x st n s).out = s.out := rfl
@[simp] theorem raise_cfg (x : Exc) (st : BitVec 8) (n : Int) (s : State) : (raise x st n s).cfg = s.cfg := rfl
@[simp] theorem raise_err (x : Exc) (st : BitVec 8) (n : Int) (s : State) :
    (raise x st n s).err =
      { s.err with code := excCode x, count := min (s.err.count + 1) counterMax, stage := st, info := BitVec.ofInt 32 n } := rfl
@[simp] theorem raise_fll (x : Exc) (st : BitVec 8) (n : Int) (s : State) : (raise x st n s).fll = s.fll := rfl
@[simp] theorem raise_ted (x : Exc) (st : BitVec 8) (n : Int) (s : State) : (raise x st n s).ted = s.ted := rfl
@[simp] theorem raise_sql (x : Exc) (st : BitVec 8) (n : Int) (s : State) : (raise x st n s).sql = s.sql := rfl
@[simp] theorem raise_cond (x : Exc) (st : BitVec 8) (n : Int) (s : State) : (raise x st n s).cond = s.cond := rfl
@[simp] theorem raise_rrc (x : Exc) (st : BitVec 8) (n : Int) (s : State) : (raise x st n s).rrc = s.rrc := rfl
@[simp] theorem raise_rrcTaps (x : Exc) (st : BitVec 8) (n : Int) (s : State) :
    (raise x st n s).rrcTaps = s.rrcTaps := rfl
@[simp] theorem raise_hbHist (x : Exc) (st : BitVec 8) (n : Int) (s : State) : (raise x st n s).hbHist = s.hbHist := rfl
@[simp] theorem raise_chlpfHistR (x : Exc) (st : BitVec 8) (n : Int) (s : State) :
    (raise x st n s).chlpfHistR = s.chlpfHistR := rfl
@[simp] theorem raise_chlpfHistJ (x : Exc) (st : BitVec 8) (n : Int) (s : State) :
    (raise x st n s).chlpfHistJ = s.chlpfHistJ := rfl
@[simp] theorem raise_dl (x : Exc) (st : BitVec 8) (n : Int) (s : State) : (raise x st n s).dl = s.dl := rfl
@[simp] theorem raise_legacyState (x : Exc) (st : BitVec 8) (n : Int) (s : State) :
    (raise x st n s).legacyState = s.legacyState := rfl

/-! ### The block count -/

@[simp] theorem countBlock_cmds (s : State) : (countBlock s).cmds = s.cmds := rfl
@[simp] theorem countBlock_cp (s : State) : (countBlock s).cp = s.cp := rfl
@[simp] theorem countBlock_samples (s : State) : (countBlock s).samples = s.samples := rfl
@[simp] theorem countBlock_outPort (s : State) : (countBlock s).outPort = s.outPort := rfl
@[simp] theorem countBlock_snapshots (s : State) : (countBlock s).snapshots = s.snapshots := rfl
@[simp] theorem countBlock_buf (s : State) : (countBlock s).buf = s.buf := rfl
@[simp] theorem countBlock_out (s : State) : (countBlock s).out = s.out := rfl
@[simp] theorem countBlock_cfg (s : State) : (countBlock s).cfg = s.cfg := rfl
@[simp] theorem countBlock_err (s : State) :
    (countBlock s).err = { s.err with blocksDone := min (s.err.blocksDone + 1) counterMax } := rfl
@[simp] theorem countBlock_fll (s : State) : (countBlock s).fll = s.fll := rfl
@[simp] theorem countBlock_ted (s : State) : (countBlock s).ted = s.ted := rfl
@[simp] theorem countBlock_sql (s : State) : (countBlock s).sql = s.sql := rfl
@[simp] theorem countBlock_cond (s : State) : (countBlock s).cond = s.cond := rfl
@[simp] theorem countBlock_rrc (s : State) : (countBlock s).rrc = s.rrc := rfl
@[simp] theorem countBlock_rrcTaps (s : State) : (countBlock s).rrcTaps = s.rrcTaps := rfl
@[simp] theorem countBlock_hbHist (s : State) : (countBlock s).hbHist = s.hbHist := rfl
@[simp] theorem countBlock_chlpfHistR (s : State) : (countBlock s).chlpfHistR = s.chlpfHistR := rfl
@[simp] theorem countBlock_chlpfHistJ (s : State) : (countBlock s).chlpfHistJ = s.chlpfHistJ := rfl
@[simp] theorem countBlock_dl (s : State) : (countBlock s).dl = s.dl := rfl
@[simp] theorem countBlock_legacyState (s : State) : (countBlock s).legacyState = s.legacyState := rfl

/-! ### Register writes -/

@[simp] theorem writeInt_cmds (r : CfgReg) (v : Int) (s : State) : (writeInt r v s).cmds = s.cmds := rfl
@[simp] theorem writeInt_cp (r : CfgReg) (v : Int) (s : State) : (writeInt r v s).cp = s.cp := rfl
@[simp] theorem writeInt_samples (r : CfgReg) (v : Int) (s : State) : (writeInt r v s).samples = s.samples := rfl
@[simp] theorem writeInt_outPort (r : CfgReg) (v : Int) (s : State) : (writeInt r v s).outPort = s.outPort := rfl
@[simp] theorem writeInt_snapshots (r : CfgReg) (v : Int) (s : State) : (writeInt r v s).snapshots = s.snapshots := rfl
@[simp] theorem writeInt_buf (r : CfgReg) (v : Int) (s : State) : (writeInt r v s).buf = s.buf := rfl
@[simp] theorem writeInt_out (r : CfgReg) (v : Int) (s : State) : (writeInt r v s).out = s.out := rfl
@[simp] theorem writeInt_cfg (r : CfgReg) (v : Int) (s : State) : (writeInt r v s).cfg = setInt s.cfg r v := rfl
@[simp] theorem writeInt_err (r : CfgReg) (v : Int) (s : State) : (writeInt r v s).err = s.err := rfl
@[simp] theorem writeInt_fll (r : CfgReg) (v : Int) (s : State) : (writeInt r v s).fll = s.fll := rfl
@[simp] theorem writeInt_ted (r : CfgReg) (v : Int) (s : State) : (writeInt r v s).ted = s.ted := rfl
@[simp] theorem writeInt_sql (r : CfgReg) (v : Int) (s : State) : (writeInt r v s).sql = writeEffect r v s.sql := rfl
@[simp] theorem writeInt_cond (r : CfgReg) (v : Int) (s : State) : (writeInt r v s).cond = s.cond := rfl
@[simp] theorem writeInt_rrc (r : CfgReg) (v : Int) (s : State) : (writeInt r v s).rrc = s.rrc := rfl
@[simp] theorem writeInt_rrcTaps (r : CfgReg) (v : Int) (s : State) : (writeInt r v s).rrcTaps = s.rrcTaps := rfl
@[simp] theorem writeInt_hbHist (r : CfgReg) (v : Int) (s : State) : (writeInt r v s).hbHist = s.hbHist := rfl
@[simp] theorem writeInt_chlpfHistR (r : CfgReg) (v : Int) (s : State) :
    (writeInt r v s).chlpfHistR = s.chlpfHistR := rfl
@[simp] theorem writeInt_chlpfHistJ (r : CfgReg) (v : Int) (s : State) :
    (writeInt r v s).chlpfHistJ = s.chlpfHistJ := rfl
@[simp] theorem writeInt_dl (r : CfgReg) (v : Int) (s : State) : (writeInt r v s).dl = s.dl := rfl
@[simp] theorem writeInt_legacyState (r : CfgReg) (v : Int) (s : State) :
    (writeInt r v s).legacyState = s.legacyState := rfl

/-! ### Writes of REAL registers -/

@[simp] theorem writeReal_cmds (P : Config.Params) (r : CfgReg) (q : Rat) (s : State) :
    (writeReal P r q s).cmds = s.cmds := rfl
@[simp] theorem writeReal_cp (P : Config.Params) (r : CfgReg) (q : Rat) (s : State) :
    (writeReal P r q s).cp = s.cp := rfl
@[simp] theorem writeReal_samples (P : Config.Params) (r : CfgReg) (q : Rat) (s : State) :
    (writeReal P r q s).samples = s.samples := rfl
@[simp] theorem writeReal_outPort (P : Config.Params) (r : CfgReg) (q : Rat) (s : State) :
    (writeReal P r q s).outPort = s.outPort := rfl
@[simp] theorem writeReal_snapshots (P : Config.Params) (r : CfgReg) (q : Rat) (s : State) :
    (writeReal P r q s).snapshots = s.snapshots := rfl
@[simp] theorem writeReal_buf (P : Config.Params) (r : CfgReg) (q : Rat) (s : State) :
    (writeReal P r q s).buf = s.buf := rfl
@[simp] theorem writeReal_out (P : Config.Params) (r : CfgReg) (q : Rat) (s : State) :
    (writeReal P r q s).out = s.out := rfl
@[simp] theorem writeReal_cfg (P : Config.Params) (r : CfgReg) (q : Rat) (s : State) :
    (writeReal P r q s).cfg = setReal s.cfg r (P.qreal q) := rfl
@[simp] theorem writeReal_err (P : Config.Params) (r : CfgReg) (q : Rat) (s : State) :
    (writeReal P r q s).err = s.err := rfl
@[simp] theorem writeReal_fll (P : Config.Params) (r : CfgReg) (q : Rat) (s : State) :
    (writeReal P r q s).fll = s.fll := rfl
@[simp] theorem writeReal_ted (P : Config.Params) (r : CfgReg) (q : Rat) (s : State) :
    (writeReal P r q s).ted = s.ted := rfl
@[simp] theorem writeReal_sql (P : Config.Params) (r : CfgReg) (q : Rat) (s : State) :
    (writeReal P r q s).sql = s.sql := rfl
@[simp] theorem writeReal_cond (P : Config.Params) (r : CfgReg) (q : Rat) (s : State) :
    (writeReal P r q s).cond = s.cond := rfl
@[simp] theorem writeReal_rrc (P : Config.Params) (r : CfgReg) (q : Rat) (s : State) :
    (writeReal P r q s).rrc = s.rrc := rfl
@[simp] theorem writeReal_rrcTaps (P : Config.Params) (r : CfgReg) (q : Rat) (s : State) :
    (writeReal P r q s).rrcTaps = s.rrcTaps := rfl
@[simp] theorem writeReal_hbHist (P : Config.Params) (r : CfgReg) (q : Rat) (s : State) :
    (writeReal P r q s).hbHist = s.hbHist := rfl
@[simp] theorem writeReal_chlpfHistR (P : Config.Params) (r : CfgReg) (q : Rat) (s : State) :
    (writeReal P r q s).chlpfHistR = s.chlpfHistR := rfl
@[simp] theorem writeReal_chlpfHistJ (P : Config.Params) (r : CfgReg) (q : Rat) (s : State) :
    (writeReal P r q s).chlpfHistJ = s.chlpfHistJ := rfl
@[simp] theorem writeReal_dl (P : Config.Params) (r : CfgReg) (q : Rat) (s : State) :
    (writeReal P r q s).dl = s.dl := rfl
@[simp] theorem writeReal_legacyState (P : Config.Params) (r : CfgReg) (q : Rat) (s : State) :
    (writeReal P r q s).legacyState = s.legacyState := rfl

/-! ### RST -/

@[simp] theorem rst_cmds (s : State) : (rst s).cmds = s.cmds := rfl
@[simp] theorem rst_cp (s : State) : (rst s).cp = s.cp := rfl
@[simp] theorem rst_samples (s : State) : (rst s).samples = s.samples := rfl
@[simp] theorem rst_outPort (s : State) : (rst s).outPort = s.outPort := rfl
@[simp] theorem rst_snapshots (s : State) : (rst s).snapshots = s.snapshots := rfl
@[simp] theorem rst_buf (s : State) : (rst s).buf = State.reset.buf := rfl
@[simp] theorem rst_out (s : State) : (rst s).out = State.reset.out := rfl
@[simp] theorem rst_cfg (s : State) : (rst s).cfg = State.reset.cfg := rfl
@[simp] theorem rst_err (s : State) : (rst s).err = State.reset.err := rfl
@[simp] theorem rst_fll (s : State) : (rst s).fll = State.reset.fll := rfl
@[simp] theorem rst_ted (s : State) : (rst s).ted = State.reset.ted := rfl
@[simp] theorem rst_sql (s : State) : (rst s).sql = State.reset.sql := rfl
@[simp] theorem rst_cond (s : State) : (rst s).cond = State.reset.cond := rfl
@[simp] theorem rst_rrc (s : State) : (rst s).rrc = State.reset.rrc := rfl
@[simp] theorem rst_rrcTaps (s : State) : (rst s).rrcTaps = State.reset.rrcTaps := rfl
@[simp] theorem rst_hbHist (s : State) : (rst s).hbHist = State.reset.hbHist := rfl
@[simp] theorem rst_chlpfHistR (s : State) : (rst s).chlpfHistR = State.reset.chlpfHistR := rfl
@[simp] theorem rst_chlpfHistJ (s : State) : (rst s).chlpfHistJ = State.reset.chlpfHistJ := rfl
@[simp] theorem rst_dl (s : State) : (rst s).dl = State.reset.dl := rfl
@[simp] theorem rst_legacyState (s : State) : (rst s).legacyState = State.reset.legacyState := rfl

/-! ### FLLRST -/

@[simp] theorem fllrst_cmds (s : State) : (fllrst s).cmds = s.cmds := rfl
@[simp] theorem fllrst_cp (s : State) : (fllrst s).cp = s.cp := rfl
@[simp] theorem fllrst_samples (s : State) : (fllrst s).samples = s.samples := rfl
@[simp] theorem fllrst_outPort (s : State) : (fllrst s).outPort = s.outPort := rfl
@[simp] theorem fllrst_snapshots (s : State) : (fllrst s).snapshots = s.snapshots := rfl
@[simp] theorem fllrst_buf (s : State) : (fllrst s).buf = s.buf := rfl
@[simp] theorem fllrst_out (s : State) : (fllrst s).out = s.out := rfl
@[simp] theorem fllrst_cfg (s : State) : (fllrst s).cfg = s.cfg := rfl
@[simp] theorem fllrst_err (s : State) : (fllrst s).err = s.err := rfl
@[simp] theorem fllrst_fll (s : State) : (fllrst s).fll = {} := rfl
@[simp] theorem fllrst_ted (s : State) : (fllrst s).ted = s.ted := rfl
@[simp] theorem fllrst_sql (s : State) : (fllrst s).sql = s.sql := rfl
@[simp] theorem fllrst_cond (s : State) : (fllrst s).cond = s.cond := rfl
@[simp] theorem fllrst_rrc (s : State) : (fllrst s).rrc = s.rrc := rfl
@[simp] theorem fllrst_rrcTaps (s : State) : (fllrst s).rrcTaps = s.rrcTaps := rfl
@[simp] theorem fllrst_hbHist (s : State) : (fllrst s).hbHist = s.hbHist := rfl
@[simp] theorem fllrst_chlpfHistR (s : State) : (fllrst s).chlpfHistR = s.chlpfHistR := rfl
@[simp] theorem fllrst_chlpfHistJ (s : State) : (fllrst s).chlpfHistJ = s.chlpfHistJ := rfl
@[simp] theorem fllrst_dl (s : State) : (fllrst s).dl = s.dl := rfl
@[simp] theorem fllrst_legacyState (s : State) : (fllrst s).legacyState = s.legacyState := rfl

/-! ### ERRCLR -/

@[simp] theorem errclr_cmds (s : State) : (errclr s).cmds = s.cmds := rfl
@[simp] theorem errclr_cp (s : State) : (errclr s).cp = s.cp := rfl
@[simp] theorem errclr_samples (s : State) : (errclr s).samples = s.samples := rfl
@[simp] theorem errclr_outPort (s : State) : (errclr s).outPort = s.outPort := rfl
@[simp] theorem errclr_snapshots (s : State) : (errclr s).snapshots = s.snapshots := rfl
@[simp] theorem errclr_buf (s : State) : (errclr s).buf = s.buf := rfl
@[simp] theorem errclr_out (s : State) : (errclr s).out = s.out := rfl
@[simp] theorem errclr_cfg (s : State) : (errclr s).cfg = s.cfg := rfl
@[simp] theorem errclr_err (s : State) : (errclr s).err = { s.err with code := 0 } := rfl
@[simp] theorem errclr_fll (s : State) : (errclr s).fll = s.fll := rfl
@[simp] theorem errclr_ted (s : State) : (errclr s).ted = s.ted := rfl
@[simp] theorem errclr_sql (s : State) : (errclr s).sql = s.sql := rfl
@[simp] theorem errclr_cond (s : State) : (errclr s).cond = s.cond := rfl
@[simp] theorem errclr_rrc (s : State) : (errclr s).rrc = s.rrc := rfl
@[simp] theorem errclr_rrcTaps (s : State) : (errclr s).rrcTaps = s.rrcTaps := rfl
@[simp] theorem errclr_hbHist (s : State) : (errclr s).hbHist = s.hbHist := rfl
@[simp] theorem errclr_chlpfHistR (s : State) : (errclr s).chlpfHistR = s.chlpfHistR := rfl
@[simp] theorem errclr_chlpfHistJ (s : State) : (errclr s).chlpfHistJ = s.chlpfHistJ := rfl
@[simp] theorem errclr_dl (s : State) : (errclr s).dl = s.dl := rfl
@[simp] theorem errclr_legacyState (s : State) : (errclr s).legacyState = s.legacyState := rfl

end Sys2Proof.Machine
end

