-- ==== Sys2Proof/Laws/Ops.lean ====
section
/-! SUPPORT. One lemma for each shared operation that says once everything it can do, the inversion of `step` and of the
meanings that do not always complete. -/

namespace Sys2Proof.Machine

open Sys2Proof.Safety

/-! ### Registers -/

/-- R29, R90: the configuration registers are exactly the numbers 0x00 to 0x27. -/
theorem cfgRegOf_eq_none_iff (n : Nat) : cfgRegOf n = none ↔ 0x27 < n := by
  unfold cfgRegOf
  rw [List.getElem?_eq_none_iff]
  exact Nat.lt_iff_add_one_le.symm

/-- R27: a written register reads back the value, and any other register is unchanged. -/
theorem getInt_setInt (c : CfgRegs) (r r' : CfgReg) (v : Int) (h : isReal r = false) :
    getInt (setInt c r v) r' = if r' = r then v else getInt c r' := by
  split_ifs with e
  · subst e; cases r' <;> first | rfl | simp [isReal] at h
  · cases r <;> cases r' <;> first | rfl | exact absurd rfl e

@[simp] theorem getReal_setInt (c : CfgRegs) (r r' : CfgReg) (v : Int) : getReal (setInt c r v) r' = getReal c r' := by
  cases r <;> rfl

/-- R27: the same for the REAL registers. -/
theorem getReal_setReal (c : CfgRegs) (r r' : CfgReg) (q : Rat) (h : isReal r = true) :
    getReal (setReal c r q) r' = if r' = r then q else getReal c r' := by
  split_ifs with e
  · subst e; cases r' <;> first | rfl | simp [isReal] at h
  · cases r <;> cases r' <;> first | rfl | exact absurd rfl e

@[simp] theorem getInt_setReal (c : CfgRegs) (r r' : CfgReg) (q : Rat) : getInt (setReal c r q) r' = getInt c r' := by
  cases r <;> rfl

/-- R293: a register write touches the squelch registers for `SQL_WINDOW` and `SQL_STRIDE` alone. -/
theorem writeEffect_eq (r : CfgReg) (v : Int) (q : SqlRegs) :
    writeEffect r v q = if r = .sqlWindow then { q with windowLog2 := roundLog2 v.toNat }
      else if r = .sqlStride then { q with decimPhase := reducePhase q.decimPhase v.toNat } else q := by
  cases r <;> rfl

/-- R52: the reduced phase is even and below the stride. -/
theorem reducePhase_lt (phase : Nat) {stride : Nat} (h : 0 < stride) : reducePhase phase stride < stride := by
  have := Nat.mod_lt phase h
  unfold reducePhase clearBit0; omega

/-! ### WRR and WRS -/

/-- Everything a WRR can do: refuse the number, refuse the value, or write (R283). -/
theorem wrr_cases (P : Config.Params) (reg : Nat) (data : Word) (s : State) :
    (cfgRegOf reg = none ∧ wrr P reg data s = raise .cfgBadReg 0x01 reg s) ∨
    (∃ r, cfgRegOf reg = some r ∧ wrr P reg data s = raise .cfgRange 0x01 data.toNat s) ∨
    (∃ r, cfgRegOf reg = some r ∧ isReal r = true ∧ legalReal r (wrrReal data) = true ∧
      wrr P reg data s = writeReal P r (wrrReal data) s) ∨
    (∃ r, cfgRegOf reg = some r ∧ isReal r = false ∧ legalInt r (wrrInt data) = true ∧
      wrr P reg data s = writeInt r (wrrInt data) s) := by
  unfold wrr
  cases h : cfgRegOf reg with
  | none => exact .inl ⟨rfl, rfl⟩
  | some r =>
    dsimp only
    split_ifs with h1 h2 h3
    · exact .inr (.inr (.inl ⟨r, rfl, h1, h2, rfl⟩))
    · exact .inr (.inl ⟨r, rfl, rfl⟩)
    · exact .inr (.inr (.inr ⟨r, rfl, by simpa using h1, h3, rfl⟩))
    · exact .inr (.inl ⟨r, rfl, rfl⟩)

/-- Everything a WRS can do: refuse the number, refuse the value, or write (R284). -/
theorem wrs_cases (reg : Nat) (imm : BitVec 16) (s : State) :
    (cfgRegOf reg = none ∧ wrs reg imm s = raise .cfgBadReg 0x02 reg s) ∨
    (∃ r info, cfgRegOf reg = some r ∧ wrs reg imm s = raise .cfgRange 0x02 info s) ∨
    (∃ r, cfgRegOf reg = some r ∧ isReal r = false ∧ legalInt r (wrsInt imm) = true ∧
      wrs reg imm s = writeInt r (wrsInt imm) s) := by
  unfold wrs
  cases h : cfgRegOf reg with
  | none => exact .inl ⟨rfl, rfl⟩
  | some r =>
    dsimp only
    split_ifs with h1 h2
    · exact .inr (.inl ⟨r, _, rfl, rfl⟩)
    · exact .inr (.inr ⟨r, rfl, by simpa using h1, h2, rfl⟩)
    · exact .inr (.inl ⟨r, _, rfl, rfl⟩)

/-! ### LOAD -/

/-- LOAD raises exactly when the rate is illegal, the length odd, or the length above `P_MAXLEN` (R287). -/
theorem loadFault_eq_none_iff (P : Config.Params) (c : CfgRegs) (len : Nat) :
    loadFault P c len = none ↔ legalRate c.sampleRateHz = true ∧ len % 2 = 0 ∧ len ≤ P.maxLen := by
  unfold loadFault
  split_ifs with h1 h2 h3
  · simp_all
  · simp; omega
  · simp; omega
  · simp_all

/-- Everything a LOAD whose words are there can do (R287). -/
theorem load_cases (P : Config.Params) (len : Nat) (s : State) :
    (loadFault P s.cfg len = none ∧ load P len s = { portDrop len s with buf := portRead len s, out := [] }) ∨
    (∃ x info, loadFault P s.cfg len = some (x, info) ∧ load P len s = raise x 0x11 info (portDrop len s)) := by
  unfold load
  cases h : loadFault P s.cfg len with
  | none => exact .inl ⟨rfl, rfl⟩
  | some p => exact .inr ⟨p.1, p.2, rfl, rfl⟩

/-! ### BLK -/

/-- Everything a BLK whose words are there can do: send the record of a halted block, complete, or stop because the squelch
grid would read beyond the block (R290). -/
theorem blk_cases (P : Config.Params) (len : Nat) (s : State) :
    (∃ x info, loadFault P s.cfg len = some (x, info) ∧
      blk P len s = .next (errorRecord (raise x 0x11 info (portDrop len s)))) ∨
    (loadFault P s.cfg len = none ∧
      ((gridReadable (blkFront P (load P len s)) = true ∧
        blk P len s = .next (countBlock (emit (blkBack P (sqlm (blkFront P (load P len s))))))) ∨
      (gridReadable (blkFront P (load P len s)) = false ∧ blk P len s = .fault .readBeyondValid))) := by
  unfold blk
  rcases load_cases P len s with ⟨h, e⟩ | ⟨x, info, h, e⟩
  · right
    refine ⟨h, ?_⟩
    simp only [h, blkRun]
    cases hg : gridReadable (blkFront P (load P len s)) <;> simp
  · left
    exact ⟨x, info, h, by simp only [h, e]⟩

/-- A property that a stage keeps is kept when the stage runs under a condition. -/
theorem runIf_induct {I : State → Prop} {f : State → State} (hf : ∀ s, I s → I (f s)) (b : Bool) {s : State} (h : I s) :
    I (runIf b f s) := by
  cases b
  · exact h
  · exact hf s h

/-- A property that the decimators and the channel low-pass keep is kept by the pipeline up to the squelch measurement. -/
theorem blkFront_induct (P : Config.Params) {I : State → Prop} (h1 : ∀ s, I s → I (decimhb P s))
    (h2 : ∀ s, I s → I (decimleg P s)) (h3 : ∀ s, I s → I (chlpf P s)) {s : State} (h : I s) : I (blkFront P s) := by
  refine runIf_induct h3 _ ?_
  unfold blkDecimate
  split_ifs
  · exact h2 s h
  · exact h1 s h
  · exact h

/-- A property that every later stage keeps is kept by the pipeline after the squelch measurement. -/
theorem blkBack_induct (P : Config.Params) {I : State → Prop} (h1 : ∀ s, I s → I (dcblk s)) (h2 : ∀ s, I s → I (agc s))
    (h3 : ∀ s, I s → I (limit s)) (h4 : ∀ s, I s → I (iqbal s)) (h5 : ∀ s, I s → I (flldd P s))
    (h6 : ∀ s, I s → I (fllbe P s)) (h7 : ∀ s, I s → I (mf5 P s)) (h8 : ∀ s, I s → I (rrc P s))
    (h9 : ∀ s, I s → I (tedm P s)) (h10 : ∀ s, I s → I (tedf P s)) (h11 : ∀ s, I s → I (discfm P s))
    (h12 : ∀ s, I s → I (discdq P s)) (h13 : ∀ s, I s → I (discraw s)) (h14 : ∀ s, I s → I (gate s)) {s : State}
    (h : I s) : I (blkBack P s) := by
  have fll : ∀ s, I s → I (blkFll P s) := fun s h => by unfold blkFll; split_ifs; exacts [h6 s h, h5 s h]
  have flt : ∀ s, I s → I (blkFilter P s) := fun s h => by unfold blkFilter; split_ifs; exacts [h8 s h, h7 s h]
  have ted : ∀ s, I s → I (blkTed P s) := fun s h => by unfold blkTed; split_ifs; exacts [h9 s h, h10 s h]
  have dsc : ∀ s, I s → I (blkDisc P s) := fun s h => by
    unfold blkDisc; split_ifs; exacts [h11 s h, h12 s h, h13 s h]
  exact runIf_induct h14 _ (dsc _ (runIf_induct ted _ (runIf_induct flt _ (runIf_induct fll _ (runIf_induct h4 _
    (runIf_induct h3 _ (runIf_induct h2 _ (runIf_induct h1 _ h))))))))

/-! ### Executing and stepping -/

/-! The operations that always complete: what each gives, so that no proof unfolds `exec`. -/

@[simp] theorem exec_nop (s : State) : exec .nop s = .next (advance 1 s) := rfl
@[simp] theorem exec_wrr (reg : Nat) (data : Word) (s : State) :
    exec (.wrr reg data) s = .next (advance 2 (wrr Config.params reg data s)) := rfl
@[simp] theorem exec_wrs (reg : Nat) (imm : BitVec 16) (s : State) :
    exec (.wrs reg imm) s = .next (advance 1 (wrs reg imm s)) := rfl
@[simp] theorem exec_rst (s : State) : exec .rst s = .next (advance 1 (rst s)) := rfl
@[simp] theorem exec_fllrst (s : State) : exec .fllrst s = .next (advance 1 (fllrst s)) := rfl
@[simp] theorem exec_errclr (s : State) : exec .errclr s = .next (advance 1 (errclr s)) := rfl
@[simp] theorem exec_emit (s : State) : exec .emit s = .next (advance 1 (emit s)) := rfl
@[simp] theorem exec_decimhb (s : State) : exec .decimhb s = .next (advance 1 (decimhb Config.params s)) := rfl
@[simp] theorem exec_decimleg (s : State) : exec .decimleg s = .next (advance 1 (decimleg Config.params s)) := rfl
@[simp] theorem exec_chlpf (s : State) : exec .chlpf s = .next (advance 1 (chlpf Config.params s)) := rfl
@[simp] theorem exec_dcblk (s : State) : exec .dcblk s = .next (advance 1 (dcblk s)) := rfl
@[simp] theorem exec_agc (s : State) : exec .agc s = .next (advance 1 (agc s)) := rfl
@[simp] theorem exec_limit (s : State) : exec .limit s = .next (advance 1 (limit s)) := rfl
@[simp] theorem exec_iqbal (s : State) : exec .iqbal s = .next (advance 1 (iqbal s)) := rfl
@[simp] theorem exec_flldd (s : State) : exec .flldd s = .next (advance 1 (flldd Config.params s)) := rfl
@[simp] theorem exec_fllbe (s : State) : exec .fllbe s = .next (advance 1 (fllbe Config.params s)) := rfl
@[simp] theorem exec_mf5 (s : State) : exec .mf5 s = .next (advance 1 (mf5 Config.params s)) := rfl
@[simp] theorem exec_rrc (s : State) : exec .rrc s = .next (advance 1 (rrc Config.params s)) := rfl
@[simp] theorem exec_tedm (s : State) : exec .tedm s = .next (advance 1 (tedm Config.params s)) := rfl
@[simp] theorem exec_tedf (s : State) : exec .tedf s = .next (advance 1 (tedf Config.params s)) := rfl
@[simp] theorem exec_discfm (s : State) : exec .discfm s = .next (advance 1 (discfm Config.params s)) := rfl
@[simp] theorem exec_discdq (s : State) : exec .discdq s = .next (advance 1 (discdq Config.params s)) := rfl
@[simp] theorem exec_discraw (s : State) : exec .discraw s = .next (advance 1 (discraw s)) := rfl
@[simp] theorem exec_gate (s : State) : exec .gate s = .next (advance 1 (gate s)) := rfl

/-- Everything a LOAD can do: wait for its words, or complete (R81, R287). -/
theorem execLoad_cases (len : Nat) (s : State) :
    (s.samples.length < len ∧ exec (.load len) s = .next s) ∨
    (len ≤ s.samples.length ∧ exec (.load len) s = .next (advance 1 (load Config.params len s))) := by
  by_cases h : len ≤ s.samples.length
  · exact .inr ⟨h, by simp [exec, execLoad, portHas, h]⟩
  · exact .inl ⟨by omega, by simp [exec, execLoad, portHas, h]⟩

/-- Everything a BLK can do: wait for its words, or do what `blk` does, CP moving past it when it completes (R81, R290). -/
theorem execBlk_cases (len : Nat) (s : State) :
    (s.samples.length < len ∧ exec (.blk len) s = .next s) ∨
    (len ≤ s.samples.length ∧ exec (.blk len) s = advanceOutcome (blk Config.params len s)) := by
  by_cases h : len ≤ s.samples.length
  · exact .inr ⟨h, by simp [exec, execBlk, portHas, h]⟩
  · exact .inl ⟨by omega, by simp [exec, execBlk, portHas, h]⟩

/-- Everything a SQLM can do: complete, or stop because its grid would read beyond the block (R251). -/
theorem execSqlm_cases (s : State) :
    (gridReadable s = true ∧ exec .sqlm s = .next (advance 1 (sqlm s))) ∨
    (gridReadable s = false ∧ exec .sqlm s = .fault .readBeyondValid) := by
  cases h : gridReadable s
  · exact .inr ⟨rfl, by simp [exec, execSqlm, h]⟩
  · exact .inl ⟨rfl, by simp [exec, execSqlm, h]⟩

/-- No meaning is refused. -/
theorem exec_ne_refused (i : Instr) (s : State) (r : Refusal) : exec i s ≠ .refused r := by
  intro h
  cases i with
  | blk len =>
    rcases execBlk_cases len s with ⟨_, e⟩ | ⟨_, e⟩ <;> rw [e] at h
    · simp at h
    · rcases blk_cases Config.params len s with ⟨_, _, _, e⟩ | ⟨_, ⟨_, e⟩ | ⟨_, e⟩⟩ <;> rw [e] at h <;>
        simp [advanceOutcome] at h
  | load len => rcases execLoad_cases len s with ⟨_, e⟩ | ⟨_, e⟩ <;> rw [e] at h <;> simp at h
  | sqlm => rcases execSqlm_cases s with ⟨_, e⟩ | ⟨_, e⟩ <;> rw [e] at h <;> simp at h
  | _ => simp at h

/-- A step publishes nothing or one snapshot. -/
theorem settle_eq (i : Instr) (cp : Nat) (t : State) : settle i cp t = t ∨ settle i cp t = publish t := by
  unfold settle; split_ifs <;> simp

/-- Everything a completing step can be: idle, an illegal word, or an operation executed (R281). -/
theorem step_cases {s t : State} (h : step s = .next t) :
    ((fetch s = .error .noWord ∨ fetch s = .error .noData) ∧ t = s) ∨
    (∃ w, (fetch s = .error (.unassignedOpcode w) ∨ fetch s = .error (.nonzeroField w)) ∧ t = illegalCommand w s) ∨
    (∃ i u, fetch s = .ok i ∧ exec i s = .next u ∧ t = settle i s.cp u) := by
  unfold step at h
  split at h
  · next hf => simp only [Host.Outcome.next.injEq] at h; exact .inl ⟨.inl hf, h.symm⟩
  · next hf => simp only [Host.Outcome.next.injEq] at h; exact .inl ⟨.inr hf, h.symm⟩
  · next w hf => simp only [Host.Outcome.next.injEq] at h; exact .inr (.inl ⟨w, .inl hf, h.symm⟩)
  · next w hf => simp only [Host.Outcome.next.injEq] at h; exact .inr (.inl ⟨w, .inr hf, h.symm⟩)
  · next i hf =>
    split at h
    · next u hu => simp only [Host.Outcome.next.injEq] at h; exact .inr (.inr ⟨i, u, hf, hu, h.symm⟩)
    · simp at h
    · simp at h

/-- What a decoded operation says of the words at CP: there are as many as it is long (R114). -/
theorem fetch_words {s : State} {i : Instr} (h : fetch s = .ok i) : s.cp + i.words ≤ s.cmds.length := by
  unfold fetch decode at h
  split at h
  · simp at h
  · next w rest hd =>
    have hl := congrArg List.length hd
    rw [List.length_drop, List.length_cons] at hl
    split at h
    · next j hj =>
      split_ifs at h with hw
      simp only [Except.ok.injEq] at h
      subst h
      have : j.words = 1 ∨ j.words = 2 := by cases j <;> simp [Instr.words]
      rcases this with e | e
      · omega
      · have : rest ≠ [] := fun hr => hw ⟨e, hr⟩
        have := List.length_pos_of_ne_nil this
        omega
    · simp at h

/-- An illegal word is a word at CP. -/
theorem fetch_illegal {s : State} {w : Word}
    (h : fetch s = .error (.unassignedOpcode w) ∨ fetch s = .error (.nonzeroField w)) : s.cp < s.cmds.length := by
  by_contra hc
  have : s.cmds.drop s.cp = [] := List.drop_eq_nil_of_le (by omega)
  simp [fetch, this, decode] at h

end Sys2Proof.Machine
end

