-- ==== Sys2Proof/Laws/PerInstr.lean ====
section
/-! SUPPORT. The facts said once for each instruction as syntax: the shape of its encoding (spec/30_encoding.md R110, R114,
R116). -/

namespace Sys2Proof

/-- R110: the bits of a packed word, field by field. -/
theorem getLsbD_packWord (op a : BitVec 8) (imm : BitVec 16) (i : Nat) :
    (packWord op a imm).getLsbD i =
      if i < 16 then imm.getLsbD i else if i < 24 then a.getLsbD (i - 16) else op.getLsbD (i - 24) := by
  have h : (op ++ a ++ imm : BitVec (8 + 8 + 16)).getLsbD i =
      if i < 16 then imm.getLsbD i else if i < 24 then a.getLsbD (i - 16) else op.getLsbD (i - 24) := by
    rw [BitVec.getLsbD_append, BitVec.getLsbD_append]
    split_ifs <;> first | rfl | omega
  exact h

/-- R110: the three fields of a packed word read back. -/
theorem opField_packWord (op a : BitVec 8) (imm : BitVec 16) : opField (packWord op a imm) = op.toNat := by
  have : (packWord op a imm).extractLsb' 24 8 = op := by
    ext i hi
    rw [BitVec.getElem_extractLsb', getLsbD_packWord, if_neg (by omega), if_neg (by omega)]
    simp [hi]
  rw [opField, this]

theorem aField_packWord (op a : BitVec 8) (imm : BitVec 16) : aField (packWord op a imm) = a.toNat := by
  have : (packWord op a imm).extractLsb' 16 8 = a := by
    ext i hi
    rw [BitVec.getElem_extractLsb', getLsbD_packWord, if_neg (by omega), if_pos (by omega)]
    simp [hi]
  rw [aField, this]

theorem immField_packWord (op a : BitVec 8) (imm : BitVec 16) : immField (packWord op a imm) = imm := by
  unfold immField
  ext i hi
  rw [BitVec.getElem_extractLsb', getLsbD_packWord, if_pos (by omega)]
  simp [hi]

namespace Laws

/-- The encoding of an operation has the number of words R114 gives it, and its first word carries the operation code of
R116 in its `op` field. -/
def EncodeShape.Statement (i : Instr) : Prop :=
  (encode i).length = i.words ∧ ∀ w ∈ (encode i).head?, opField w = i.opcode.toNat

/-- The shape of an encoding whose first word is packed from the operation's own code. -/
theorem encodeShape_of {i : Instr} {a : BitVec 8} {imm : BitVec 16} {rest : List Word}
    (h : encode i = packWord i.opcode a imm :: rest) (hl : rest.length + 1 = i.words) : EncodeShape.Statement i := by
  refine ⟨by rw [h]; exact hl, fun w hw => ?_⟩
  rw [h] at hw
  cases hw
  exact opField_packWord _ _ _

theorem EncodeShape.nop : EncodeShape.Statement .nop := encodeShape_of rfl rfl
theorem EncodeShape.wrr (reg : Nat) (data : Word) : EncodeShape.Statement (.wrr reg data) := encodeShape_of rfl rfl
theorem EncodeShape.wrs (reg : Nat) (imm : BitVec 16) : EncodeShape.Statement (.wrs reg imm) := encodeShape_of rfl rfl
theorem EncodeShape.rst : EncodeShape.Statement .rst := encodeShape_of rfl rfl
theorem EncodeShape.fllrst : EncodeShape.Statement .fllrst := encodeShape_of rfl rfl
theorem EncodeShape.errclr : EncodeShape.Statement .errclr := encodeShape_of rfl rfl
theorem EncodeShape.blk (len : Nat) : EncodeShape.Statement (.blk len) := encodeShape_of rfl rfl
theorem EncodeShape.load (len : Nat) : EncodeShape.Statement (.load len) := encodeShape_of rfl rfl
theorem EncodeShape.emit : EncodeShape.Statement .emit := encodeShape_of rfl rfl
theorem EncodeShape.decimhb : EncodeShape.Statement .decimhb := encodeShape_of rfl rfl
theorem EncodeShape.decimleg : EncodeShape.Statement .decimleg := encodeShape_of rfl rfl
theorem EncodeShape.chlpf : EncodeShape.Statement .chlpf := encodeShape_of rfl rfl
theorem EncodeShape.sqlm : EncodeShape.Statement .sqlm := encodeShape_of rfl rfl
theorem EncodeShape.dcblk : EncodeShape.Statement .dcblk := encodeShape_of rfl rfl
theorem EncodeShape.agc : EncodeShape.Statement .agc := encodeShape_of rfl rfl
theorem EncodeShape.limit : EncodeShape.Statement .limit := encodeShape_of rfl rfl
theorem EncodeShape.iqbal : EncodeShape.Statement .iqbal := encodeShape_of rfl rfl
theorem EncodeShape.flldd : EncodeShape.Statement .flldd := encodeShape_of rfl rfl
theorem EncodeShape.fllbe : EncodeShape.Statement .fllbe := encodeShape_of rfl rfl
theorem EncodeShape.mf5 : EncodeShape.Statement .mf5 := encodeShape_of rfl rfl
theorem EncodeShape.rrc : EncodeShape.Statement .rrc := encodeShape_of rfl rfl
theorem EncodeShape.tedm : EncodeShape.Statement .tedm := encodeShape_of rfl rfl
theorem EncodeShape.tedf : EncodeShape.Statement .tedf := encodeShape_of rfl rfl
theorem EncodeShape.discfm : EncodeShape.Statement .discfm := encodeShape_of rfl rfl
theorem EncodeShape.discdq : EncodeShape.Statement .discdq := encodeShape_of rfl rfl
theorem EncodeShape.discraw : EncodeShape.Statement .discraw := encodeShape_of rfl rfl
theorem EncodeShape.gate : EncodeShape.Statement .gate := encodeShape_of rfl rfl

end Laws

end Sys2Proof
end

