-- ==== Sys2Proof/Laws/Views.lean ====
section
/-! SUPPORT. The interleaved view of a buffer, the list walks and the inner products: what each reads and writes, once. -/

namespace Sys2Proof.Machine

open Sys2Proof.Safety

/-! ### Complex samples of a buffer -/

@[simp] theorem pairs_length : ∀ b : List Int, (pairs b).length = b.length / 2
  | [] => rfl
  | [_] => by simp [pairs]
  | _ :: _ :: rest => by
    simp only [pairs, List.length_cons, pairs_length rest]; omega

/-- R13: sample n of a buffer is its elements 2n and 2n + 1. -/
theorem pairs_eq_map : ∀ b : List Int, pairs b = (List.range (b.length / 2)).map fun n => (elemI b n, elemQ b n)
  | [] => rfl
  | [_] => by simp [pairs]
  | a :: c :: rest => by
    have e : (rest.length + 1 + 1) / 2 = rest.length / 2 + 1 := by omega
    simp only [pairs, List.length_cons, e, List.range_succ_eq_map, List.map_cons, List.map_map, pairs_eq_map rest]
    congr 1

theorem pairs_getD (b : List Int) (n : Nat) (h : n < b.length / 2) : (pairs b).getD n (0, 0) = (elemI b n, elemQ b n) := by
  rw [pairs_eq_map]; simp [List.getD_eq_getElem?_getD, h]

theorem pairs_map_fst (b : List Int) : (pairs b).map Prod.fst = (List.range (b.length / 2)).map (elemI b) := by
  rw [pairs_eq_map, List.map_map]; rfl

theorem pairs_map_snd (b : List Int) : (pairs b).map Prod.snd = (List.range (b.length / 2)).map (elemQ b) := by
  rw [pairs_eq_map, List.map_map]; rfl

/-- Element `n` of a list written as a map over its indices. -/
theorem range_map_getD {α : Type} (f : Nat → α) (d : α) {m n : Nat} (h : n < m) : ((List.range m).map f).getD n d = f n := by
  simp [List.getD_eq_getElem?_getD, h]

theorem zip_getD {xs ys : List Int} {n : Nat} (h : n < xs.length) (h' : n < ys.length) :
    (xs.zip ys).getD n (0, 0) = (xs.getD n 0, ys.getD n 0) := by
  simp [List.getD_eq_getElem?_getD, h, h']

/-- A sum over the samples of a buffer as a sum over their numbers. -/
theorem pairs_map_sum (g : Cplx → Int) (b : List Int) :
    ((pairs b).map g).sum = ∑ n ∈ Finset.range (b.length / 2), g (elemI b n, elemQ b n) := by
  rw [pairs_eq_map, List.map_map]
  induction b.length / 2 with
  | zero => simp
  | succ n ih => rw [List.range_succ, List.map_append, List.sum_append, ih, Finset.sum_range_succ]; simp

@[simp] theorem interleave_length : ∀ ys : List Cplx, (interleave ys).length = 2 * ys.length
  | [] => rfl
  | (_, _) :: rest => by simp [interleave, interleave_length rest]; omega

theorem interleave_append : ∀ xs ys : List Cplx, interleave (xs ++ ys) = interleave xs ++ interleave ys
  | [], _ => rfl
  | (_, _) :: xs, ys => by simp [interleave, interleave_append xs ys]

@[simp] theorem pairs_interleave : ∀ ys : List Cplx, pairs (interleave ys) = ys
  | [] => rfl
  | (_, _) :: rest => by simp [interleave, pairs, pairs_interleave rest]

theorem interleave_pairs : ∀ b : List Int, b.length % 2 = 0 → interleave (pairs b) = b
  | [], _ => rfl
  | [_], h => by simp at h
  | a :: c :: rest, h => by
    simp only [pairs, interleave]; rw [interleave_pairs rest (by simp at h; omega)]

theorem pairs_append : ∀ a b : List Int, a.length % 2 = 0 → pairs (a ++ b) = pairs a ++ pairs b
  | [], _, _ => rfl
  | [_], _, h => by simp at h
  | x :: y :: rest, b, h => by
    simp only [pairs, List.cons_append]; rw [pairs_append rest b (by simp at h; omega)]

theorem interleave_isInt16 : ∀ ys : List Cplx, (∀ z ∈ ys, IsInt16Pair z) → ∀ v ∈ interleave ys, IsInt16 v
  | [], _ => by simp [interleave]
  | (a, b) :: rest, h => by
    intro v hv
    have hz := h (a, b) (by simp)
    simp only [interleave, List.mem_cons] at hv
    rcases hv with rfl | rfl | hv
    · exact hz.1
    · exact hz.2
    · exact interleave_isInt16 rest (fun z hz => h z (by simp [hz])) v hv

theorem pairs_isInt16 : ∀ b : List Int, (∀ v ∈ b, IsInt16 v) → ∀ z ∈ pairs b, IsInt16Pair z
  | [], _ => by simp [pairs]
  | [_], _ => by simp [pairs]
  | x :: y :: rest, h => by
    intro z hz
    simp only [pairs, List.mem_cons] at hz
    rcases hz with rfl | hz
    · exact ⟨h x (by simp), h y (by simp)⟩
    · exact pairs_isInt16 rest (fun v hv => h v (by simp [hv])) z hz

/-! ### Samples written back -/

/-- Writing back as many samples as the buffer holds keeps its length. -/
theorem putPairs_length (b : List Int) (ys : List Cplx) (h : ys.length = b.length / 2) :
    (putPairs b ys).length = b.length := by
  simp only [putPairs, List.length_append, interleave_length, List.length_drop]; omega

/-- On a buffer of whole samples the result is the samples written. -/
theorem putPairs_of_even (b : List Int) (ys : List Cplx) (h : ys.length = b.length / 2) (he : b.length % 2 = 0) :
    putPairs b ys = interleave ys := by
  rw [putPairs, List.drop_eq_nil_of_le (by omega), List.append_nil]

/-- Writing back the samples that are there changes nothing. -/
theorem putPairs_pairs : ∀ b : List Int, putPairs b (pairs b) = b
  | [] => rfl
  | [_] => rfl
  | x :: y :: rest => by
    have := putPairs_pairs rest
    simp only [putPairs, pairs_length] at this
    simp only [putPairs, pairs, interleave, List.cons_append, pairs_length, List.length_cons,
      show 2 * (rest.length / 2 + 1) = 2 * (rest.length / 2) + 1 + 1 from by omega, List.drop_succ_cons, this]

theorem interleave_getD : ∀ (ys : List Cplx) (n : Nat),
    (interleave ys).getD (2 * n) 0 = (ys.getD n (0, 0)).1 ∧ (interleave ys).getD (2 * n + 1) 0 = (ys.getD n (0, 0)).2
  | [], n => by simp [interleave]
  | (_, _) :: rest, 0 => by simp [interleave]
  | (_, _) :: rest, n + 1 => by
    have := interleave_getD rest n
    simpa [interleave, Nat.mul_succ] using this

/-- R13: the samples of a buffer after a write are the samples written. -/
theorem putPairs_elem (b : List Int) (ys : List Cplx) {n : Nat} (h : n < ys.length) :
    elemI (putPairs b ys) n = (ys.getD n (0, 0)).1 ∧ elemQ (putPairs b ys) n = (ys.getD n (0, 0)).2 := by
  have l := interleave_length ys
  unfold elemI elemQ putPairs
  rw [List.getD_append _ _ _ _ (by omega), List.getD_append _ _ _ _ (by omega)]
  exact interleave_getD ys n

/-- A write of as many samples as the buffer holds keeps its length and an element beyond the last whole sample. -/
theorem putPairs_sameShape (b : List Int) (ys : List Cplx) (h : ys.length = b.length / 2) :
    SameShape b (putPairs b ys) := by
  refine ⟨putPairs_length b ys h, fun i hi => ?_⟩
  have l := interleave_length ys
  unfold putPairs
  rw [List.getD_append_right _ _ _ _ (by omega), l]
  simp only [List.getD_eq_getElem?_getD, List.getElem?_drop]
  congr 2
  omega

theorem putPairs_isInt16 (b : List Int) (ys : List Cplx) (hb : ∀ v ∈ b, IsInt16 v) (hy : ∀ z ∈ ys, IsInt16Pair z) :
    ∀ v ∈ putPairs b ys, IsInt16 v := by
  intro v hv
  rcases List.mem_append.1 hv with h | h
  · exact interleave_isInt16 ys hy v h
  · exact hb v (List.mem_of_mem_drop h)

/-! ### Walks -/

@[simp] theorem scan_length {σ α β : Type} (f : σ → α → σ × β) : ∀ (s : σ) (xs : List α), (scan f s xs).2.length = xs.length
  | _, [] => rfl
  | s, a :: as => by simp [scan, scan_length f _ as]

/-- A walk over a concatenation is the walk over the first part, then over the second from the state it left. -/
theorem scan_append {σ α β : Type} (f : σ → α → σ × β) : ∀ (s : σ) (xs ys : List α),
    scan f s (xs ++ ys) = ((scan f (scan f s xs).1 ys).1, (scan f s xs).2 ++ (scan f (scan f s xs).1 ys).2)
  | _, [], _ => rfl
  | s, a :: as, ys => by simp [scan, scan_append f _ as ys]

/-- The state a walk has before element `n`. -/
def scanState {σ α β : Type} (f : σ → α → σ × β) (s : σ) (xs : List α) (n : Nat) : σ := (scan f s (xs.take n)).1

@[simp] theorem scanState_zero {σ α β : Type} (f : σ → α → σ × β) (s : σ) (xs : List α) : scanState f s xs 0 = s := rfl

theorem scanState_length {σ α β : Type} (f : σ → α → σ × β) (s : σ) (xs : List α) :
    scanState f s xs xs.length = (scan f s xs).1 := by
  simp [scanState]

/-- One step of a walk: the state after element `n`, and the output of element `n`. -/
theorem scanState_succ {σ α β : Type} (f : σ → α → σ × β) (s : σ) (xs : List α) (d : α) (e : β) {n : Nat}
    (h : n < xs.length) :
    scanState f s xs (n + 1) = (f (scanState f s xs n) (xs.getD n d)).1 ∧
      (scan f s xs).2.getD n e = (f (scanState f s xs n) (xs.getD n d)).2 := by
  induction xs generalizing s n with
  | nil => simp at h
  | cons a as ih =>
    cases n with
    | zero => simp [scanState, scan]
    | succ n =>
      have := ih (f s a).1 (n := n) (by simpa using h)
      simpa [scanState, scan] using this

/-- What holds of the start and is kept by every step holds of the state at the end; what every step gives of its output
holds of every output. -/
theorem scan_invariant {σ α β : Type} (f : σ → α → σ × β) (I : σ → Prop) (A : α → Prop) (B : β → Prop)
    (hf : ∀ s a, I s → A a → I (f s a).1 ∧ B (f s a).2) :
    ∀ (xs : List α) (s : σ), I s → (∀ a ∈ xs, A a) → I (scan f s xs).1 ∧ ∀ b ∈ (scan f s xs).2, B b
  | [], s, hs, _ => ⟨hs, by simp [scan]⟩
  | a :: as, s, hs, ha => by
    have h1 := hf s a hs (ha a (by simp))
    have h2 := scan_invariant f I A B hf as (f s a).1 h1.1 (fun b hb => ha b (by simp [hb]))
    refine ⟨h2.1, fun b hb => ?_⟩
    rcases List.mem_cons.1 hb with rfl | hb
    · exact h1.2
    · exact h2.2 b hb

/-! ### Inner products -/

/-- The inner product with the head of a sequence as a sum over the coefficients. -/
theorem dot_eq_sum : ∀ (h x : List Int), dot h x = ∑ k ∈ Finset.range h.length, h.getD k 0 * x.getD k 0
  | [], _ => by simp [dot]
  | _ :: _, [] => by simp [dot]
  | a :: h, b :: x => by
    rw [dot, dot_eq_sum h x, List.length_cons, Finset.sum_range_succ']
    simp [add_comm]

theorem dotRat_eq_sum : ∀ (h x : List Rat), dotRat h x = ∑ k ∈ Finset.range x.length, h.getD k 0 * x.getD k 0
  | [], _ => by simp [dotRat]
  | _ :: _, [] => by simp [dotRat]
  | a :: h, b :: x => by
    rw [dotRat, dotRat_eq_sum h x, List.length_cons, Finset.sum_range_succ']
    simp [add_comm]

/-- The inner product with reversed coefficients, as the tap sums of R142 and R146 are written. -/
theorem dot_reverse_drop (h x : List Int) (n : Nat) :
    dot h.reverse (x.drop n) = ∑ k ∈ Finset.range h.length, h.getD k 0 * x.getD (h.length - 1 + n - k) 0 := by
  rw [dot_eq_sum, List.length_reverse, ← Finset.sum_range_reflect]
  refine Finset.sum_congr rfl fun k hk => ?_
  have hk' : k < h.length := Finset.mem_range.1 hk
  have e1 : h.reverse.getD (h.length - 1 - k) 0 = h.getD k 0 := by
    rw [List.getD_eq_getElem?_getD, List.getElem?_reverse (by omega), List.getD_eq_getElem?_getD]
    congr 2; omega
  have e2 : (x.drop n).getD (h.length - 1 - k) 0 = x.getD (h.length - 1 + n - k) 0 := by
    simp only [List.getD_eq_getElem?_getD, List.getElem?_drop]
    congr 2; omega
  rw [e1, e2]

/-- The last `n` elements of a sequence at least that long are `n` elements. -/
theorem lastN_length {α : Type} (n : Nat) (xs : List α) (h : n ≤ xs.length) : (lastN n xs).length = n := by
  simp only [lastN, List.length_drop]; omega

theorem mem_of_mem_lastN {α : Type} {n : Nat} {xs : List α} {a : α} (h : a ∈ lastN n xs) : a ∈ xs :=
  List.mem_of_mem_drop h

end Sys2Proof.Machine
end

