-- ==== Sys2Proof/Laws/Ranges.lean ====
section
/-! SUPPORT. For each stage, that what it writes stays in the range its table gives, under premises on what it reads. -/

namespace Sys2Proof.Machine

open Sys2Proof.Safety

/-! ### Buffers -/

theorem bufOk_interleave {ys : List Cplx} (hl : 2 * ys.length ≤ Config.params.maxLen) (hv : ∀ z ∈ ys, IsInt16Pair z) :
    BufOk (interleave ys) := by
  refine ⟨by rw [interleave_length]; omega, by rw [interleave_length]; omega, interleave_isInt16 ys hv⟩

theorem bufOk_putPairs {b : List Int} (hb : BufOk b) {ys : List Cplx} (hl : ys.length = b.length / 2)
    (hv : ∀ z ∈ ys, IsInt16Pair z) : BufOk (putPairs b ys) := by
  rw [putPairs_of_even _ _ hl hb.1]
  exact bufOk_interleave (by have := hb.2.1; omega) hv

theorem hbStage_outputs (h : List Int) (n : Nat) (hist x : List Cplx) :
    (hbStage h n hist x).2.length = x.length / 2 ∧ ∀ z ∈ (hbStage h n hist x).2, IsInt16Pair z := by
  refine ⟨by simp [hbStage], fun z hz => ?_⟩
  simp only [hbStage, List.mem_map] at hz
  obtain ⟨m, _, rfl⟩ := hz
  exact ⟨sat16_isInt16 _, sat16_isInt16 _⟩

theorem hbCascade_succ (P : Config.Params) (n : Nat) (hists : List (List Cplx)) (x : List Cplx) :
    hbCascade P (n + 1) hists x = hbCascadeStage P (hbCascade P n hists x) n := by
  simp [hbCascade, List.range_succ]

/-- R141: the cascade of n stages divides the number of samples by 2^n. -/
theorem hbCascade_length (P : Config.Params) (n : Nat) (hists : List (List Cplx)) (x : List Cplx) :
    (hbCascade P n hists x).2.length = x.length / 2 ^ n := by
  induction n with
  | zero => simp [hbCascade]
  | succ n ih =>
    rw [hbCascade_succ, hbCascadeStage]
    dsimp only
    rw [(hbStage_outputs _ _ _ _).1, ih, Nat.div_div_eq_div_mul, pow_succ]

theorem hbCascade_isInt16 (P : Config.Params) (n : Nat) (hists : List (List Cplx)) (x : List Cplx)
    (hx : ∀ z ∈ x, IsInt16Pair z) : ∀ z ∈ (hbCascade P n hists x).2, IsInt16Pair z := by
  cases n with
  | zero => simpa [hbCascade] using hx
  | succ n => rw [hbCascade_succ]; exact (hbStage_outputs (hbTaps P n) (hbHistLen n) _ _).2

theorem decimhb_bufOk (s : State) (h : BufOk s.buf) : BufOk (decimhb Config.params s).buf := by
  unfold decimhb
  split_ifs
  · exact h
  · exact ⟨rfl, Nat.zero_le _, by simp⟩
  · refine bufOk_interleave ?_ (hbCascade_isInt16 _ _ _ _ (pairs_isInt16 _ h.2.2))
    rw [hbCascade_length, pairs_length]
    have := Nat.div_le_self (s.buf.length / 2) (2 ^ passes s)
    have := h.2.1
    omega

theorem decimleg_bufOk (s : State) (h : BufOk s.buf) : BufOk (decimleg Config.params s).buf := by
  unfold decimleg
  split_ifs
  · exact h
  · exact ⟨rfl, Nat.zero_le _, by simp⟩
  · have l := Config.params.legacyDecim_length s.legacyState s.buf (passes s)
    have := Nat.div_le_self (s.buf.length / 2) (2 ^ passes s)
    have := h.2.1
    refine ⟨?_, ?_, Config.params.legacyDecim_int16 _ _ _⟩ <;> dsimp only <;> omega

theorem chlpf_bufOk (s : State) (h : BufOk s.buf) : BufOk (chlpf Config.params s).buf := by
  unfold chlpf
  dsimp only
  split_ifs
  · exact h
  · refine bufOk_putPairs h (by simp [chlpfOutputs]) fun z hz => ?_
    have h1 := List.of_mem_zip (a := z.1) (b := z.2) hz
    simp only [chlpfOutputs, List.mem_map] at h1
    obtain ⟨⟨_, _, e1⟩, _, _, e2⟩ := h1
    exact ⟨e1 ▸ sat16_isInt16 _, e2 ▸ sat16_isInt16 _⟩

theorem dcblk_bufOk (s : State) (h : BufOk s.buf) : BufOk (dcblk s).buf :=
  bufOk_putPairs h (by simp) (scan_invariant _ (fun _ => True) (fun _ => True) IsInt16Pair
    (fun _ _ _ _ => ⟨trivial, sat16_isInt16 _, sat16_isInt16 _⟩) _ _ trivial (fun _ _ => trivial)).2

theorem agc_bufOk (s : State) (h : BufOk s.buf) : BufOk (agc s).buf := by
  unfold agc
  dsimp only
  split_ifs
  · exact h
  · refine ⟨by simpa using h.1, by simpa using h.2.1, fun v hv => ?_⟩
    obtain ⟨_, _, rfl⟩ := List.mem_map.1 hv
    exact sat16_isInt16 _

theorem limit_bufOk (s : State) (h : BufOk s.buf) : BufOk (limit s).buf := by
  refine bufOk_putPairs h (by simp) fun z hz => ?_
  obtain ⟨w, hw, rfl⟩ := List.mem_map.1 hz
  unfold limitSample
  dsimp only
  split_ifs
  · exact ⟨sat16_isInt16 _, sat16_isInt16 _⟩
  · exact pairs_isInt16 _ h.2.2 w hw

theorem iqbal_bufOk (s : State) (h : BufOk s.buf) : BufOk (iqbal s).buf := by
  unfold iqbal
  dsimp only
  split_ifs
  · refine bufOk_putPairs h (by simp) fun z hz => ?_
    obtain ⟨w, _, rfl⟩ := List.mem_map.1 hz
    exact ⟨sat16_isInt16 _, sat16_isInt16 _⟩
  · exact h

theorem rotate_outputs (P : Config.Params) (f : FllRegs) (zs : List Cplx) :
    (rotate P f zs).2.length = zs.length ∧ ∀ z ∈ (rotate P f zs).2, IsInt16Pair z :=
  ⟨by simp [rotate], (scan_invariant _ (fun _ => True) (fun _ => True) IsInt16Pair
    (fun _ _ _ _ => ⟨trivial, sat16_isInt16 _, sat16_isInt16 _⟩) _ _ trivial (fun _ _ => trivial)).2⟩

theorem flldd_bufOk (s : State) (h : BufOk s.buf) : BufOk (flldd Config.params s).buf := by
  unfold flldd
  dsimp only
  split_ifs
  · exact h
  · exact bufOk_putPairs h (by rw [(rotate_outputs _ _ _).1, pairs_length]) (rotate_outputs _ _ _).2

theorem fllbe_bufOk (s : State) (h : BufOk s.buf) : BufOk (fllbe Config.params s).buf := by
  have l := (rotate_outputs Config.params s.fll (pairs s.buf)).1
  unfold fllbe
  dsimp only
  split_ifs
  · exact h
  all_goals exact bufOk_putPairs h (by rw [l, pairs_length]) (rotate_outputs _ _ _).2

theorem matchedFilter_bufOk (taps : List Int) (ctr : Nat) {b : List Int} (h : BufOk b) :
    BufOk (matchedFilter taps ctr b) := by
  refine bufOk_putPairs h (by simp [blockFir]) fun z hz => ?_
  have h1 := List.of_mem_zip (a := z.1) (b := z.2) hz
  simp only [blockFir, List.mem_map] at h1
  obtain ⟨⟨_, _, e1⟩, _, _, e2⟩ := h1
  exact ⟨e1 ▸ sat16_isInt16 _, e2 ▸ sat16_isInt16 _⟩

theorem tedm_bufOk (s : State) (h : BufOk s.buf) : BufOk (tedm Config.params s).buf := by
  refine bufOk_interleave ?_ fun z hz => ?_
  · have := List.length_filterMap_le id (scan (tedmStep Config.params s.cfg) (tedStart Config.params s) (pairs s.buf)).2
    rw [scan_length, pairs_length] at this
    have := h.2.1
    omega
  · obtain ⟨o, ho, he⟩ := List.mem_filterMap.1 hz
    have hB := (scan_invariant (tedmStep Config.params s.cfg) (fun _ => True) (fun _ => True)
      (fun o => ∀ z, o = some z → IsInt16Pair z) (fun l x _ _ => ⟨trivial, fun z hz => ?_⟩) (pairs s.buf)
      (tedStart Config.params s) trivial (fun _ _ => trivial)).2 o ho z he
    · exact hB
    · obtain ⟨v, _, rfl⟩ := Option.map_eq_some_iff.1 hz
      exact ⟨sat16_isInt16 _, sat16_isInt16 _⟩

theorem tedf_bufOk (s : State) (h : BufOk s.buf) : BufOk (tedf Config.params s).buf :=
  bufOk_putPairs h (by simp) (scan_invariant _ (fun _ => True) (fun _ => True) IsInt16Pair
    (fun _ _ _ _ => ⟨trivial, sat16_isInt16 _, sat16_isInt16 _⟩) _ _ trivial (fun _ _ => trivial)).2

theorem discriminate_outOk (s : State) (h : BufOk s.buf) : OutOk (discriminate Config.params s).out := by
  refine ⟨?_, (scan_invariant _ (fun _ => True) (fun _ => True) IsInt16
    (fun _ _ _ _ => ⟨trivial, sat16_isInt16 _⟩) _ _ trivial (fun _ _ => trivial)).2⟩
  have := h.2.1
  simp only [discriminate, scan_length, pairs_length]
  omega

theorem gate_outOk (s : State) (h : OutOk s.out) : OutOk (gate s).out := by
  refine ⟨?_, (scan_invariant _ (fun _ => True) (fun _ => True) IsInt16
    (fun _ _ _ _ => ⟨trivial, sat16_isInt16 _⟩) _ _ trivial (fun _ _ => trivial)).2⟩
  simpa [gate] using h.1

/-! ### Histories -/

theorem hbStage_history (h : List Int) (n : Nat) {hist x : List Cplx} (hl : hist.length = n)
    (hh : ∀ z ∈ hist, IsInt16Pair z) (hx : ∀ z ∈ x, IsInt16Pair z) :
    (hbStage h n hist x).1.length = n ∧ ∀ z ∈ (hbStage h n hist x).1, IsInt16Pair z := by
  refine ⟨lastN_length _ _ (by simp; omega), fun z hz => ?_⟩
  rcases List.mem_append.1 (mem_of_mem_lastN hz) with h | h
  · exact hh z h
  · exact hx z h

theorem hbOk_set {hists : List (List Cplx)} (h : HbOk hists) {k : Nat} {new : List Cplx}
    (hl : new.length = hbHistLen k) (hv : ∀ z ∈ new, IsInt16Pair z) : HbOk (hists.set k new) := by
  refine ⟨by simpa using h.1, fun s hs => ?_⟩
  by_cases e : k = s
  · subst e
    have : (hists.set k new).getD k [] = new := by
      rw [List.getD_eq_getElem?_getD, List.getElem?_set_self (by have := h.1; omega)]; rfl
    rw [this]; exact ⟨hl, hv⟩
  · have : (hists.set k new).getD s [] = hists.getD s [] := by
      rw [List.getD_eq_getElem?_getD, List.getElem?_set_ne e, List.getD_eq_getElem?_getD]
    rw [this]; exact h.2 s hs

theorem hbCascade_hbOk (P : Config.Params) (n : Nat) (hn : n ≤ 8) {hists : List (List Cplx)} (h : HbOk hists)
    {x : List Cplx} (hx : ∀ z ∈ x, IsInt16Pair z) : HbOk (hbCascade P n hists x).1 := by
  induction n with
  | zero => simpa [hbCascade] using h
  | succ n ih =>
    have := ih (by omega)
    rw [hbCascade_succ, hbCascadeStage]
    have old := this.2 n (by omega)
    have new := hbStage_history (hbTaps P n) (hbHistLen n) old.1 old.2 (hbCascade_isInt16 P n hists x hx)
    exact hbOk_set this new.1 new.2

theorem lpfOk_lastN {h x : List Int} (hh : LpfOk h) (hx : ∀ v ∈ x, IsInt16 v) : LpfOk (lastN 62 (h ++ x)) := by
  refine ⟨lastN_length _ _ (by have := hh.1; simp; omega), fun v hv => ?_⟩
  rcases List.mem_append.1 (mem_of_mem_lastN hv) with h | h
  · exact hh.2 v h
  · exact hx v h

theorem chlpf_lpfOk (P : Config.Params) (s : State) (hb : ∀ v ∈ s.buf, IsInt16 v) (hr : LpfOk s.chlpfHistR)
    (hj : LpfOk s.chlpfHistJ) : LpfOk (chlpf P s).chlpfHistR ∧ LpfOk (chlpf P s).chlpfHistJ := by
  have hp := pairs_isInt16 _ hb
  unfold chlpf
  dsimp only
  split_ifs
  · exact ⟨hr, hj⟩
  · refine ⟨lpfOk_lastN hr fun v hv => ?_, lpfOk_lastN hj fun v hv => ?_⟩ <;>
      obtain ⟨z, hz, rfl⟩ := List.mem_map.1 hv
    · exact (hp z hz).1
    · exact (hp z hz).2

/-! ### Conditioner -/

/-- R162 (b): the DC estimate lies between the old one and the sample, so it stays in int16. -/
theorem dcStep_isInt16 (k : Nat) {dc x : Cplx} (hd : IsInt16Pair dc) (hx : IsInt16Pair x) :
    IsInt16Pair (dcStep k dc x).1 := by
  have key : ∀ d v : Int, IsInt16 d → IsInt16 v → IsInt16 (d + rsh (v - d) k) := by
    intro d v h1 h2
    unfold IsInt16 at *
    rcases le_total 0 (v - d) with h | h
    · have := rsh_between_of_nonneg h k; omega
    · have := rsh_between_of_nonpos h k; omega
  exact ⟨key _ _ hd.1 hx.1, key _ _ hd.2 hx.2⟩

theorem dcblk_dc (s : State) (hb : ∀ v ∈ s.buf, IsInt16 v) (h : IsInt16Pair (s.cond.dcR, s.cond.dcJ)) :
    IsInt16Pair ((dcblk s).cond.dcR, (dcblk s).cond.dcJ) :=
  (scan_invariant (dcStep s.cfg.dcBlockShift.toNat) IsInt16Pair IsInt16Pair (fun _ => True)
    (fun _ _ h1 h2 => ⟨dcStep_isInt16 _ h1 h2, trivial⟩) (pairs s.buf) _ h (pairs_isInt16 _ hb)).1

theorem agcGain_mem (c : CfgRegs) (rms : Nat) {g : Int} (h : 1024 ≤ g ∧ g ≤ 262144) :
    1024 ≤ agcGain c rms g ∧ agcGain c rms g ≤ 262144 := by
  unfold agcGain
  dsimp only
  split_ifs
  · exact clampInt_mem _ (by decide)
  · exact clampInt_mem _ (by decide)
  · exact h

theorem powerSum_nonneg (zs : List Cplx) : 0 ≤ powerSum zs :=
  List.sum_nonneg fun v hv => by
    obtain ⟨z, _, rfl⟩ := List.mem_map.1 hv
    positivity

/-- R168: the squared sum is no larger than the power sum in either component. -/
theorem squareSum_abs_le (zs : List Cplx) :
    |(squareSum zs).1| ≤ powerSum zs ∧ |(squareSum zs).2| ≤ powerSum zs := by
  induction zs with
  | nil => simp [squareSum, powerSum]
  | cons z zs ih =>
    simp only [squareSum, powerSum, List.map_cons, List.sum_cons, abs_le] at *
    refine ⟨⟨?_, ?_⟩, ?_, ?_⟩ <;> nlinarith [sq_nonneg z.1, sq_nonneg z.2, sq_nonneg (z.1 + z.2), sq_nonneg (z.1 - z.2)]

theorem iqEstimate_mem {a p : Int} (hp : 0 < p) (h : |a| ≤ p) : -32768 ≤ iqEstimate a p ∧ iqEstimate a p ≤ 32768 := by
  have hp' : (0 : Rat) < p := by exact_mod_cast hp
  have h1 : (-p : Rat) ≤ a := by exact_mod_cast (abs_le.1 h).1
  have h2 : (a : Rat) ≤ p := by exact_mod_cast (abs_le.1 h).2
  unfold iqEstimate
  refine rnd_mem ?_ ?_
  · rw [le_div_iff₀ hp']; push_cast; linarith
  · rw [div_le_iff₀ hp']; push_cast; linarith

theorem emaStep_mem {ema b c : Int} (h0 : 0 ≤ ema) (h1 : ema ≤ 32768) (hb : -32768 ≤ b ∧ b ≤ 32768)
    (hc : -32768 ≤ c ∧ c ≤ 32768) : -32768 ≤ c + rsh (ema * (b - c)) 15 ∧ c + rsh (ema * (b - c)) 15 ≤ 32768 := by
  have := rsh_scaled_between h0 h1 (d := b - c)
  rcases le_total 0 (b - c) with h | h
  · have := this.1 h; omega
  · have := this.2 h; omega

theorem iqUpdate_mem {ema : Int} (h0 : 0 ≤ ema) (h1 : ema ≤ 32768) (zs : List Cplx) {c : Cplx}
    (hr : -32768 ≤ c.1 ∧ c.1 ≤ 32768) (hj : -32768 ≤ c.2 ∧ c.2 ≤ 32768) :
    (-32768 ≤ (iqUpdate ema zs c).1 ∧ (iqUpdate ema zs c).1 ≤ 32768) ∧
      (-32768 ≤ (iqUpdate ema zs c).2 ∧ (iqUpdate ema zs c).2 ≤ 32768) := by
  have hs := squareSum_abs_le zs
  unfold iqUpdate
  dsimp only
  split_ifs with hp
  · exact ⟨emaStep_mem h0 h1 (iqEstimate_mem hp hs.1) hr, emaStep_mem h0 h1 (iqEstimate_mem hp hs.2) hj⟩
  · exact ⟨hr, hj⟩

/-! ### Carrier recovery -/

theorem rotate_phase (P : Config.Params) (f : FllRegs) (zs : List Cplx) (h : 0 ≤ f.phaseQ15 ∧ f.phaseQ15 ≤ 32767) :
    0 ≤ (rotate P f zs).1 ∧ (rotate P f zs).1 ≤ 32767 :=
  (scan_invariant (rotStep P f.freqQ15) (fun p => 0 ≤ p ∧ p ≤ 32767) (fun _ => True) (fun _ => True)
    (fun _ _ _ _ => ⟨by simp only [rotStep]; omega, trivial⟩) zs _ h (fun _ _ => trivial)).1

theorem lastSample_isInt16 {prev : Cplx} {ys : List Cplx} (hp : IsInt16Pair prev) (hy : ∀ z ∈ ys, IsInt16Pair z) :
    IsInt16Pair (lastSample prev ys) := by
  unfold lastSample
  cases ys with
  | nil => exact hp
  | cons a as => exact hy _ (by rw [List.getLastD_cons]; exact List.getLastD_mem_cons)

/-- R266, R267, R270: an output of the discriminator lies within 1 of the angle of z·conj(z_prev), π scaled to 16384; the
saturation never acts. -/
theorem discStep_near (P : Config.Params) (prev x : Cplx) :
    Config.NearAngle (discStep P prev x).2 (x.2 * prev.1 - x.1 * prev.2) (x.1 * prev.1 + x.2 * prev.2) := by
  have h := P.atan2_range (x.2 * prev.1 - x.1 * prev.2) (x.1 * prev.1 + x.2 * prev.2)
  have e : (discStep P prev x).2 = phaseStep P prev x :=
    sat16_of_isInt16 ⟨(by decide : (-32768 : Int) ≤ -16384).trans h.1, h.2.trans (by decide)⟩
  rw [e]
  exact P.atan2_near _ _

/-- R185: the mean of values in [−16384, 16384] lies there too. -/
theorem estFm_mem (P : Config.Params) (prev : Cplx) (ys : List Cplx) :
    -16384 ≤ estFm P prev ys ∧ estFm P prev ys ≤ 16384 := by
  have key : ∀ l : List Int, (∀ v ∈ l, -16384 ≤ v ∧ v ≤ 16384) →
      -16384 * (l.length : Int) ≤ l.sum ∧ l.sum ≤ 16384 * (l.length : Int) := by
    intro l
    induction l with
    | nil => simp
    | cons a l ih =>
      intro h
      have h1 := h a (by simp)
      have h2 := ih fun v hv => h v (by simp [hv])
      simp only [List.sum_cons, List.length_cons, Nat.cast_add, Nat.cast_one]
      omega
  have hs := key _ (scan_invariant (fun p x => (x, phaseStep P p x)) (fun _ => True) (fun _ => True)
    (fun v => -16384 ≤ v ∧ v ≤ 16384) (fun _ _ _ _ => ⟨trivial, P.atan2_range _ _⟩) ys prev trivial
    (fun _ _ => trivial)).2
  rw [scan_length] at hs
  unfold estFm
  dsimp only
  rcases Nat.eq_zero_or_pos ys.length with h0 | h0
  · have e : ∀ a : Rat, rnd (a / ((0 : Nat) : Rat)) = 0 := fun a => by
      rw [Nat.cast_zero, div_zero]; exact rnd_intCast 0
    rw [h0, e]; decide
  · have hp : (0 : Rat) < (ys.length : Rat) := by exact_mod_cast h0
    refine rnd_mem ?_ ?_
    · rw [le_div_iff₀ hp]; exact_mod_cast hs.1
    · rw [div_le_iff₀ hp]; exact_mod_cast hs.2

theorem deadband_mem (c : CfgRegs) {e : Int} (h : -16384 ≤ e ∧ e ≤ 16384) :
    -16384 ≤ deadband c e ∧ deadband c e ≤ 16384 := by
  unfold deadband; split_ifs
  · decide
  · exact h

theorem fllUpdate_fllOk (c : CfgRegs) {e : Int} (he : -16384 ≤ e ∧ e ≤ 16384) {f : FllRegs} (h : FllOk f) :
    FllOk (fllUpdate c e f) where
  freq := sat32_mem _
  phase := by simp only [fllUpdate]; omega
  prev := h.prev
  runs := h.runs
  err := deadband_mem c he

theorem lockDetect_fllOk (P : Config.Params) {f : FllRegs} (h : FllOk f) : FllOk (lockDetect P f) where
  freq := h.freq
  phase := h.phase
  prev := h.prev
  runs := by
    have := h.runs
    simp only [lockDetect, quietRuns, counterMax] at *
    split_ifs <;> omega
  err := h.err

theorem rotated_fllOk (P : Config.Params) (zs : List Cplx) {f : FllRegs} (h : FllOk f) :
    FllOk { f with
      phaseQ15 := (rotate P f zs).1
      prevR := (lastSample (f.prevR, f.prevJ) (rotate P f zs).2).1
      prevJ := (lastSample (f.prevR, f.prevJ) (rotate P f zs).2).2 } where
  freq := h.freq
  phase := rotate_phase P f zs h.phase
  prev := lastSample_isInt16 h.prev (rotate_outputs P f zs).2
  runs := h.runs
  err := h.err

theorem flldd_fllOk (P : Config.Params) (s : State) (h : FllOk s.fll) : FllOk (flldd P s).fll := by
  unfold flldd
  dsimp only
  split_ifs
  · exact h
  · exact fllUpdate_fllOk _ (estFm_mem _ _ _) (rotated_fllOk P _ h)

theorem fllbe_fllOk (P : Config.Params) (s : State) (h : FllOk s.fll) : FllOk (fllbe P s).fll := by
  unfold fllbe
  dsimp only
  split_ifs
  · exact h
  · exact rotated_fllOk P _ h
  · exact lockDetect_fllOk P (fllUpdate_fllOk _ (P.beDetect_range _ _ _) (rotated_fllOk P _ h))

/-! ### Squelch and gate -/

/-- R252: with an even stride and phase every grid point of a block of whole pairs is an I element. -/
theorem gridReadable_of_even {s : State} (hb : s.buf.length % 2 = 0) (hs : s.cfg.sqlStride.toNat % 2 = 0)
    (hp : s.sql.decimPhase % 2 = 0) : gridReadable s = true := by
  simp only [gridReadable, sqlGrid, gridPoints, List.all_eq_true, List.mem_map, List.mem_range, decide_eq_true_eq,
    forall_exists_index, and_imp]
  rintro j k hk rfl
  generalize s.cfg.sqlStride.toNat = S at *
  rcases Nat.eq_zero_or_pos S with rfl | hS
  · simp at hk
  have h1 : (k + 1) * S ≤ s.buf.length - s.sql.decimPhase + S - 1 := (Nat.le_div_iff_mul_le hS).1 hk
  obtain ⟨r, rfl⟩ : ∃ r, S = 2 * r := ⟨S / 2, by omega⟩
  have e : k * (2 * r) = 2 * (k * r) := by ring
  rw [add_mul, one_mul, e] at h1
  rw [e]
  omega

theorem gateEnv_mem (c : CfgRegs) (o : Bool) {e : Int} (ha : 0 ≤ c.gateAttackQ15 ∧ c.gateAttackQ15 ≤ 32768)
    (hr : 0 ≤ c.gateReleaseQ15 ∧ c.gateReleaseQ15 ≤ 32768) (h : 0 ≤ e ∧ e ≤ 32768) :
    0 ≤ gateEnv c o e ∧ gateEnv c o e ≤ 32768 := by
  unfold gateEnv
  cases o
  · have := (rsh_scaled_between hr.1 hr.2 (d := 0 - e)).2 (by omega)
    simp only [Bool.false_eq_true, if_false]; omega
  · have := (rsh_scaled_between ha.1 ha.2 (d := 32768 - e)).1 (by omega)
    simp only [if_true]; omega

theorem gridPower_mem {b : List Int} (h : ∀ v ∈ b, IsInt16 v) (j : Nat) :
    0 ≤ gridPower b j ∧ gridPower b j ≤ 2 ^ 31 := by
  have key : ∀ i, IsInt16 (b.getD i 0) := by
    intro i
    rw [List.getD_eq_getElem?_getD]
    cases e : b[i]? with
    | none => simp [IsInt16]
    | some v => exact h v (List.mem_of_getElem? e)
  have h1 := key j
  have h2 := key (j + 1)
  unfold gridPower IsInt16 at *
  constructor
  · positivity
  · nlinarith

theorem nextPower_mem {p : Int} (hp : 0 ≤ p ∧ p ≤ 2 ^ 31) (k : Nat) {ps : List Int}
    (h : ∀ v ∈ ps, 0 ≤ v ∧ v ≤ 2 ^ 31) : 0 ≤ nextPower p k ps ∧ nextPower p k ps ≤ 2 ^ 31 := by
  have key : ∀ l : List Int, (∀ v ∈ l, 0 ≤ v ∧ v ≤ 2 ^ 31) → 0 ≤ l.sum ∧ l.sum ≤ 2 ^ 31 * (l.length : Int) := by
    intro l
    induction l with
    | nil => simp
    | cons a l ih =>
      intro h
      have h1 := h a (by simp)
      have h2 := ih fun v hv => h v (by simp [hv])
      simp only [List.sum_cons, List.length_cons, Nat.cast_add, Nat.cast_one]
      omega
  unfold nextPower
  split_ifs with he
  · exact hp
  · have hl : 0 < (ps.length : Int) := by exact_mod_cast List.length_pos_of_ne_nil he
    have hs := key ps h
    have m0 : 0 ≤ ps.sum / (ps.length : Int) := Int.ediv_nonneg hs.1 hl.le
    have m1 : ps.sum / (ps.length : Int) ≤ 2 ^ 31 := Int.ediv_le_of_le_mul hl hs.2
    generalize ps.sum / (ps.length : Int) = m at *
    rcases le_total 0 (m - p) with h | h
    · have := rsh_between_of_nonneg h k; omega
    · have := rsh_between_of_nonpos h k; omega

/-- R52, R251: the phase stays even and below an even stride. -/
theorem nextPhase_mem {ph S : Nat} (len : Nat) (hS : 0 < S) (he : S % 2 = 0) (hp : ph % 2 = 0) :
    nextPhase ph S len % 2 = 0 ∧ nextPhase ph S len < S := by
  have hc := clearBit0_even (len % S)
  refine ⟨?_, Nat.mod_lt _ hS⟩
  unfold nextPhase
  rw [Nat.mod_mod_of_dvd _ (Nat.dvd_of_mod_eq_zero he)]
  omega

end Sys2Proof.Machine
end

