-- ==== Sys2Proof/Laws/Stages.lean ====
section
/-! SUPPORT. What the shared operations of the stages give, said once: the squelch grid, the count-down and strobe of the
timing loops; and that no stage reads CP. -/

namespace Sys2Proof.Machine

/-! ### The squelch grid -/

/-- R251, R252: the grid points are the elements from the phase on, a whole number of strides apart, below the length. -/
theorem mem_gridPoints (phase stride len j : Nat) (h : 0 < stride) :
    j ∈ gridPoints phase stride len ↔ j < len ∧ phase ≤ j ∧ stride ∣ j - phase := by
  have below : ∀ k, k < (len - phase + stride - 1) / stride ↔ k * stride < len - phase := fun k => by
    rw [Nat.lt_iff_add_one_le, Nat.le_div_iff_mul_le h]
    have := Nat.sub_add_cancel (show 1 ≤ len - phase + stride by omega)
    constructor <;> intro _ <;> nlinarith
  unfold gridPoints
  simp only [List.mem_map, List.mem_range]
  constructor
  · rintro ⟨k, hk, rfl⟩
    rw [below] at hk
    exact ⟨by omega, by omega, by simp⟩
  · rintro ⟨h1, h2, k, hk⟩
    refine ⟨k, ?_, by rw [mul_comm k]; omega⟩
    rw [below, mul_comm]; omega

/-- No grid point is listed twice. -/
theorem gridPoints_nodup (phase stride len : Nat) (h : 0 < stride) : (gridPoints phase stride len).Nodup := by
  unfold gridPoints
  refine List.Nodup.map ?_ List.nodup_range
  intro a b e
  exact Nat.eq_of_mul_eq_mul_right h (by simp only at e; omega)

/-! ### Timing recovery -/

/-- Everything the count-down can do: skip a sample, or strobe at the fraction mu and half a symbol before it (R217, R234). -/
theorem countAndStrobe_cases (P : Config.Params) (c : CfgRegs) (interp : TedLoop → Int → Rat → RCplx) (l : TedLoop) :
    (1 < l.regs.tedSkip →
      countAndStrobe P c interp l = (⟨{ l.regs with tedSkip := l.regs.tedSkip - 1 }, l.dl⟩, none)) ∧
    (l.regs.tedSkip ≤ 1 →
      let q : TedLoop := ⟨{ l.regs with tedSkip := 0 }, l.dl⟩
      let d := l.regs.mu - l.regs.omega / 2
      countAndStrobe P c interp l =
        (⟨strobeRegs P c (interp q 0 l.regs.mu) (interp q ⌊d⌋ (Int.fract d)) q.regs, l.dl⟩,
          some (interp q 0 l.regs.mu))) := by
  refine ⟨fun h => ?_, fun h => ?_⟩
  · have : ¬ (skipOne l).regs.tedSkip = 0 := by simp only [skipOne]; omega
    simp only [countAndStrobe]
    rw [if_neg this]; rfl
  · have h0 : l.regs.tedSkip - 1 = 0 := by omega
    have e : skipOne l = ⟨{ l.regs with tedSkip := 0 }, l.dl⟩ := by simp only [skipOne, h0]
    simp only [countAndStrobe, e, if_true, strobe, strobeValues, ← Int.self_sub_floor]
    rfl

/-- The outputs of a walk that emits at some elements only, element by element (R235). -/
theorem scan_filterMap {σ α β : Type} (f : σ → α → σ × Option β) (s : σ) (xs : List α) (d : α) :
    (scan f s xs).2.filterMap id =
      (List.range xs.length).flatMap fun n => ((f (scanState f s xs n) (xs.getD n d)).2).toList := by
  have : (scan f s xs).2 = (List.range xs.length).map fun n => (f (scanState f s xs n) (xs.getD n d)).2 := by
    apply List.ext_getElem
    · simp
    · intro n h1 h2
      have := (scanState_succ f s xs d none (n := n) (by simpa using h1)).2
      simp only [List.getElem_map, List.getElem_range]
      rw [← this, List.getD_eq_getElem?_getD, List.getElem?_eq_getElem h1]; rfl
  rw [this, List.filterMap_map]
  induction List.range xs.length with
  | nil => rfl
  | cons a as ih =>
    rw [List.filterMap_cons, List.flatMap_cons, ← ih]
    simp only [Function.comp, id]
    cases (f (scanState f s xs a) (xs.getD a d)).2 <;> rfl

/-! ### No stage reads CP -/

/-- The state with another value of CP. -/
def withCp (k : Nat) (s : State) : State := { s with cp := k }

variable (P : Config.Params) (k : Nat) (s : State)

theorem decimhb_withCp : decimhb P (withCp k s) = withCp k (decimhb P s) := by
  unfold decimhb withCp passes; dsimp only; split_ifs <;> rfl
theorem decimleg_withCp : decimleg P (withCp k s) = withCp k (decimleg P s) := by
  unfold decimleg withCp passes; dsimp only; split_ifs <;> rfl
theorem chlpf_withCp : chlpf P (withCp k s) = withCp k (chlpf P s) := by
  unfold chlpf withCp; dsimp only; split_ifs <;> rfl
theorem sqlm_withCp : sqlm (withCp k s) = withCp k (sqlm s) := rfl
theorem dcblk_withCp : dcblk (withCp k s) = withCp k (dcblk s) := rfl
theorem agc_withCp : agc (withCp k s) = withCp k (agc s) := by unfold agc withCp; dsimp only; split_ifs <;> rfl
theorem limit_withCp : limit (withCp k s) = withCp k (limit s) := rfl
theorem iqbal_withCp : iqbal (withCp k s) = withCp k (iqbal s) := by
  unfold iqbal withCp; dsimp only; split_ifs <;> rfl
theorem flldd_withCp : flldd P (withCp k s) = withCp k (flldd P s) := by
  unfold flldd withCp; dsimp only; split_ifs <;> rfl
theorem fllbe_withCp : fllbe P (withCp k s) = withCp k (fllbe P s) := by
  unfold fllbe withCp; dsimp only; split_ifs <;> rfl
theorem mf5_withCp : mf5 P (withCp k s) = withCp k (mf5 P s) := rfl
theorem rrc_withCp : rrc P (withCp k s) = withCp k (rrc P s) := by
  unfold rrc rrcRefresh withCp; dsimp only; split_ifs <;> rfl
theorem tedm_withCp : tedm P (withCp k s) = withCp k (tedm P s) := rfl
theorem tedf_withCp : tedf P (withCp k s) = withCp k (tedf P s) := rfl
theorem discriminate_withCp : discriminate P (withCp k s) = withCp k (discriminate P s) := rfl
theorem discraw_withCp : discraw (withCp k s) = withCp k (discraw s) := rfl
theorem gate_withCp : gate (withCp k s) = withCp k (gate s) := rfl

end Sys2Proof.Machine
end

