-- ==== Sys2Proof/Laws/TimingRanges.lean ====
section
/-! SUPPORT. For each part of the timing loop, that it keeps the ranges of the TED registers and of the delay line. -/

namespace Sys2Proof.Machine

open Sys2Proof.Safety

/-! ### The clamp of omega -/

/-- A narrower clamp lies inside a wider one. -/
theorem inClamp_mono {sps : Int} (hs : 0 ≤ sps) {rel rel' omega : Rat} (h : rel ≤ rel')
    (ho : Config.InClamp sps rel omega) : Config.InClamp sps rel' omega := by
  have hs' : (0 : Rat) ≤ sps := by exact_mod_cast hs
  exact ⟨(mul_le_mul_of_nonneg_left (by linarith) hs').trans ho.1, ho.2.trans (mul_le_mul_of_nonneg_left (by linarith) hs')⟩

/-- The nominal rate lies in every clamp. -/
theorem inClamp_sps {sps : Int} (hs : 0 ≤ sps) {rel : Rat} (h : 0 ≤ rel) : Config.InClamp sps rel (sps : Rat) := by
  have hs' : (0 : Rat) ≤ sps := by exact_mod_cast hs
  exact ⟨by nlinarith, by nlinarith⟩

/-- The values TED_OMEGA_REL can hold. -/
theorem cfgOk_rel {c : CfgRegs} (hc : CfgOk c) : 0 ≤ c.tedOmegaRel ∧ c.tedOmegaRel ≤ 1 / 4 := by
  simpa [legalReal, getReal] using hc.reals .tedOmegaRel rfl

theorem cfgOk_gainMu {c : CfgRegs} (hc : CfgOk c) : 0 ≤ c.tedGainMu ∧ c.tedGainMu ≤ 1 / 2 := by
  simpa [legalReal, getReal] using hc.reals .tedGainMu rfl

theorem cfgOk_sps {c : CfgRegs} (hc : CfgOk c) : 2 ≤ c.tedSps ∧ c.tedSps ≤ 20 :=
  of_decide_eq_true (hc.ints .tedSps rfl (by decide))

/-- Every value stored in `omega` is quantised, and quantising keeps the clamp (R12, R233). -/
theorem qreal_inClamp {c : CfgRegs} (hc : CfgOk c) {sps : Int} (h2 : 2 ≤ sps) (h20 : sps ≤ 20) {v : Rat}
    (h : Config.InClamp sps c.tedOmegaRel v) : Config.InClamp sps c.tedOmegaRel (Config.params.qreal v) :=
  Config.params.qreal_omega _ _ _ h2 h20 hc.rel h

/-- R222: after the update `omega` lies in its clamp. -/
theorem nextOmega_inClamp {c : CfgRegs} (hc : CfgOk c) {t : TedRegs} (h2 : 2 ≤ t.sps) (h20 : t.sps ≤ 20) (e : Rat) :
    Config.InClamp t.sps c.tedOmegaRel (nextOmega Config.params c t e) := by
  refine qreal_inClamp hc h2 h20 (clampRat_mem _ ?_)
  have h0 := (cfgOk_rel hc).1
  have hs : (0 : Rat) ≤ t.sps := by exact_mod_cast (by omega : (0 : Int) ≤ t.sps)
  exact mul_le_mul_of_nonneg_left (by linarith) hs

theorem gardnerError_mem (last cur mid : RCplx) : -1 ≤ gardnerError last cur mid ∧ gardnerError last cur mid ≤ 1 :=
  clampRat_mem _ (by norm_num)

/-! ### Parts of a strobe -/

/-- R222: the loop update, from registers in range and an error in [−1, 1]. -/
theorem loopUpdate_tedOk {c : CfgRegs} (hc : CfgOk c) {t : TedRegs} (ht : TedOk t) {e : Rat} (he : -1 ≤ e ∧ e ≤ 1) :
    TedOk (loopUpdate Config.params c e t) ∧
      Config.InClamp t.sps c.tedOmegaRel (loopUpdate Config.params c e t).omega ∧
      1 ≤ (loopUpdate Config.params c e t).tedSkip := by
  have ho := nextOmega_inClamp hc ht.sps.1 ht.sps.2 e
  have hr := cfgOk_rel hc
  have hg := cfgOk_gainMu hc
  have hm := ht.mu
  have hs2 : (2 : Rat) ≤ t.sps := by exact_mod_cast ht.sps.1
  have hs20 : (t.sps : Rat) ≤ 20 := by exact_mod_cast ht.sps.2
  have low : (3 : Rat) / 2 ≤ nextOmega Config.params c t e := by
    refine le_trans ?_ ho.1
    nlinarith
  have high : nextOmega Config.params c t e ≤ 25 := by
    refine ho.2.trans ?_
    nlinarith
  have g1 : -(1 / 2) ≤ c.tedGainMu * e := by nlinarith
  have g2 : c.tedGainMu * e ≤ 1 / 2 := by nlinarith
  have f1 : 1 ≤ (t.mu + nextOmega Config.params c t e + c.tedGainMu * e).floor := by
    rw [Rat.le_floor_iff]; push_cast; linarith
  have f2 : (t.mu + nextOmega Config.params c t e + c.tedGainMu * e).floor < 27 := by
    rw [Rat.floor_lt_iff]; push_cast; linarith
  refine ⟨?_, ho, by simp only [loopUpdate]; omega⟩
  constructor
  · refine Config.params.qreal_fraction _ ?_ ?_
    · have := Rat.floor_le (t.mu + nextOmega Config.params c t e + c.tedGainMu * e); linarith
    · have := Rat.lt_floor_add_one (t.mu + nextOmega Config.params c t e + c.tedGainMu * e); push_cast at this; linarith
  · exact ht.sps
  · exact ht.twice
  · exact inClamp_mono (sps := t.sps) (by have := ht.sps.1; omega) hr.2 ho
  · exact ht.ema
  · exact ht.count
  · exact ht.index
  · exact ht.kicks
  · simp only [loopUpdate]; omega

/-- R223: the smoothing is a convex combination, so `e_ema` stays in [−1, 1]. -/
theorem smoothError_tedOk {t : TedRegs} (ht : TedOk t) {e : Rat} (he : -1 ≤ e ∧ e ≤ 1) :
    TedOk (smoothError Config.params e t) := by
  have a0 := Config.params.tedEmaAlpha_nonneg
  have a1 := Config.params.tedEmaAlpha_le
  have h := ht.ema
  exact { ht with ema := Config.params.qreal_error _ (by nlinarith) (by nlinarith) }

/-- R231: the lock window. -/
theorem lockUpdate_tedOk (c : CfgRegs) (yl : Rat) {t : TedRegs} (ht : TedOk t) :
    TedOk (lockUpdate Config.params c yl t) := by
  unfold lockUpdate
  dsimp only
  split_ifs with h
  · exact { ht with count := Nat.zero_le _ }
  · exact { ht with count := by dsimp only; omega }

/-- R232: a kick. -/
theorem fastKick_tedOk {c : CfgRegs} (hc : CfgOk c) {t : TedRegs} (ht : TedOk t)
    (ho : Config.InClamp t.sps c.tedOmegaRel t.omega) (e : Rat) :
    TedOk (fastKick Config.params e t) ∧ Config.InClamp t.sps c.tedOmegaRel (fastKick Config.params e t).omega := by
  unfold fastKick
  split_ifs
  · have h := qreal_inClamp hc ht.sps.1 ht.sps.2
      (Config.params.tedKick_omega _ _ t.mu _ e t.eEma ht.sps.1 ht.sps.2 hc.rel ho)
    have hm := Config.params.tedKick_mu t.mu t.omega e t.eEma ht.mu.1 ht.mu.2
    refine ⟨{ ht with mu := ?_, omega := ?_, kicks := ?_ }, h⟩
    · exact Config.params.qreal_fraction _ hm.1 hm.2
    · exact inClamp_mono (sps := t.sps) (by have := ht.sps.1; omega) (cfgOk_rel hc).2 h
    · have := ht.kicks; dsimp only; omega
  · exact ⟨ht, ho⟩

/-! ### Between strobes -/

/-- R216: a change of samples per symbol sets the registers up for it. -/
theorem spsCheck_tedOk {c : CfgRegs} (hc : CfgOk c) {t : TedRegs} (ht : TedOk t) :
    TedOk (spsCheck Config.params c t) := by
  have hs := cfgOk_sps hc
  unfold spsCheck
  split_ifs
  · exact ht
  · refine ⟨Config.params.qreal_fraction 0 le_rfl (by norm_num), hs, rfl, ?_, ?_, Nat.zero_le _, ht.index, le_rfl,
      Nat.zero_le _⟩
    · exact inClamp_mono (sps := c.tedSps) (by omega) (cfgOk_rel hc).2
        (qreal_inClamp hc hs.1 hs.2 (inClamp_sps (by omega) (cfgOk_rel hc).1))
    · exact Config.params.qreal_error 0 (by norm_num) (by norm_num)

theorem tedDlSize_pos : 0 < Config.params.tedDlSize := by have := Config.params.tedDlSize_ge; omega

/-- R218: a push moves the index inside the line. -/
theorem tedPush_tedOk {l : TedLoop} (h : TedOk l.regs) (x : Cplx) : TedOk (tedPush Config.params x l).regs :=
  { h with index := Nat.mod_lt _ tedDlSize_pos }

/-- R65, R100: a push of an int16 sample at a legal index keeps the delay line as it should be. -/
theorem pushDl_dlOk {m : Memory} (h : DlOk m) {idx : Nat} (hi : idx < Config.params.tedDlSize) {x : Cplx}
    (hx : IsInt16Pair x) : DlOk (pushDl Config.params idx x m) where
  canonical := pushDl_wf _ h.canonical _ _
  inside a ha := by rw [read_pushDl_of_ne _ h.canonical _ _ _ (by omega) (by omega)]; exact h.inside a ha
  int16 := pushDl_isInt16 _ h.canonical h.int16 _ hx
  doubled i hi' := by
    rw [readSlot_pushDl _ h.canonical, readSlot_pushDl _ h.canonical]
    by_cases e : i = idx
    · rw [if_pos (.inr (by omega)), if_pos (.inl e)]
    · rw [if_neg (by omega), if_neg (by omega)]; exact h.doubled i hi'

theorem skipOne_tedOk {l : TedLoop} (h : TedOk l.regs) : TedOk (skipOne l).regs :=
  { h with skip := by have := h.skip; simp only [skipOne]; omega }

end Sys2Proof.Machine
end

