-- ==== Sys2Proof/Tests/Slice0.lean ====
section
/-! SUPPORT. Tests: the well-formedness checks, the decoding of words written out from the tables of spec/30_encoding.md, one
step of each operation against the vectors of spec/95_test_vectors.md (named T-... there), and for each statement with
hypotheses a state that meets them. -/

namespace Sys2Proof.Tests

open Sys2Proof Sys2Proof.Config Sys2Proof.Machine Sys2Proof.Safety

/-! ### Well-formedness -/

theorem test_wrr_register_too_large : (Instr.wrr 256 0).wellFormed = false := by decide
theorem test_wrs_register_too_large : (Instr.wrs 256 0).wellFormed = false := by decide
theorem test_blk_length_too_large : (Instr.blk 65536).wellFormed = false := by decide
theorem test_load_length_too_large : (Instr.load 65536).wellFormed = false := by decide

/-! ### Decoding: one word of every operation, from the table of R116 and the formats of R111 -/

theorem test_decode_nop : decode [0x00000000] = .ok .nop := by decide
theorem test_decode_wrr : decode [0x01220000, 0x001E8480] = .ok (.wrr 0x22 2000000) := by decide
theorem test_decode_wrs : decode [0x0208000B] = .ok (.wrs 0x08 11) := by decide
theorem test_decode_rst : decode [0x03000000] = .ok .rst := by decide
theorem test_decode_fllrst : decode [0x04000000] = .ok .fllrst := by decide
theorem test_decode_errclr : decode [0x05000000] = .ok .errclr := by decide
theorem test_decode_blk : decode [0x1000FFFF] = .ok (.blk 65535) := by decide
theorem test_decode_load : decode [0x11001000] = .ok (.load 4096) := by decide
theorem test_decode_emit : decode [0x12000000] = .ok .emit := by decide
theorem test_decode_decimhb : decode [0x20000000] = .ok .decimhb := by decide
theorem test_decode_decimleg : decode [0x21000000] = .ok .decimleg := by decide
theorem test_decode_chlpf : decode [0x22000000] = .ok .chlpf := by decide
theorem test_decode_sqlm : decode [0x23000000] = .ok .sqlm := by decide
theorem test_decode_dcblk : decode [0x24000000] = .ok .dcblk := by decide
theorem test_decode_agc : decode [0x25000000] = .ok .agc := by decide
theorem test_decode_limit : decode [0x26000000] = .ok .limit := by decide
theorem test_decode_iqbal : decode [0x27000000] = .ok .iqbal := by decide
theorem test_decode_flldd : decode [0x28000000] = .ok .flldd := by decide
theorem test_decode_fllbe : decode [0x29000000] = .ok .fllbe := by decide
theorem test_decode_mf5 : decode [0x2A000000] = .ok .mf5 := by decide
theorem test_decode_rrc : decode [0x2B000000] = .ok .rrc := by decide
theorem test_decode_tedm : decode [0x2C000000] = .ok .tedm := by decide
theorem test_decode_tedf : decode [0x2D000000] = .ok .tedf := by decide
theorem test_decode_discfm : decode [0x2E000000] = .ok .discfm := by decide
theorem test_decode_discdq : decode [0x2F000000] = .ok .discdq := by decide
theorem test_decode_discraw : decode [0x30000000] = .ok .discraw := by decide
theorem test_decode_gate : decode [0x31000000] = .ok .gate := by decide

/-- Section 2.1, decode corner cases. -/
theorem test_decode_refuses :
    decode [0x2E000001] = .error (.nonzeroField 0x2E000001) ∧
    decode [0x06000000] = .error (.unassignedOpcode 0x06000000) ∧
    decode [0x10FF0008] = .error (.nonzeroField 0x10FF0008) ∧
    decode [0x01000001, 5] = .error (.nonzeroField 0x01000001) ∧
    decode [0x01000000] = .error .noData ∧ decode [] = .error .noWord := by decide

/-- The bits of the table, the data word above bit 31. -/
theorem test_decode_table_word :
    decodeTableWord 64 0x0000BB8001000000 = some (.wrr 0 48000) ∧ decodeTableWord 32 0x31000000 = some .gate ∧
      decodeTableWord 32 0x32000000 = none := by decide

/-- A placed instruction is the one fetched, from reset and in the middle of a stream. -/
theorem test_fetch_of_placed_word :
    fetch (State.reset.withFetchWord 64 0x0000BB8001000000) = .ok (.wrr 0 48000) ∧
      fetch (({ State.reset with cp := 2, cmds := [0, 0, 0] } : State).withFetchWord 32 0x02080005) = .ok (.wrs 8 5) := by
  decide

/-! ### One step of each operation -/

/-- The machine at reset with a block in BUF and a configuration. -/
def block (b : List Int) (c : CfgRegs) : State := { State.reset with buf := b, cfg := c }

/-- The machine at reset with words in the sample port, at a given rate. -/
def port (rate : Int) (words : List Sample) : State := { State.reset with samples := words, cfg := { sampleRateHz := rate } }

/-- The machine at reset with words at the command port. -/
def program (cmds : List Word) : State := { State.reset with cmds := cmds }

/-- The state after an outcome that has one. -/
def stateOf (o : Host.Outcome State Fault Refusal) (s : State) : State :=
  match o with
  | .next t => t
  | .fault _ => s
  | .refused _ => s

/-- The state after a step. -/
def after (s : State) : State := stateOf (step s) s

/-- T-CTL-1. -/
theorem test_nop : after (program [0, 0]) = { program [0, 0] with cp := 1 } := by decide +kernel

/-- T-CTL-6: 65536 gives 16. -/
theorem test_wrr_window : (after (program [0x01230000, 65536])).sql.windowLog2 = 16 := by decide +kernel

/-- T-EX-12: both words are consumed. -/
theorem test_wrr_bad_register :
    (after (program [0x01900000, 5])).err = { code := 5, count := 1, stage := 0x01, info := 0x90 } ∧
      (after (program [0x01900000, 5])).cp = 2 := by decide +kernel

/-- T-CTL-6: SQL_STRIDE 4 brings a phase of 6 to 2. -/
theorem test_wrs_stride : (wrs 0x24 4 { State.reset with sql := { decimPhase := 6 } }).sql.decimPhase = 2 := by decide +kernel

/-- T-EX-5: refused, the register stays 11. -/
theorem test_wrs_range :
    (after (program [0x02080005])).err = { code := 3, count := 1, stage := 0x02, info := 5 } ∧
      (after (program [0x02080005])).cfg.dcBlockShift = 11 := by decide +kernel

/-- T-CTL-4. -/
theorem test_rst : rst { block [1, 2] { tedSps := 4 } with err := { code := 5, count := 9, blocksDone := 3 } } = State.reset := by
  decide +kernel

/-- T-CTL-5: `disc_prev` stays. -/
theorem test_fllrst :
    fllrst { State.reset with fll := ⟨16384, 3, 1000, 0, true, 7, 9⟩, cond := { discPrevR := 1000 } } =
      { State.reset with cond := { discPrevR := 1000 } } := by decide +kernel

/-- T-EX-14. -/
theorem test_errclr : (errclr { State.reset with err := ⟨5, 4, 0x2E, 7, 2⟩ }).err = ⟨0, 4, 0x2E, 7, 2⟩ := by decide +kernel

/-- Program P1, first block. -/
theorem test_blk_fm :
    (stateOf (blk {} 8 (port 24000 [1000, 0, 0, 1000, -1000, 0, 0, -1000])) State.reset).outPort =
      [⟨4, [0, 8192, 8192, 8192], true, 0⟩] := by decide +kernel

/-- T-EX-3: a bad rate outranks an odd length. -/
theorem test_blk_bad_rate :
    let t := stateOf (blk {} 7 (port 0 [1, 2, 3, 4, 5, 6, 7])) State.reset
    t.outPort = [⟨0, [], false, 2⟩] ∧ t.err = ⟨2, 1, 0x11, 0, 0⟩ ∧ t.samples = [] := by decide +kernel

/-- T-CTL-2. -/
theorem test_load : (load {} 4 (port 24000 [10, -20, 30, -40])).buf = [10, -20, 30, -40] := by decide +kernel

/-- T-EX-4: BUF is unchanged. -/
theorem test_load_odd :
    (load {} 7 (port 48000 [1, 2, 3, 4, 5, 6, 7])).err = ⟨1, 1, 0x11, 7, 0⟩ ∧
      (load {} 7 (port 48000 [1, 2, 3, 4, 5, 6, 7])).buf = [] := by decide +kernel

/-- T-CTL-2. -/
theorem test_emit : (emit { State.reset with out := [10, -20] }).outPort = [⟨2, [10, -20], false, 0⟩] := by decide +kernel

/-- T-DEC-2, first block. -/
theorem test_decimhb :
    (decimhb {} (block [100, -100, 200, -200, 300, -300, 400, -400, 500, -500, 600, -600, 700, -700, 800, -800, 900, -900]
      { downsamplePasses := 2 })).buf = [50, -50, 450, -450] := by decide +kernel

/-- T-DEC-4: the output saturates. -/
theorem test_decimhb_saturates :
    (decimhb { hb31 := 34709 :: List.replicate 30 0 } (block [32767, -32768, 5, 5] { downsamplePasses := 1 })).buf =
      [32767, -32768] := by decide +kernel

/-- R144: the block and state the binding gives are stored. -/
theorem test_decimleg : (decimleg {} (block [1, 2, 3, 4, 5, 6] { downsamplePasses := 1 })).buf = [0, 0] := by decide +kernel

/-- T-LPF-1, first block. -/
theorem test_chlpf : (chlpf {} (block [100, -100, 201, -201, -300, 300] {})).buf = [50, -50, 151, -151, -50, 50] := by
  decide +kernel

/-- T-SQ-1, first block. -/
theorem test_sqlm :
    (sqlm { block [3000, 4000, 1, 1, 300, 400, 2, 2, 0, 1000, 5, 5] { sqlStride := 4, sqlWindow := 4, sqlLevel := 1000000 } with
      sql := { windowLog2 := 2 } }).sql = ⟨2187500, 2, 0, true, 0⟩ := by decide +kernel

/-- T-SQ-3, second block: the grid starts at the phase the first block left. -/
theorem test_sqlm_phase :
    (sqlm { block [9, 9, 5, 12, 9, 9] { sqlStride := 4 } with sql := { decimPhase := 2 } }).sql = ⟨169, 0, 0, true, 0⟩ := by
  decide +kernel

/-- T-DC-1. -/
theorem test_dcblk :
    (dcblk (block [6400, -6400, 6400, -6400, 6400, -6400] { dcBlockShift := 6 })).buf =
      [6300, -6300, 6202, -6202, 6105, -6105] := by decide +kernel

/-- T-DC-4: the output saturates. -/
theorem test_dcblk_saturates :
    (dcblk { block [32767, 0] { dcBlockShift := 15 } with cond := { dcR := -32768 } }).buf = [32767, 0] := by decide +kernel

/-- T-AGC-1. -/
theorem test_agc :
    (agc (block [10362, 0, 0, 10362, -10362, 0, 0, -10362] { agcAlphaDownQ15 := 32768 })).cond.gainQ15 = 31623 ∧
      (agc (block [10362, 0, 0, 10362, -10362, 0, 0, -10362] { agcAlphaDownQ15 := 32768 })).buf =
        [10000, 0, 0, 10000, -10000, 0, 0, -10000] := by decide +kernel

/-- T-AGC-4: the raw target is clamped to 8. -/
theorem test_agc_clamp : (agc (block [100, 0, 0, 100] { agcAlphaUpQ15 := 32768 })).buf = [800, 0, 0, 800] := by decide +kernel

/-- T-LIM-1. -/
theorem test_limit :
    (limit (block [30000, 0, 3000, 4000, 3000, 3999, 0, 0, 12000, 16000, 12001, 16000, -20000, -20000] {})).buf =
      [10000, 0, 3000, 4000, 6001, 8000, 0, 0, 12000, 16000, 6001, 8000, -7071, -7071] := by decide +kernel

/-- T-IQ-3. -/
theorem test_iqbal :
    (iqbal (block [1200, 0, 0, 1000, -1200, 0, 0, -1000] { iqbalEmaQ15 := 16384 })).buf =
      [1092, 0, 0, 1090, -1092, 0, 0, -1090] := by decide +kernel

/-- T-IQ-4: the coefficient moves, below the threshold BUF does not. -/
theorem test_iqbal_below_threshold :
    iqbal (block [1200, 0, 0, 1000, -1200, 0, 0, -1000] { iqbalEmaQ15 := 16384, iqbalThrQ15 := 3000 }) =
      { block [1200, 0, 0, 1000, -1200, 0, 0, -1000] { iqbalEmaQ15 := 16384, iqbalThrQ15 := 3000 } with
        cond := { iqEmaR := 2955 } } := by decide +kernel

/-- The gains of T-FLL-1. -/
def fllCfg : CfgRegs := { fllBetaQ15 := 32768, fllSlewMaxQ15 := 8192, fllDeadbandQ14 := 2048 }

/-- T-FLL-1, block 0. -/
theorem test_flldd :
    (flldd {} (block [1000, 0, -1000, 0, 1000, 0, -1000, 0] fllCfg)).fll = ⟨8192, 0, -1000, 0, false, 0, 12288⟩ := by
  decide +kernel

/-- T-FLL-1, block 1: the block is rotated before the estimate. -/
theorem test_flldd_rotates :
    let t := flldd {} { block [1000, 0, -1000, 0, 1000, 0, -1000, 0] fllCfg with fll := ⟨8192, 0, -1000, 0, false, 0, 12288⟩ }
    t.buf = [1000, 0, 0, 1000, -1000, 0, 0, -1000] ∧ t.fll = ⟨16384, 0, 0, -1000, false, 0, 10240⟩ := by decide +kernel

/-- T-FLL-5, third operation. -/
theorem test_fllbe_latches :
    (fllbe { lockBlocks := 3 } { block [1000, 0, 1000, 0] {} with fll := ⟨0, 0, 1000, 0, false, 2, 0⟩ }).fll =
      ⟨0, 0, 1000, 0, true, 3, 0⟩ := by decide +kernel

/-- T-FLL-6, block 1. -/
theorem test_fllbe_run_broken :
    (fllbe { beDetect := fun _ _ _ => 16384, beDetect_range := fun _ _ _ => by decide, lockFreqThr := 8192, lockBlocks := 2 }
      { block [1000, 0, 0, 1000, -1000, 0, 0, -1000] { fllBetaQ15 := 32768, fllSlewMaxQ15 := 8192 } with
        fll := ⟨8192, 0, 0, -1000, false, 1, 16384⟩ }).fll = ⟨16384, 0, 1000, 0, false, 0, 16384⟩ := by decide +kernel

/-- T-MF-1. -/
theorem test_mf5 : (mf5 {} (block [100, 0, 200, 0, 300, 0] {})).buf = [125, 0, 200, 0, 275, 0] := by decide +kernel

/-- T-MF-4. -/
theorem test_rrc :
    let t := rrc {} (block [7, -8, 9, 10] {})
    t.buf = [7, -8, 9, 10] ∧ t.rrc = ⟨10, 8192, 0, true⟩ ∧ t.rrcTaps.length = 111 := by decide +kernel

/-- T-MF-3. -/
theorem test_rrc_tap_counts :
    ntaps 10 0 = 111 ∧ ntaps 5 0 = 57 ∧ ntaps 10 4 = 81 ∧ ntaps 20 16 = 641 ∧ ntaps 2 1 = 5 ∧ ntaps 2 0 = 23 := by decide +kernel

/-- The block of T-TED-2. -/
def ramp : List Int := interleave ((List.range 12).map fun n => (1000 * ((n : Int) + 1), -500 * ((n : Int) + 1)))

/-- T-TED-2. -/
theorem test_tedm :
    let t := tedm {} (block ramp { tedSps := 2, tedGainMu := 0, tedGainOmega := 0 })
    t.buf = [0, 0, 0, 0, 1000, -500, 3000, -1500, 5000, -2500, 7000, -3500] ∧ t.ted.lockAccum = 79604 / 45305 ∧
      t.ted.tedSkip = 1 ∧ t.ted.dlIndex = 12 := by decide +kernel

/-- T-TED-1. -/
theorem test_tedf :
    let t := tedf {} (block (interleave (List.replicate 30 (16384, 0))) {})
    t.buf = [0, 0, 0, 0] ++ interleave (List.replicate 28 (16384, 0)) ∧ t.ted.mu = 63597 / 64000 ∧
      t.ted.omega = 639999 / 64000 ∧ t.ted.eEma = -225 / 16384 ∧ t.ted.lockCount = 4 := by decide +kernel

/-- T-DISC-1. -/
theorem test_discfm : (discfm {} (block [1000, 0, 0, 1000, -1000, 0, 0, -1000] {})).out = [0, 8192, 8192, 8192] := by
  decide +kernel

/-- T-DISC-3. -/
theorem test_discdq :
    (discdq {} { block [1000, 1000, -1000, 1000, -1000, -1000, 1000, -1000] {} with
      cond := { discPrevR := 1000, discPrevJ := -1000 } }).out = [8192, 8192, 8192, 8192] := by decide +kernel

/-- T-DISC-4. -/
theorem test_discraw : (discraw (block [5, -6, 7, 8] {})).out = [5, -6, 7, 8] := by decide +kernel

/-- T-GATE-1. -/
theorem test_gate :
    let t := gate { State.reset with
      out := [1000, -1000, 1000, -1000], cfg := { gateAttackQ15 := 16384 }, sql := { gateOpen := true } }
    t.out = [500, -750, 875, -938] ∧ t.sql.envQ15 = 30720 := by decide +kernel

/-- T-GATE-2. -/
theorem test_gate_release :
    (gate { State.reset with
      out := [1000, -1000, 1000, -1000], cfg := { gateReleaseQ15 := 8192 }, sql := { envQ15 := 30720 } }).out =
        [703, -527, 396, -297] := by decide +kernel

/-- T-EX-9. -/
theorem test_illegal_word :
    (after (program [0x2E000001])).err = ⟨4, 1, 0x2E, 0x2E000001, 0⟩ ∧ (after (program [0x2E000001])).cp = 1 := by
  decide +kernel

/-! ### Hypotheses that can be met: for each statement with hypotheses, each of its clauses -/

/-- A step that completes, as an equation. -/
theorem step_stateOf {s t : State} (h : ∃ u, step s = .next u) (e : after s = t) : step s = .next t := by
  obtain ⟨u, hu⟩ := h
  rw [← e, hu, after, hu]; rfl

theorem witness_DecodeOfEncode :
    (Instr.wrr 255 7).wellFormed = true ∧ (Instr.wrs 0 (-1)).wellFormed = true ∧ (Instr.blk 65535).wellFormed = true ∧
      (Instr.load 0).wellFormed = true ∧ Instr.gate.wellFormed = true := by decide

theorem witness_EncodeOfDecode :
    decode [0x01FF0000, 0xFFFFFFFF, 3] = .ok (.wrr 255 0xFFFFFFFF) ∧ decode [0x02FFFFFF] = .ok (.wrs 255 (-1)) ∧
      decode [0x10000000] = .ok (.blk 0) := by decide

theorem witness_StepRunsDecodedInstruction_next :
    fetch (program [0x30000000]) = .ok .discraw ∧ ∃ t, exec .discraw (program [0x30000000]) = .next t :=
  ⟨by decide, _, rfl⟩

theorem witness_StepRunsDecodedInstruction_fault :
    fetch { program [0x23000000] with buf := [1] } = .ok .sqlm ∧
      exec .sqlm { program [0x23000000] with buf := [1] } = .fault .readBeyondValid := ⟨by decide, by rfl⟩

theorem witness_WaitingChangesNothing_no_word : (program [0]).cmds.length ≤ ({ program [0] with cp := 1 } : State).cp := by
  decide

theorem witness_WaitingChangesNothing_no_data :
    ({ program [0, 0x01FF0000] with cp := 1 } : State).cmds.drop 1 = [0x01FF0000] ∧ opField 0x01FF0000 = 0x01 ∧
      immField 0x01FF0000 = 0 := by decide

theorem witness_WaitingChangesNothing_no_samples : (port 48000 [7]).samples.length < 2 := by decide

theorem witness_IllegalWordRaisesCmdIllegal :
    (program [0x06000000]).cmds.drop (program [0x06000000]).cp = [0x06000000] ∧
      decode [0x06000000] = .error (.unassignedOpcode 0x06000000) ∧
      (program [0x10FF0008]).cmds.drop (program [0x10FF0008]).cp = [0x10FF0008] ∧
      decode [0x10FF0008] = .error (.nonzeroField 0x10FF0008) := by decide

/-- The last control command of a batch. -/
theorem witness_SnapshotExactlyAtBatchBoundary :
    fetch (program [0x05000000]) = .ok .errclr ∧ step (program [0x05000000]) = .next (after (program [0x05000000])) ∧
      (after (program [0x05000000])).cp ≠ (program [0x05000000]).cp ∧ Instr.errclr.isControl = true ∧
      controlFollows (after (program [0x05000000])) = false :=
  ⟨by decide, step_stateOf ⟨_, rfl⟩ rfl, by decide +kernel, rfl, by decide +kernel⟩

/-- A control command with another one following. -/
theorem witness_SnapshotExactlyAtBatchBoundary_none :
    fetch (program [0, 0]) = .ok .nop ∧ step (program [0, 0]) = .next (after (program [0, 0])) ∧
      (after (program [0, 0])).cp ≠ (program [0, 0]).cp ∧ controlFollows (after (program [0, 0])) = true :=
  ⟨by decide, step_stateOf ⟨_, rfl⟩ rfl, by decide +kernel, by decide +kernel⟩

/-- The first and the last row of the table of INT and Qn registers, and the first number past it. -/
theorem witness_ConfigRegistersAreThoseOfTheTable :
    cfgRegOf 0x01 = some .pathMode ∧ cfgRegOf 0x27 = some .gateReleaseQ15 ∧ 0x27 < 0x28 ∧ cfgRegOf 0x28 = none := by decide

theorem witness_WrrStoresLegalValue_integer :
    cfgRegOf 0x23 = some .sqlWindow ∧ isReal .sqlWindow = false ∧ legalInt .sqlWindow (65536 : Word).toInt = true ∧
      cfgRegOf 0x24 = some .sqlStride ∧ legalInt .sqlStride (65534 : Word).toInt = true ∧
      cfgRegOf 0x08 = some .dcBlockShift ∧ legalInt .dcBlockShift (6 : Word).toInt = true := by decide

theorem witness_WrrStoresLegalValue_real :
    cfgRegOf 0x21 = some .tedLockThr ∧ isReal .tedLockThr = true ∧
      legalReal .tedLockThr (((0xFFFFFFFF : Word).toNat : Rat) / 2 ^ 32) = true := by decide +kernel

theorem witness_WrsStoresLegalInteger :
    cfgRegOf 0x27 = some .gateReleaseQ15 ∧ isReal .gateReleaseQ15 = false ∧
      legalInt .gateReleaseQ15 (32767 : BitVec 16).toInt = true := by decide

theorem witness_RefusedWritesRaise_number : 0x27 < 0x28 ∧ 0x27 < 0xFF := by decide

theorem witness_RefusedWritesRaise_wrr_value :
    cfgRegOf 0x08 = some .dcBlockShift ∧ isReal .dcBlockShift = false ∧ legalInt .dcBlockShift (16 : Word).toInt = false ∧
      cfgRegOf 0x20 = some .tedOmegaRel ∧ isReal .tedOmegaRel = true ∧
      legalReal .tedOmegaRel (((0x40000001 : Word).toNat : Rat) / 2 ^ 32) = false := by decide +kernel

theorem witness_RefusedWritesRaise_wrs_value :
    cfgRegOf 0x1E = some .tedGainMu ∧ isReal .tedGainMu = true ∧ cfgRegOf 0x15 = some .fllDeadbandQ14 ∧
      legalInt .fllDeadbandQ14 (-1 : BitVec 16).toInt = false := by decide

theorem witness_WindowLog2IsNearestPower :
    1 ≤ (1 : Word).toInt ∧ (1 : Word).toInt ≤ 65536 ∧ 1 ≤ (65536 : Word).toInt ∧ (65536 : Word).toInt ≤ 65536 := by decide

/-- A legal rate, and the longest legal block, all of whose words are there. -/
theorem witness_LoadFillsBuf :
    let s := port 96000 (List.replicate Config.params.maxLen 5)
    Config.params.maxLen ≤ s.samples.length ∧ s.cfg.sampleRateHz = 96000 ∧ Config.params.maxLen % 2 = 0 :=
  ⟨by simp [port], rfl, Config.params.maxLen_even⟩

theorem witness_LoadRaisesInPriority_rate :
    (port 0 [1, 2, 3]).samples.length = 3 ∧ ¬ ((port 0 [1, 2, 3]).cfg.sampleRateHz = 24000 ∨
      (port 0 [1, 2, 3]).cfg.sampleRateHz = 48000 ∨ (port 0 [1, 2, 3]).cfg.sampleRateHz = 96000) := by decide

theorem witness_LoadRaisesInPriority_odd :
    1 ≤ (port 24000 [1]).samples.length ∧ (port 24000 [1]).cfg.sampleRateHz = 24000 ∧ 1 % 2 = 1 := by decide

theorem witness_LoadRaisesInPriority_length :
    let s := port 48000 (List.replicate (Config.params.maxLen + 2) 5)
    Config.params.maxLen + 2 ≤ s.samples.length ∧ s.cfg.sampleRateHz = 48000 ∧ (Config.params.maxLen + 2) % 2 = 0 ∧
      Config.params.maxLen < Config.params.maxLen + 2 :=
  ⟨by simp [port], rfl, by have := Config.params.maxLen_even; omega, by omega⟩

theorem witness_BlkHaltedSendsEmptyRecord :
    2 ≤ (port 0 [1, 2]).samples.length ∧ (port 0 [1, 2]).cfg.sampleRateHz = 0 ∧
      ∃ t, exec (.load 2) (port 0 [1, 2]) = .next t := ⟨by decide, rfl, _, rfl⟩

theorem witness_BlkEqualsItsCommandSequence :
    let s := port 24000 (List.replicate Config.params.maxLen 5)
    Config.params.maxLen ≤ s.samples.length ∧ s.cfg.sampleRateHz = 24000 ∧ Config.params.maxLen % 2 = 0 :=
  ⟨by simp [port], rfl, Config.params.maxLen_even⟩

theorem witness_BlkCompletes :
    let s := port 24000 (List.replicate Config.params.maxLen 5)
    Config.params.maxLen ≤ s.samples.length ∧ s.cfg.sampleRateHz = 24000 ∧ Config.params.maxLen % 2 = 0 ∧
      s.cfg.sqlStride % 2 = 0 ∧ s.sql.decimPhase % 2 = 0 :=
  ⟨by simp [port], rfl, Config.params.maxLen_even, rfl, rfl⟩

/-- DecimhbIsFilterCascade, DecimlegAppliesLegacyFunction, DecimatorsDivideLength: N = 0, a block too short for N, and the
shortest block long enough for it. -/
theorem witness_Decimators :
    (block [1, 2] {}).cfg.downsamplePasses = (0 : Nat) ∧
      (block [1, 2] { downsamplePasses := 8 }).cfg.downsamplePasses = (8 : Nat) ∧
      8 ≤ (block [1, 2] {}).hbHist.length ∧ (block [1, 2] {}).buf.length / 2 / 2 ^ 8 = 0 ∧
      (block [1, 2, 3, 4] { downsamplePasses := 1 }).buf.length / 2 / 2 ^ 1 ≠ 0 ∧
      (block [1, 2, 3, 4] {}).buf.length % 2 = 0 ∧ 2 ^ (1 + 1) ∣ (block [1, 2, 3, 4] {}).buf.length := by decide

/-- ChlpfIsStreamingFilter, FllddRotatesEstimatesUpdates, FllbeRotatesAndLatches, and the sample clauses of the statements about
DCBLK, IQBAL, MF5, RRC, DISCFM and DISCDQ: the empty block and a block of one sample. -/
theorem witness_EmptyAndOneSample : (block [] {}).buf.length / 2 = 0 ∧ (block [5, 6] {}).buf.length / 2 ≠ 0 := by decide

theorem witness_ChlpfPassesConstant :
    let s : State := { block [-32768, 32767, -32768, 32767] {} with
      chlpfHistR := List.replicate 62 (-32768), chlpfHistJ := List.replicate 62 32767 }
    IsInt16 (-32768) ∧ IsInt16 32767 ∧ s.chlpfHistR = List.replicate 62 (-32768) ∧
      s.chlpfHistJ = List.replicate 62 32767 ∧
      ∀ n, n < s.buf.length / 2 → elemI s.buf n = -32768 ∧ elemQ s.buf n = 32767 := by decide +kernel

/-- A block of one sample, with its integer square root. -/
theorem witness_AgcScalesByUpdatedGain :
    (block [3, 4] {}).buf.length / 2 ≠ 0 ∧ ((5 : Nat) : Int) ^ 2 ≤ (3 ^ 2 + 4 ^ 2) / 1 ∧
      (3 ^ 2 + 4 ^ 2 : Int) / 1 < (((5 : Nat) : Int) + 1) ^ 2 := by decide

/-- Both bounds of the tolerance are inside it; zero; both sides outside. -/
theorem witness_LimitRescalesOutsideTolerance :
    (10000 * 10000 ≤ 4 * (3000 * 3000 + 4000 * 4000 : Int) ∧ (12000 * 12000 + 16000 * 16000 : Int) ≤ 4 * 10000 * 10000) ∧
      (0 * 0 + 0 * 0 : Int) = 0 ∧ 4 * (3000 * 3000 + 3999 * 3999 : Int) < 10000 * 10000 ∧
      4 * 10000 * 10000 < (12001 * 12001 + 16000 * 16000 : Int) ∧ ((4998 : Nat) : Int) ^ 2 ≤ 3000 * 3000 + 3999 * 3999 ∧
      (3000 * 3000 + 3999 * 3999 : Int) < (((4999 : Nat) : Int) + 1) ^ 2 := by decide

theorem witness_RoundingPrimitivesMeetTheirDefinitions : (0 : Int) ≤ 0 ∧ 1 ≤ 1 ∧ (0 : Rat) ≤ 0 := by decide +kernel

theorem witness_FllSlewIsBounded :
    let s := block [1, 2] { fllSlewMaxQ15 := 32767 }
    0 ≤ s.cfg.fllSlewMaxQ15 ∧ -2 ^ 31 ≤ s.fll.freqQ15 ∧ s.fll.freqQ15 ≤ 2 ^ 31 - 1 ∧
      (∃ t, exec .flldd s = .next t) ∧ ∃ t, exec .fllbe s = .next t := ⟨by decide, by decide, by decide, ⟨_, rfl⟩, _, rfl⟩

theorem witness_AcquisitionLatchHoldsUntilReset :
    let s : State := { program [0] with fll := { acqLocked := true } }
    step s = .next (after s) ∧ s.fll.acqLocked = true := ⟨step_stateOf ⟨_, rfl⟩ rfl, rfl⟩

/-- A cache that was never designed, and one that serves the registers. -/
theorem witness_RrcDesignsThenFilters :
    State.reset.rrc.cacheValid = false ∧
      let k : RrcRegs := ⟨10, 8192, 0, true⟩
      ¬ (k.cacheValid = false ∨ k.keySps ≠ State.reset.cfg.tedSps ∨ k.keyAlpha ≠ State.reset.cfg.rrcAlphaQ15 ∨
        k.keySpan ≠ State.reset.cfg.rrcSpanSyms) := by decide +kernel

theorem witness_RrcPassesConstantBlock :
    let s := block [32767, -32768, 32767, -32768] {}
    IsInt16 32767 ∧ IsInt16 (-32768) ∧ RrcOk s.rrc s.rrcTaps ∧
      (∀ n, n < s.buf.length / 2 → elemI s.buf n = 32767 ∧ elemQ s.buf n = -32768) ∧ ∃ t, exec .rrc s = .next t :=
  ⟨by decide, by decide, ⟨fun _ => by decide, fun h => by simp [block, State.reset] at h, Nat.zero_le _⟩,
    by decide +kernel, _, rfl⟩

/-- A push at the last index of the line. -/
theorem witness_DelayLineHoldsRecentSamples :
    let l : TedLoop := ⟨{ dlIndex := Config.params.tedDlSize - 1 }, []⟩
    Memory.wf l.dl = true ∧ l.regs.dlIndex < Config.params.tedDlSize ∧ 0 < Config.params.tedDlSize ∧
      0 < [((5, 6) : Cplx)].length := by
  have := Config.params.tedDlSize_ge
  exact ⟨rfl, by dsimp only; omega, by omega, by decide⟩

theorem witness_MmseBlendsAdjacentRows :
    (0 : Rat) ≤ 0 ∧ (0 : Rat) < 1 ∧ ((0 : Nat) : Rat) ≤ 0 * Config.params.mmseK ∧
      0 * (Config.params.mmseK : Rat) < ((0 : Nat) : Rat) + 1 := by simp

/-- TedmEmitsOneSamplePerStrobe, TedfResamplesEverySample: no change and a change of samples per symbol; a count that skips and one that strobes. -/
theorem witness_TimingLoops :
    ({} : CfgRegs).tedSps = ({} : TedRegs).sps ∧ ({ tedSps := 2 } : CfgRegs).tedSps ≠ ({} : TedRegs).sps ∧
      0 < (block [1, 2] {}).buf.length / 2 ∧ 1 < ({ tedSkip := 2 } : TedRegs).tedSkip ∧
      ({ tedSkip := 1 } : TedRegs).tedSkip ≤ 1 ∧ ({} : TedRegs).tedSkip ≤ 1 := by decide +kernel

theorem witness_SqlmMeasuresGridPower :
    let s := block [3, 4, 5, 6] { sqlStride := 65534 }
    s.cfg.sqlStride = (65534 : Nat) ∧ 2 ≤ 65534 ∧ 65534 % 2 = 0 ∧ s.sql.decimPhase % 2 = 0 ∧ s.buf.length % 2 = 0 := by
  decide

/-- A block of an odd number of elements whose last one is a grid point. -/
theorem witness_SqlmFaultsOnlyBeyondValid :
    0 < (block [1] {}).cfg.sqlStride ∧ exec .sqlm (block [1] {}) = .fault .readBeyondValid ∧
      (block [1] {}).sql.decimPhase + 0 * (block [1] {}).cfg.sqlStride.toNat + 1 = (block [1] {}).buf.length :=
  ⟨by decide, by rfl, by decide⟩

theorem witness_StreamingStagesIgnoreBlockCuts :
    let s := State.reset
    s.chlpfHistR.length = 62 ∧ s.chlpfHistJ.length = 62 ∧ [(1 : Int), 2].length % 2 = 0 ∧
      ∀ i, i = Instr.dcblk ∨ i = .chlpf ∨ i = .discfm →
        ∃ u v w, exec i { s with buf := [1, 2] } = .next u ∧ exec i { u with buf := [3, 4] } = .next v ∧
          exec i { s with buf := [1, 2] ++ [3, 4] } = .next w := by
  refine ⟨by decide, by decide, by decide, fun i h => ?_⟩
  rcases h with rfl | rfl | rfl <;> exact ⟨_, _, _, rfl, rfl, rfl⟩

/-- A machine with the longest block loaded, about to run a DC blocker. -/
def loaded : State := { program [0x24000000] with buf := List.replicate Config.params.maxLen 100 }

theorem loaded_step : ∃ t, step loaded = .next t := by
  have h : fetch loaded = .ok .dcblk := by decide
  exact ⟨_, by rw [step, h]; rfl⟩

theorem loaded_buf : BufOk loaded.buf := by
  refine ⟨?_, ?_, fun v hv => ?_⟩
  · show (List.replicate _ _).length % 2 = 0
    rw [List.length_replicate]; exact Config.params.maxLen_even
  · show (List.replicate _ _).length ≤ _
    rw [List.length_replicate]
  · rw [List.eq_of_mem_replicate hv]; decide

theorem witness_StepKeepsBlockBuffers : BufOk loaded.buf ∧ OutOk loaded.out ∧ ∃ t, step loaded = .next t :=
  ⟨loaded_buf, ⟨Nat.zero_le _, by intro v hv; cases hv⟩, loaded_step⟩

theorem loaded_cfg : CfgOk loaded.cfg := by
  refine ⟨?_, .inl rfl, ?_, .inl rfl⟩
  · intro r _ h2; cases r <;> first | rfl | exact absurd rfl h2 | simp_all [isReal]
  · intro r h1; cases r <;> first | (simp [isReal] at h1; done) | exact by decide +kernel

theorem loaded_ted : TedOk loaded.ted := by
  refine ⟨by decide +kernel, by decide, by decide, ?_, by decide +kernel, Nat.zero_le _, ?_, Nat.zero_le _, by decide⟩
  · unfold Config.InClamp; decide +kernel
  · exact Nat.lt_of_lt_of_le (by decide) Config.params.tedDlSize_ge

theorem witness_StrobeKeepsLoopInRange : CfgOk loaded.cfg ∧ TedOk loaded.ted := ⟨loaded_cfg, loaded_ted⟩

theorem witness_StateInv : StateInv loaded where
  cp := Nat.zero_le _
  buf := loaded_buf
  out := ⟨Nat.zero_le _, by intro v hv; cases hv⟩
  cfg := loaded_cfg
  err := ⟨by decide, by decide, by decide⟩
  fll := ⟨by decide, by decide, by decide, by decide, by decide⟩
  ted := loaded_ted
  sql := ⟨by decide, by decide, by decide, by decide, by decide⟩
  cond := ⟨by decide, by decide, by decide, by decide, by decide⟩
  rrc := ⟨fun _ => ⟨rfl, rfl, rfl, rfl⟩, fun h => absurd h (by decide), Nat.zero_le _⟩
  hb := ⟨rfl, by decide⟩
  lpfR := ⟨rfl, by decide⟩
  lpfJ := ⟨rfl, by decide⟩
  dl := ⟨rfl, fun _ _ => rfl, fun _ => (by decide : IsInt16 0), fun _ _ => rfl⟩
  records := by intro r hr; cases hr
  snapshots := by intro n hn; cases hn

theorem witness_StepKeepsInvariant : StateInv loaded ∧ ∃ t, step loaded = .next t := ⟨witness_StateInv, loaded_step⟩

theorem witness_InvariantStatesNeverStop : StateInv loaded := witness_StateInv

theorem witness_OnlyWritesAndResetChangeConfig :
    let s := program [0x02080006]
    step s = .next (after s) ∧ (after s).cfg ≠ s.cfg := ⟨step_stateOf ⟨_, rfl⟩ rfl, by decide +kernel⟩

theorem witness_PortsOnlyMoveForward : ∃ t, step (program [0x12000000]) = .next t := ⟨_, rfl⟩

theorem witness_OnlyListedCommandsTouchErrors :
    let s := program [0x02080005]
    fetch s = .ok (.wrs 0x08 5) ∧ step s = .next (after s) ∧ (after s).err.code ≠ s.err.code :=
  ⟨by decide, step_stateOf ⟨_, rfl⟩ rfl, by decide +kernel⟩

theorem witness_EarlierErrorsDoNotInfluenceOperations : ∃ t, exec .gate State.reset = .next t := ⟨_, rfl⟩

end Sys2Proof.Tests
end

section
/-! PROOFS. The statements of spec/00_scope.md R11 and R12: the rounding primitives, the register write of WRR, and the
timing loop. Each part states first what the model's definitions give, then settles its obligations. -/

namespace Sys2Proof.Machine

open Sys2Proof.Safety

/-! ### The rounding and range primitives (R11) -/

/-- From the bits of weight 2^b down, a value whose square is at most `n` grows to the integer square root, provided that
raising it by 2^b would overshoot. -/
theorem isqrtBits_spec (n : Nat) : ∀ b r : Nat, r * r ≤ n → n < (r + 2 ^ b) * (r + 2 ^ b) →
    isqrtBits n b r * isqrtBits n b r ≤ n ∧ n < (isqrtBits n b r + 1) * (isqrtBits n b r + 1)
  | 0, _, low, high => ⟨low, high⟩
  | b + 1, r, low, high => by
    rw [isqrtBits]
    split_ifs with bit
    · refine isqrtBits_spec n b _ bit ?_
      rwa [add_assoc, ← two_mul, ← pow_succ']
    · exact isqrtBits_spec n b r low (not_le.1 bit)

theorem isqrt_spec (n : Nat) : isqrt n * isqrt n ≤ n ∧ n < (isqrt n + 1) * (isqrt n + 1) := by
  refine isqrtBits_spec n _ 0 (Nat.zero_le n) ?_
  calc n < 2 ^ (n.log2 + 1) := Nat.lt_log2_self
    _ ≤ 2 ^ (n.log2 / 2 + 1 + (n.log2 / 2 + 1)) := Nat.pow_le_pow_right (by decide) (by omega)
    _ = (0 + 2 ^ (n.log2 / 2 + 1)) * (0 + 2 ^ (n.log2 / 2 + 1)) := by rw [pow_add, zero_add]

theorem rsh_neg (v : Int) (k : Nat) : rsh (-v) k = -rsh v k := by
  unfold rsh
  split_ifs
  · rfl
  · rw [Int.sign_neg, Int.natAbs_neg, neg_mul]

/-- A rounded shift is the nearest multiple: 2^k times it is within half a unit of the value, a half going up. -/
theorem rsh_nearest {v : Int} (hv : 0 ≤ v) {k : Nat} (hk : 1 ≤ k) :
    2 ^ k * rsh v k ≤ v + 2 ^ (k - 1) ∧ v + 2 ^ (k - 1) < 2 ^ k * (rsh v k + 1) := by
  have pos : (0 : Int) < 2 ^ k := by positivity
  rw [rsh_of_nonneg hv (by omega)]
  exact ⟨Int.mul_ediv_self_le pos.ne', by rw [mul_add, mul_one]; exact Int.lt_mul_ediv_self_add pos⟩

theorem rnd_of_nonneg {q : Rat} (h : 0 ≤ q) : rnd q = (q + 1 / 2).floor := if_neg (not_lt.2 h)

theorem rnd_neg_of_pos {q : Rat} (h : 0 < q) : rnd (-q) = -rnd q := by
  rw [rnd, if_pos (neg_lt_zero.2 h), neg_neg, rnd_of_nonneg h.le]

theorem rnd_neg (q : Rat) : rnd (-q) = -rnd q := by
  rcases lt_trichotomy q 0 with h | rfl | h
  · have := rnd_neg_of_pos (neg_pos.2 h)
    rw [neg_neg] at this
    rw [this, neg_neg]
  · have zero : rnd 0 = 0 := rnd_intCast 0
    rw [neg_zero, zero, neg_zero]
  · exact rnd_neg_of_pos h

/-- The rounded value is within half a unit, a half going up. -/
theorem rnd_nearest {q : Rat} (h : 0 ≤ q) : (rnd q : Rat) ≤ q + 1 / 2 ∧ q + 1 / 2 < (rnd q : Rat) + 1 := by
  rw [rnd_of_nonneg h]
  exact ⟨Int.floor_le _, Int.lt_floor_add_one _⟩

theorem clearBit0_eq_sub (x : Nat) : clearBit0 x = x - x % 2 := by unfold clearBit0; omega

/-- Settles O31: the square root by induction on the bits, the shift and the rounding by their equation for values that are
not negative and by oddness; the range primitives are their definitions. -/
theorem roundingPrimitivesMeetTheirDefinitions : Obligations.RoundingPrimitivesMeetTheirDefinitions :=
  ⟨isqrt_spec, fun _ => rfl, rsh_neg, fun _ _ hv hk => rsh_nearest hv hk, rnd_neg, fun _ h => rnd_nearest h,
    fun _ _ _ => rfl, fun _ _ _ => rfl, fun _ => rfl, fun _ => rfl, clearBit0_eq_sub⟩

/-! ### WRR of a legal value (R283, R293) -/

/-- R283: WRR writes a legal integer to an INT or Qn register. -/
theorem wrr_of_legalInt (P : Config.Params) {reg : Nat} {r : CfgReg} {data : Word} (hr : cfgRegOf reg = some r)
    (int : isReal r = false) (legal : legalInt r (wrrInt data) = true) (s : State) :
    wrr P reg data s = writeInt r (wrrInt data) s := by
  simp [wrr, hr, int, legal]

/-- R283: WRR writes a legal fraction to a REAL register. -/
theorem wrr_of_legalReal (P : Config.Params) {reg : Nat} {r : CfgReg} {data : Word} (hr : cfgRegOf reg = some r)
    (real : isReal r = true) (legal : legalReal r (wrrReal data) = true) (s : State) :
    wrr P reg data s = writeReal P r (wrrReal data) s := by
  simp [wrr, hr, real, legal]

/-- A word whose signed value is not negative has that value unsigned. -/
theorem toNat_toInt_of_nonneg {w : Nat} {x : BitVec w} (h : 0 ≤ x.toInt) : x.toInt.toNat = x.toNat := by
  have lt := x.isLt
  rw [BitVec.toInt_eq_toNat_cond] at h ⊢
  split_ifs at h ⊢ <;> omega

/-- The two registers whose write has a side effect take no negative value (R29). -/
theorem nonneg_of_legalInt {r : CfgReg} {v : Int} (h : r = .sqlWindow ∨ r = .sqlStride) (legal : legalInt r v = true) :
    0 ≤ v := by
  rcases h with rfl | rfl <;> simp only [legalInt, within, Bool.and_eq_true, decide_eq_true_eq] at legal <;> omega

/-- R293: the side effects of writing a legal word, in terms of its unsigned value. -/
theorem writeEffect_toInt {w : Nat} {x : BitVec w} {r : CfgReg} (legal : legalInt r x.toInt = true) (q : SqlRegs) :
    writeEffect r x.toInt q =
      if r = .sqlWindow then { q with windowLog2 := roundLog2 x.toNat }
      else if r = .sqlStride then { q with decimPhase := 2 * (q.decimPhase % x.toNat / 2) } else q := by
  rw [writeEffect_eq]
  split_ifs with window stride
  · rw [toNat_toInt_of_nonneg (nonneg_of_legalInt (.inl window) legal)]
  · rw [toNat_toInt_of_nonneg (nonneg_of_legalInt (.inr stride) legal)]; rfl
  · rfl

/-- Settles O10: the write the legal value selects, the register read back by `getInt_setInt` and `getReal_setReal`, and
the side effects by `writeEffect_toInt`. -/
theorem wrrStoresLegalValue : Obligations.WrrStoresLegalValue := by
  intro s reg r data hr
  constructor
  · intro int legal
    refine ⟨setInt s.cfg r data.toInt, ?_, fun r' ne => ?_, fun r' => getReal_setInt _ _ _ _, ?_⟩
    · rw [getInt_setInt _ _ _ _ int, if_pos rfl]
    · rw [getInt_setInt _ _ _ _ int, if_neg ne]
    · rw [exec_wrr, wrr_of_legalInt _ hr int legal, ← writeEffect_toInt legal]
      rfl
  · intro real legal
    refine ⟨setReal s.cfg r (Config.params.qreal (wrrReal data)), ?_, fun r' ne => ?_,
      fun r' => getInt_setReal _ _ _ _, ?_⟩
    · rw [getReal_setReal _ _ _ _ real, if_pos rfl]; rfl
    · rw [getReal_setReal _ _ _ _ real, if_neg ne]
    · rw [exec_wrr, wrr_of_legalReal _ hr real legal]
      rfl

/-! ### The registers after a strobe (R221 to R234) -/

/-- R231: the lock term, with the case of no power written as an equation (a sum of squares is not negative). -/
theorem yairLinn_eq (cur mid : RCplx) :
    yairLinn cur mid =
      if cur.1 ^ 2 + cur.2 ^ 2 + (mid.1 ^ 2 + mid.2 ^ 2) = 0 then 0
      else (cur.1 ^ 2 + cur.2 ^ 2 - (mid.1 ^ 2 + mid.2 ^ 2)) / (cur.1 ^ 2 + cur.2 ^ 2 + (mid.1 ^ 2 + mid.2 ^ 2)) := by
  have nonneg : 0 ≤ cur.1 ^ 2 + cur.2 ^ 2 + (mid.1 ^ 2 + mid.2 ^ 2) := by positivity
  unfold yairLinn
  dsimp only
  split_ifs with h1 h2 h2
  · exact absurd h2 h1.ne'
  · rfl
  · rfl
  · exact absurd (lt_of_le_of_ne nonneg (Ne.symm h2)) h1

/-- R231: the lock detector writes three registers. -/
theorem lockUpdate_eq (P : Config.Params) (c : CfgRegs) (yl : Rat) (t : TedRegs) :
    lockUpdate P c yl t = { t with
      lockAccum := if P.tedLockWindow ≤ t.lockCount + 1 then P.qreal 0 else P.qreal (t.lockAccum + yl)
      lockCount := if P.tedLockWindow ≤ t.lockCount + 1 then 0 else t.lockCount + 1
      tedLocked := if P.tedLockWindow ≤ t.lockCount + 1
        then tedLockDecision (P.qreal (t.lockAccum + yl)) (t.lockCount + 1) c.tedLockThr else t.tedLocked } := by
  unfold lockUpdate
  dsimp only
  split_ifs <;> rfl

/-- R232: the kick writes three registers. -/
theorem fastKick_eq (P : Config.Params) (e : Rat) (t : TedRegs) :
    fastKick P e t = { t with
      mu := if 0 < t.fastAcqKicks then P.qreal (P.tedKick t.mu t.omega e t.eEma).1 else t.mu
      omega := if 0 < t.fastAcqKicks then P.qreal (P.tedKick t.mu t.omega e t.eEma).2 else t.omega
      fastAcqKicks := t.fastAcqKicks - 1 } := by
  unfold fastKick
  split_ifs with kick
  · rfl
  · rw [show t.fastAcqKicks - 1 = t.fastAcqKicks by omega]

/-- Settles O42: the four parts of a strobe by their equations, composed in the order of R234. -/
theorem strobeUpdatesLoop : Obligations.StrobeUpdatesLoop := by
  intro c cur mid r
  simp only [strobeRegs, fastKick_eq, lockUpdate_eq, yairLinn_eq]
  rfl

@[simp] theorem smoothError_tedSkip (P : Config.Params) (e : Rat) (t : TedRegs) :
    (smoothError P e t).tedSkip = t.tedSkip := rfl
@[simp] theorem lockUpdate_tedSkip (P : Config.Params) (c : CfgRegs) (yl : Rat) (t : TedRegs) :
    (lockUpdate P c yl t).tedSkip = t.tedSkip := by rw [lockUpdate_eq]
@[simp] theorem fastKick_tedSkip (P : Config.Params) (e : Rat) (t : TedRegs) :
    (fastKick P e t).tedSkip = t.tedSkip := by rw [fastKick_eq]
@[simp] theorem loopUpdate_sps (P : Config.Params) (c : CfgRegs) (e : Rat) (t : TedRegs) :
    (loopUpdate P c e t).sps = t.sps := rfl
@[simp] theorem smoothError_sps (P : Config.Params) (e : Rat) (t : TedRegs) : (smoothError P e t).sps = t.sps := rfl
@[simp] theorem smoothError_omega (P : Config.Params) (e : Rat) (t : TedRegs) :
    (smoothError P e t).omega = t.omega := rfl
@[simp] theorem lockUpdate_sps (P : Config.Params) (c : CfgRegs) (yl : Rat) (t : TedRegs) :
    (lockUpdate P c yl t).sps = t.sps := by rw [lockUpdate_eq]
@[simp] theorem lockUpdate_omega (P : Config.Params) (c : CfgRegs) (yl : Rat) (t : TedRegs) :
    (lockUpdate P c yl t).omega = t.omega := by rw [lockUpdate_eq]

/-- R233: a strobe keeps the ranges of the registers, with `omega` in the clamp in force and an advance of at least one
sample. -/
theorem strobeRegs_tedOk {c : CfgRegs} (hc : CfgOk c) (cur mid : RCplx) {t : TedRegs} (ht : TedOk t) :
    TedOk (strobeRegs Config.params c cur mid t) ∧
      Config.InClamp t.sps c.tedOmegaRel (strobeRegs Config.params c cur mid t).omega ∧
      1 ≤ (strobeRegs Config.params c cur mid t).tedSkip := by
  have he := gardnerError_mem (t.lastR, t.lastJ) cur mid
  obtain ⟨loopOk, clamp, advance⟩ := loopUpdate_tedOk hc ht he
  have lockOk := lockUpdate_tedOk c (yairLinn cur mid) (smoothError_tedOk loopOk he)
  obtain ⟨kickOk, clamp'⟩ := fastKick_tedOk hc lockOk (by simpa using clamp) (gardnerError (t.lastR, t.lastJ) cur mid)
  refine ⟨{ kickOk with }, by simpa [strobeRegs] using clamp', by simpa [strobeRegs] using advance⟩

/-- Settles O43: the ranges of R48 and the clamp, which a strobe keeps. -/
theorem strobeKeepsLoopInRange : Obligations.StrobeKeepsLoopInRange := by
  intro c cur mid r hc hr
  obtain ⟨ok, clamp, advance⟩ := strobeRegs_tedOk hc cur mid hr
  exact ⟨clamp, ok.mu.1, ok.mu.2, ok.ema.1, ok.ema.2, advance, ok.skip⟩

/-! ### TEDM and TEDF sample by sample (R216, R217, R235, R236) -/

theorem tedStart_of_eq (P : Config.Params) {s : State} (h : s.cfg.tedSps = s.ted.sps) :
    tedStart P s = ⟨s.ted, s.dl⟩ := by
  rw [tedStart, spsCheck, if_pos h]

/-- R216: what the samples-per-symbol check stores when the register has changed. -/
theorem tedStart_of_ne (P : Config.Params) {s : State} (h : s.cfg.tedSps ≠ s.ted.sps) :
    tedStart P s = ⟨{ s.ted with
      sps := s.cfg.tedSps, twiceSps := 2 * s.cfg.tedSps, omega := P.qreal s.cfg.tedSps, mu := P.qreal 0, tedSkip := 0,
      lastR := P.qreal 0, lastJ := P.qreal 0, eEma := P.qreal 0, lockAccum := P.qreal 0, lockCount := 0,
      tedLocked := false, fastAcqKicks := P.tedFastKicks }, s.dl⟩ := by
  rw [tedStart, spsCheck, if_neg h]

/-- The loop before sample `n` of TEDM. -/
def tedmLoop (P : Config.Params) (s : State) (n : Nat) : TedLoop :=
  scanState (tedmStep P s.cfg) (tedStart P s) (pairs s.buf) n

/-- The output samples of TEDM for input sample `n`: one if it makes a strobe, else none. -/
def tedmSymbols (P : Config.Params) (s : State) (n : Nat) : List Cplx :=
  (tedmStep P s.cfg (tedmLoop P s n) (elemI s.buf n, elemQ s.buf n)).2.toList

theorem tedmLoop_succ (P : Config.Params) (s : State) {n : Nat} (h : n < s.buf.length / 2) :
    tedmLoop P s (n + 1) = (tedmStep P s.cfg (tedmLoop P s n) (elemI s.buf n, elemQ s.buf n)).1 := by
  rw [← pairs_getD _ _ h]
  exact (scanState_succ _ _ _ _ none (by rwa [pairs_length])).1

/-- R217, R235: one sample of TEDM, skipped or with a strobe whose on-symbol value is the output. -/
theorem tedmStep_cases (P : Config.Params) (c : CfgRegs) (l : TedLoop) (x : Cplx) :
    let p := tedPush P x l
    let q : TedLoop := ⟨{ p.regs with tedSkip := 0 }, p.dl⟩
    let d := p.regs.mu - p.regs.omega / 2
    let cur := interpMmse P q 0 p.regs.mu
    (1 < p.regs.tedSkip → tedmStep P c l x = (⟨{ p.regs with tedSkip := p.regs.tedSkip - 1 }, p.dl⟩, none)) ∧
    (p.regs.tedSkip ≤ 1 →
      tedmStep P c l x =
        (⟨strobeRegs P c cur (interpMmse P q ⌊d⌋ (Int.fract d)) q.regs, p.dl⟩, some (toSample cur))) := by
  obtain ⟨skip, strobe⟩ := countAndStrobe_cases P c (interpMmse P) (tedPush P x l)
  exact ⟨fun h => by rw [tedmStep, skip h]; rfl, fun h => by rw [tedmStep, strobe h]; rfl⟩

/-- R235: the state TEDM leaves, with BUF collected symbol by symbol. -/
theorem tedm_eq (P : Config.Params) (s : State) :
    tedm P s = { s with
      buf := interleave ((List.range (s.buf.length / 2)).flatMap (tedmSymbols P s))
      ted := (tedmLoop P s (s.buf.length / 2)).regs
      dl := (tedmLoop P s (s.buf.length / 2)).dl } := by
  have symbols : (scan (tedmStep P s.cfg) (tedStart P s) (pairs s.buf)).2.filterMap id =
      (List.range (s.buf.length / 2)).flatMap (tedmSymbols P s) := by
    rw [scan_filterMap _ _ _ (0, 0), pairs_length]
    refine List.flatMap_congr fun n hn => ?_
    rw [pairs_getD _ _ (List.mem_range.1 hn)]
    rfl
  rw [← symbols, tedmLoop, ← pairs_length s.buf, scanState_length]
  rfl

/-- Settles O44: the loop before each sample is the state of the walk, and one sample of it is `tedmStep_cases`. -/
theorem tedmEmitsOneSamplePerStrobe : Obligations.TedmEmitsOneSamplePerStrobe := by
  intro s
  refine ⟨tedmLoop Config.params s, tedmSymbols Config.params s, tedStart_of_eq _, tedStart_of_ne _, fun n hn => ?_, ?_⟩
  · obtain ⟨skip, strobe⟩ :=
      tedmStep_cases Config.params s.cfg (tedmLoop Config.params s n) (elemI s.buf n, elemQ s.buf n)
    refine ⟨fun h => ?_, fun h => ?_⟩
    · rw [tedmLoop_succ _ _ hn, tedmSymbols, skip h]
      exact ⟨rfl, rfl⟩
    · rw [tedmLoop_succ _ _ hn, tedmSymbols, strobe h]
      exact ⟨rfl, rfl⟩
  · rw [exec_tedm, tedm_eq]
    rfl

/-- The loop before sample `n` of TEDF. -/
def tedfLoop (P : Config.Params) (s : State) (n : Nat) : TedLoop :=
  scanState (tedfStep P s.cfg) (tedStart P s) (pairs s.buf) n

/-- The output samples of TEDF. -/
def tedfOutputs (P : Config.Params) (s : State) : List Cplx :=
  (scan (tedfStep P s.cfg) (tedStart P s) (pairs s.buf)).2

@[simp] theorem tedfOutputs_length (P : Config.Params) (s : State) : (tedfOutputs P s).length = s.buf.length / 2 := by
  rw [tedfOutputs, scan_length, pairs_length]

/-- R236: one sample of TEDF, the loop after it and the output it gives. -/
theorem tedfLoop_succ (P : Config.Params) (s : State) {n : Nat} (h : n < s.buf.length / 2) :
    tedfLoop P s (n + 1) = (tedfStep P s.cfg (tedfLoop P s n) (elemI s.buf n, elemQ s.buf n)).1 ∧
      (tedfOutputs P s).getD n (0, 0) = (tedfStep P s.cfg (tedfLoop P s n) (elemI s.buf n, elemQ s.buf n)).2 := by
  rw [← pairs_getD _ _ h]
  exact scanState_succ _ _ _ _ _ (by rwa [pairs_length])

/-- R236: the state TEDF leaves. -/
theorem tedf_eq (P : Config.Params) (s : State) :
    tedf P s = { s with
      buf := putPairs s.buf (tedfOutputs P s)
      ted := (tedfLoop P s (s.buf.length / 2)).regs
      dl := (tedfLoop P s (s.buf.length / 2)).dl } := by
  rw [tedfLoop, ← pairs_length s.buf, scanState_length]
  rfl

/-- Settles O45: the loop before each sample is the state of the walk, its count-down and strobe are
`countAndStrobe_cases`, and the outputs are read back by `putPairs_elem`. -/
theorem tedfResamplesEverySample : Obligations.TedfResamplesEverySample := by
  intro s
  refine ⟨tedfLoop Config.params s, putPairs s.buf (tedfOutputs Config.params s), tedStart_of_eq _, tedStart_of_ne _,
    putPairs_sameShape _ _ (tedfOutputs_length _ _), fun n hn => ?_, ?_⟩
  · obtain ⟨next, output⟩ := tedfLoop_succ Config.params s hn
    obtain ⟨elem, elem'⟩ := putPairs_elem s.buf (tedfOutputs Config.params s) (by rwa [tedfOutputs_length])
    obtain ⟨skip, strobe⟩ := countAndStrobe_cases Config.params s.cfg (interpFarrow Config.params)
      (tedPush Config.params (elemI s.buf n, elemQ s.buf n) (tedfLoop Config.params s n))
    rw [output] at elem elem'
    refine ⟨elem, elem', fun h => ?_, fun h => ?_⟩
    · rw [next, tedfStep, skip h]
    · rw [next, tedfStep, strobe h]
  · rw [exec_tedf, tedf_eq]
    rfl

end Sys2Proof.Machine
end

section
/-! PROOFS. What one step leaves, said once for all 27 operations: the state an operation leaves when it completes, as a
function, and the inversion of `step` in its terms. Then the statements about the ports and the configuration. -/

namespace Sys2Proof.Machine

open Sys2Proof.Safety

/-! ### The state an operation leaves -/

/-- The datapath stage operations (R290, R291). -/
def isStage : Instr → Bool
  | .decimhb | .decimleg | .chlpf | .sqlm | .dcblk | .agc | .limit | .iqbal | .flldd | .fllbe => true
  | .mf5 | .rrc | .tedm | .tedf | .discfm | .discdq | .discraw | .gate => true
  | .nop | .wrr _ _ | .wrs _ _ | .rst | .fllrst | .errclr | .blk _ | .load _ | .emit => false

/-- The number of sample words an operation takes from the port (R81). -/
def portWords : Instr → Nat
  | .load len | .blk len => len
  | .nop | .wrr _ _ | .wrs _ _ | .rst | .fllrst | .errclr | .emit => 0
  | .decimhb | .decimleg | .chlpf | .sqlm | .dcblk | .agc | .limit | .iqbal | .flldd | .fllbe => 0
  | .mf5 | .rrc | .tedm | .tedf | .discfm | .discdq | .discraw | .gate => 0

/-- The state BLK leaves when it completes, CP aside: the record of a halted block, or the block run, sent and counted
(R290). -/
def blkResult (len : Nat) (s : State) : State :=
  if loadFault Config.params s.cfg len = none then
    countBlock (emit (blkBack Config.params (sqlm (blkFront Config.params (load Config.params len s)))))
  else errorRecord (load Config.params len s)

/-- The state an operation leaves when it completes, CP aside. It is tied to the model by `exec_next`. -/
def result : Instr → State → State
  | .nop, s => s
  | .wrr reg data, s => wrr Config.params reg data s
  | .wrs reg imm, s => wrs reg imm s
  | .rst, s => rst s
  | .fllrst, s => fllrst s
  | .errclr, s => errclr s
  | .blk len, s => blkResult len s
  | .load len, s => load Config.params len s
  | .emit, s => emit s
  | .decimhb, s => decimhb Config.params s
  | .decimleg, s => decimleg Config.params s
  | .chlpf, s => chlpf Config.params s
  | .sqlm, s => sqlm s
  | .dcblk, s => dcblk s
  | .agc, s => agc s
  | .limit, s => limit s
  | .iqbal, s => iqbal s
  | .flldd, s => flldd Config.params s
  | .fllbe, s => fllbe Config.params s
  | .mf5, s => mf5 Config.params s
  | .rrc, s => rrc Config.params s
  | .tedm, s => tedm Config.params s
  | .tedf, s => tedf Config.params s
  | .discfm, s => discfm Config.params s
  | .discdq, s => discdq Config.params s
  | .discraw, s => discraw s
  | .gate, s => gate s

/-- R287: a LOAD that raises only drops its words. -/
theorem load_of_fault {P : Config.Params} {len : Nat} {s : State} {x : Exc} {info : Int}
    (h : loadFault P s.cfg len = some (x, info)) : load P len s = raise x 0x11 info (portDrop len s) := by
  simp [load, h]

theorem blk_next {len : Nat} {s t : State} (h : blk Config.params len s = .next t) : t = blkResult len s := by
  unfold blkResult
  rcases blk_cases Config.params len s with ⟨x, info, fault, e⟩ | ⟨legal, ⟨_, e⟩ | ⟨_, e⟩⟩ <;> rw [e] at h
  · rw [if_neg (by simp [fault]), load_of_fault fault]
    exact (Host.Outcome.next.inj h).symm
  · rw [if_pos legal]
    exact (Host.Outcome.next.inj h).symm
  · cases h

/-- Everything an operation that completes can do: wait, or leave its result with CP past its words. -/
theorem exec_next {i : Instr} {s t : State} (h : exec i s = .next t) :
    t = s ∨ (portWords i ≤ s.samples.length ∧ t = advance i.words (result i s)) := by
  cases i with
  | blk len =>
    rcases execBlk_cases len s with ⟨_, e⟩ | ⟨words, e⟩ <;> rw [e] at h
    · exact .inl (Host.Outcome.next.inj h).symm
    · cases hb : blk Config.params len s with
      | next u =>
        rw [hb] at h
        exact .inr ⟨words, by rw [result, ← blk_next hb]; exact (Host.Outcome.next.inj h).symm⟩
      | fault r => rw [hb] at h; cases h
      | refused r => rw [hb] at h; cases h
  | load len =>
    rcases execLoad_cases len s with ⟨_, e⟩ | ⟨words, e⟩ <;> rw [e] at h
    · exact .inl (Host.Outcome.next.inj h).symm
    · exact .inr ⟨words, (Host.Outcome.next.inj h).symm⟩
  | sqlm =>
    rcases execSqlm_cases s with ⟨_, e⟩ | ⟨_, e⟩ <;> rw [e] at h
    · exact .inr ⟨Nat.zero_le _, (Host.Outcome.next.inj h).symm⟩
    · cases h
  | _ => exact .inr ⟨Nat.zero_le _, (Host.Outcome.next.inj h).symm⟩

/-- An operation that waits publishes nothing. -/
theorem settle_self (i : Instr) (s : State) : settle i s.cp s = s := by
  simp [settle, batchBoundary]

/-- Everything a step that completes can do: change nothing, report an illegal word, or leave the result of an operation
with CP past its words, published or not. -/
theorem step_next {s t : State} (h : step s = .next t) :
    t = s ∨
    (∃ w, s.cp < s.cmds.length ∧ t = illegalCommand w s) ∨
    (∃ i, fetch s = .ok i ∧ portWords i ≤ s.samples.length ∧
      (t = advance i.words (result i s) ∨ t = publish (advance i.words (result i s)))) := by
  rcases step_cases h with ⟨_, rfl⟩ | ⟨w, illegal, rfl⟩ | ⟨i, u, decoded, run, rfl⟩
  · exact .inl rfl
  · exact .inr (.inl ⟨w, fetch_illegal illegal, rfl⟩)
  · rcases exec_next run with rfl | ⟨words, rfl⟩
    · exact .inl (settle_self i u)
    · exact .inr (.inr ⟨i, decoded, words, settle_eq _ _ _⟩)

/-- A property that every stage operation keeps is kept by the pipeline of BLK. -/
theorem pipeline_induct {I : State → Prop} (stage : ∀ i s, isStage i = true → I s → I (result i s)) {s : State}
    (h : I s) : I (blkBack Config.params (sqlm (blkFront Config.params s))) :=
  blkBack_induct Config.params (fun s => stage .dcblk s rfl) (fun s => stage .agc s rfl) (fun s => stage .limit s rfl)
    (fun s => stage .iqbal s rfl) (fun s => stage .flldd s rfl) (fun s => stage .fllbe s rfl)
    (fun s => stage .mf5 s rfl) (fun s => stage .rrc s rfl) (fun s => stage .tedm s rfl) (fun s => stage .tedf s rfl)
    (fun s => stage .discfm s rfl) (fun s => stage .discdq s rfl) (fun s => stage .discraw s rfl)
    (fun s => stage .gate s rfl)
    (stage .sqlm _ rfl
      (blkFront_induct Config.params (fun s => stage .decimhb s rfl) (fun s => stage .decimleg s rfl)
        (fun s => stage .chlpf s rfl) h))

/-! ### The frames of the writes, of LOAD and of BLK -/

/-- WRR changes no field but `cfg`, `err`, `sql`. -/
theorem wrr_frame (P : Config.Params) (reg : Nat) (data : Word) (s : State) :
    wrr P reg data s = { s with
      cfg := (wrr P reg data s).cfg, err := (wrr P reg data s).err, sql := (wrr P reg data s).sql } := by
  rcases wrr_cases P reg data s with ⟨_, e⟩ | ⟨_, _, e⟩ | ⟨_, _, _, _, e⟩ | ⟨_, _, _, _, e⟩ <;> rw [e] <;> rfl

/-- WRS changes no field but `cfg`, `err`, `sql`. -/
theorem wrs_frame (reg : Nat) (imm : BitVec 16) (s : State) :
    wrs reg imm s = { s with
      cfg := (wrs reg imm s).cfg, err := (wrs reg imm s).err, sql := (wrs reg imm s).sql } := by
  rcases wrs_cases reg imm s with ⟨_, e⟩ | ⟨_, _, _, e⟩ | ⟨_, _, _, _, e⟩ <;> rw [e] <;> rfl

/-- LOAD takes its words, and changes no other field but `buf`, `out`, `err`. -/
theorem load_frame (P : Config.Params) (len : Nat) (s : State) :
    load P len s = { s with
      samples := s.samples.drop len
      buf := (load P len s).buf, out := (load P len s).out, err := (load P len s).err } := by
  rcases load_cases P len s with ⟨_, e⟩ | ⟨_, _, _, e⟩ <;> rw [e] <;> rfl

@[simp] theorem load_cmds (P : Config.Params) (len : Nat) (s : State) : (load P len s).cmds = s.cmds :=
  (congrArg State.cmds (load_frame P len s) :)
@[simp] theorem load_cp (P : Config.Params) (len : Nat) (s : State) : (load P len s).cp = s.cp :=
  (congrArg State.cp (load_frame P len s) :)
@[simp] theorem load_samples (P : Config.Params) (len : Nat) (s : State) :
    (load P len s).samples = s.samples.drop len :=
  (congrArg State.samples (load_frame P len s) :)
@[simp] theorem load_outPort (P : Config.Params) (len : Nat) (s : State) : (load P len s).outPort = s.outPort :=
  (congrArg State.outPort (load_frame P len s) :)
@[simp] theorem load_snapshots (P : Config.Params) (len : Nat) (s : State) : (load P len s).snapshots = s.snapshots :=
  (congrArg State.snapshots (load_frame P len s) :)
@[simp] theorem load_cfg (P : Config.Params) (len : Nat) (s : State) : (load P len s).cfg = s.cfg :=
  (congrArg State.cfg (load_frame P len s) :)

@[simp] theorem wrr_cmds (P : Config.Params) (reg : Nat) (data : Word) (s : State) :
    (wrr P reg data s).cmds = s.cmds := (congrArg State.cmds (wrr_frame P reg data s) :)
@[simp] theorem wrr_cp (P : Config.Params) (reg : Nat) (data : Word) (s : State) : (wrr P reg data s).cp = s.cp :=
  (congrArg State.cp (wrr_frame P reg data s) :)
@[simp] theorem wrr_samples (P : Config.Params) (reg : Nat) (data : Word) (s : State) :
    (wrr P reg data s).samples = s.samples := (congrArg State.samples (wrr_frame P reg data s) :)
@[simp] theorem wrr_outPort (P : Config.Params) (reg : Nat) (data : Word) (s : State) :
    (wrr P reg data s).outPort = s.outPort := (congrArg State.outPort (wrr_frame P reg data s) :)
@[simp] theorem wrr_snapshots (P : Config.Params) (reg : Nat) (data : Word) (s : State) :
    (wrr P reg data s).snapshots = s.snapshots := (congrArg State.snapshots (wrr_frame P reg data s) :)

@[simp] theorem wrs_cmds (reg : Nat) (imm : BitVec 16) (s : State) : (wrs reg imm s).cmds = s.cmds :=
  (congrArg State.cmds (wrs_frame reg imm s) :)
@[simp] theorem wrs_cp (reg : Nat) (imm : BitVec 16) (s : State) : (wrs reg imm s).cp = s.cp :=
  (congrArg State.cp (wrs_frame reg imm s) :)
@[simp] theorem wrs_samples (reg : Nat) (imm : BitVec 16) (s : State) : (wrs reg imm s).samples = s.samples :=
  (congrArg State.samples (wrs_frame reg imm s) :)
@[simp] theorem wrs_outPort (reg : Nat) (imm : BitVec 16) (s : State) : (wrs reg imm s).outPort = s.outPort :=
  (congrArg State.outPort (wrs_frame reg imm s) :)
@[simp] theorem wrs_snapshots (reg : Nat) (imm : BitVec 16) (s : State) : (wrs reg imm s).snapshots = s.snapshots :=
  (congrArg State.snapshots (wrs_frame reg imm s) :)

/-! BLK takes its words and sends one record; CP, the command words, the snapshots and the configuration stay. -/

@[simp] theorem blkResult_cmds (len : Nat) (s : State) : (blkResult len s).cmds = s.cmds := by
  unfold blkResult; split_ifs <;> simp
@[simp] theorem blkResult_cp (len : Nat) (s : State) : (blkResult len s).cp = s.cp := by
  unfold blkResult; split_ifs <;> simp
@[simp] theorem blkResult_samples (len : Nat) (s : State) : (blkResult len s).samples = s.samples.drop len := by
  unfold blkResult; split_ifs <;> simp
@[simp] theorem blkResult_snapshots (len : Nat) (s : State) : (blkResult len s).snapshots = s.snapshots := by
  unfold blkResult; split_ifs <;> simp
@[simp] theorem blkResult_cfg (len : Nat) (s : State) : (blkResult len s).cfg = s.cfg := by
  unfold blkResult; split_ifs <;> simp

@[simp] theorem emit_outPort (s : State) :
    (emit s).outPort = s.outPort ++ [{ len := s.out.length, data := s.out, gate := s.sql.gateOpen, exc := 0 }] := rfl

@[simp] theorem errorRecord_outPort (s : State) :
    (errorRecord s).outPort = s.outPort ++ [{ len := 0, data := [], gate := s.sql.gateOpen, exc := s.err.code }] := rfl

theorem blkResult_outPort (len : Nat) (s : State) : ∃ r, (blkResult len s).outPort = s.outPort ++ [r] := by
  unfold blkResult
  split_ifs
  · exact ⟨_, (emit_outPort _).trans (congrArg (· ++ [_]) (by simp))⟩
  · exact ⟨_, (errorRecord_outPort _).trans (congrArg (· ++ [_]) (by simp))⟩

/-! ### What every operation leaves alone -/

@[simp] theorem result_cmds (i : Instr) (s : State) : (result i s).cmds = s.cmds := by cases i <;> simp [result]

@[simp] theorem result_cp (i : Instr) (s : State) : (result i s).cp = s.cp := by cases i <;> simp [result]

@[simp] theorem result_samples (i : Instr) (s : State) : (result i s).samples = s.samples.drop (portWords i) := by
  cases i <;> simp [result, portWords]

@[simp] theorem result_snapshots (i : Instr) (s : State) : (result i s).snapshots = s.snapshots := by
  cases i <;> simp [result]

/-- An operation sends no record or one (R83). -/
theorem result_outPort (i : Instr) (s : State) :
    (result i s).outPort = s.outPort ∨ ∃ r, (result i s).outPort = s.outPort ++ [r] := by
  cases i with
  | blk len => exact .inr (blkResult_outPort len s)
  | emit => exact .inr ⟨_, rfl⟩
  | _ => left; simp [result]

/-- R27, R92: no operation but WRR, WRS and RST touches the configuration. -/
theorem result_cfg {i : Instr} (notRst : i ≠ .rst) (notWrr : ∀ reg data, i ≠ .wrr reg data)
    (notWrs : ∀ reg imm, i ≠ .wrs reg imm) (s : State) : (result i s).cfg = s.cfg := by
  cases i with
  | rst => exact absurd rfl notRst
  | wrr reg data => exact absurd rfl (notWrr reg data)
  | wrs reg imm => exact absurd rfl (notWrs reg imm)
  | _ => simp [result]

/-- Settles O56: the cases of a step, and `result_cfg` for an operation that is none of the three. -/
theorem onlyWritesAndResetChangeConfig : Obligations.OnlyWritesAndResetChangeConfig := by
  intro s t h changed
  rcases step_next h with rfl | ⟨w, _, rfl⟩ | ⟨i, decoded, _, eq⟩
  · exact absurd rfl changed
  · exact absurd rfl changed
  · have kept : t.cfg = (result i s).cfg := by rcases eq with rfl | rfl <;> rfl
    rw [decoded]
    by_contra other
    simp only [Except.ok.injEq, not_or, not_exists] at other
    obtain ⟨notRst, notWrr, notWrs⟩ := other
    exact changed (kept.trans (result_cfg notRst notWrr notWrs s))

/-- Settles O57: the cases of a step, with the frame of the operations and of the snapshot port. -/
theorem portsOnlyMoveForward : Obligations.PortsOnlyMoveForward := by
  intro s t h
  rcases step_next h with rfl | ⟨w, _, rfl⟩ | ⟨i, _, _, eq⟩
  · simp
  · simp [illegalCommand]
  · have words : i.words ≤ 2 := by cases i <;> simp [Instr.words]
    have sent : s.outPort <+: (result i s).outPort ∧ (result i s).outPort.length ≤ s.outPort.length + 1 := by
      rcases result_outPort i s with e | ⟨r, e⟩ <;> simp [e]
    rcases eq with rfl | rfl <;> simp [words, sent, List.drop_suffix]

end Sys2Proof.Machine
end

section
/-! PROOFS. The configuration registers: their table, WRS of a legal value, the side effect of `SQL_WINDOW`, and the
power-on state that RST restores. -/

namespace Sys2Proof.Machine

open Sys2Proof.Safety

/-! ### The table of the registers (R29) -/

theorem within_iff (v lo hi : Int) : within v lo hi = true ↔ lo ≤ v ∧ v ≤ hi := decide_eq_true_iff

/-- The row (number, name, field, bounds) of an INT or Qn register whose legal set the model gives as an interval. -/
theorem intRow_of_within {n : Nat} {r : CfgReg} {field : CfgRegs → Int} {lo hi : Int} (number : cfgRegOf n = some r)
    (int : isReal r = false) (read : ∀ c, getInt c r = field c) (legal : ∀ v, legalInt r v = within v lo hi) :
    cfgRegOf n = some r ∧ isReal r = false ∧ (∀ c, getInt c r = field c) ∧
      ∀ v, legalInt r v = true ↔ lo ≤ v ∧ v ≤ hi :=
  ⟨number, int, read, fun v => by rw [legal]; exact within_iff v lo hi⟩

theorem legalInt_sqlStride (v : Int) : legalInt .sqlStride v = true ↔ 2 ≤ v ∧ v ≤ 65534 ∧ v % 2 = 0 := by
  simp only [legalInt, Bool.and_eq_true, within_iff, decide_eq_true_eq, and_assoc]

/-- Settles O60: row by row; the numbers past the table by `cfgRegOf_eq_none_iff`. -/
theorem configRegistersAreThoseOfTheTable : Obligations.ConfigRegistersAreThoseOfTheTable := by
  refine ⟨fun row mem => ?_, ⟨rfl, rfl, fun _ => rfl, fun _ => decide_eq_true_iff⟩,
    ⟨rfl, rfl, fun _ => rfl, legalInt_sqlStride⟩, fun row mem => ?_,
    ⟨rfl, rfl, fun _ => rfl, fun _ => decide_eq_true_iff⟩, fun n => (cfgRegOf_eq_none_iff n).2⟩
  · fin_cases mem <;> exact intRow_of_within rfl rfl (fun _ => rfl) (fun _ => rfl)
  · fin_cases mem <;> exact ⟨rfl, rfl, fun _ => rfl, fun _ => decide_eq_true_iff⟩

/-! ### WRS of a legal value (R284, R293) -/

/-- R284: WRS writes a legal integer to an INT or Qn register. -/
theorem wrs_of_legalInt {reg : Nat} {r : CfgReg} {imm : BitVec 16} (hr : cfgRegOf reg = some r)
    (int : isReal r = false) (legal : legalInt r (wrsInt imm) = true) (s : State) :
    wrs reg imm s = writeInt r (wrsInt imm) s := by
  simp [wrs, hr, int, legal]

/-- Settles O11: the write the legal value selects, the register read back by `getInt_setInt`, and the side effects by
`writeEffect_toInt`. -/
theorem wrsStoresLegalInteger : Obligations.WrsStoresLegalInteger := by
  intro s reg r imm hr int legal
  refine ⟨setInt s.cfg r imm.toInt, ?_, fun r' ne => ?_, fun r' => getReal_setInt _ _ _ _, ?_⟩
  · rw [getInt_setInt _ _ _ _ int, if_pos rfl]
  · rw [getInt_setInt _ _ _ _ int, if_neg ne]
  · rw [exec_wrs, wrs_of_legalInt hr int legal, ← writeEffect_toInt legal]
    rfl

/-! ### The nearest power of two (R34) -/

/-- R34: the rounded logarithm is the exponent of the nearest power of two, the larger one on a tie. With 2^L the
largest power at most `w`, no power below 2^L and none above 2^(L + 1) is nearer than those two. -/
theorem roundLog2_nearest {w : Nat} (hw : w ≠ 0) {p : Nat} (hp : p ≠ roundLog2 w) :
    |(2 : Int) ^ roundLog2 w - w| ≤ |2 ^ p - (w : Int)| ∧
      (|(2 : Int) ^ roundLog2 w - w| = |2 ^ p - (w : Int)| → p < roundLog2 w) := by
  have low : (2 : Int) ^ w.log2 ≤ w := by exact_mod_cast Nat.log2_self_le hw
  have high : (w : Int) < 2 ^ (w.log2 + 1) := by exact_mod_cast Nat.lt_log2_self
  have choice : (w - 2 ^ w.log2 < 2 ^ (w.log2 + 1) - w) ↔ ((w : Int) - 2 ^ w.log2 < 2 ^ (w.log2 + 1) - w) := by
    zify [Nat.log2_self_le hw, Nat.lt_log2_self.le]
  have strict : ∀ {a b : Nat}, a < b → (2 : Int) ^ a < 2 ^ b := fun h => pow_lt_pow_right₀ (by decide) h
  unfold roundLog2 at hp ⊢
  simp only [choice, abs_eq_max_neg] at hp ⊢
  generalize w.log2 = L at *
  have side : p < L ∨ p = L ∨ p = L + 1 ∨ L + 1 < p := by omega
  rcases side with lt | rfl | rfl | gt
  · have := strict lt
    split_ifs <;> omega
  · split_ifs at hp ⊢ <;> omega
  · split_ifs at hp ⊢ <;> omega
  · have := strict gt
    split_ifs <;> omega

/-- Settles O13: the write stores the value, its side effect the rounded logarithm, which is nearest. -/
theorem windowLog2IsNearestPower : Obligations.WindowLog2IsNearestPower := by
  intro s data low high
  have legal : legalInt .sqlWindow (wrrInt data) = true := (within_iff _ _ _).2 ⟨low, high⟩
  have value : (data.toInt.toNat : Int) = data.toInt := Int.toNat_of_nonneg (by omega)
  refine ⟨_, exec_wrr _ _ _, ?_⟩
  rw [wrr_of_legalInt _ (r := .sqlWindow) rfl rfl legal]
  refine ⟨rfl, fun p hp => ?_⟩
  have nearest := roundLog2_nearest (w := data.toInt.toNat) (by omega) hp
  rwa [value] at nearest

/-! ### The power-on state (R285) -/

/-- Settles O14: the model's RST and reset state are those of the tables; an empty delay line reads as zero. -/
theorem rstRestoresPowerOn : Obligations.RstRestoresPowerOn :=
  ⟨fun _ => rfl, rfl, fun _ => rfl, by norm_num [State.reset]⟩

end Sys2Proof.Machine
end

section
/-! PROOFS. The delay line as a record of the most recent samples (R65, R100), and the fault of the squelch grid
(R21). -/

namespace Sys2Proof.Machine

open Sys2Proof.Safety

/-! ### The delay line -/

/-- The slot, of the first `D`, of the sample `a` positions before the newest, the next push going to `idx` (R100). -/
def recentSlot (D idx a : Nat) : Nat := if a < idx then idx - 1 - a else idx + D - 1 - a

theorem recentSlot_lt {D idx a : Nat} (hi : idx < D) (ha : a < D) : recentSlot D idx a < D := by
  unfold recentSlot; split_ifs <;> omega

theorem nextDlIndex_eq (P : Config.Params) {idx : Nat} (hi : idx < P.tedDlSize) :
    nextDlIndex P idx = if idx + 1 = P.tedDlSize then 0 else idx + 1 := by
  unfold nextDlIndex
  split_ifs with wrap
  · rw [wrap, Nat.mod_self]
  · exact Nat.mod_eq_of_lt (by omega)

/-- After a push the slot written to is that of age 0. -/
theorem recentSlot_next_zero (P : Config.Params) {idx : Nat} (hi : idx < P.tedDlSize) :
    recentSlot P.tedDlSize (nextDlIndex P idx) 0 = idx := by
  rw [nextDlIndex_eq P hi]
  unfold recentSlot
  split_ifs <;> omega

/-- After a push every other sample is one older, in the slot it was in, which is not the one written to. -/
theorem recentSlot_next_succ (P : Config.Params) {idx a : Nat} (hi : idx < P.tedDlSize) (ha : a + 1 < P.tedDlSize) :
    recentSlot P.tedDlSize (nextDlIndex P idx) (a + 1) = recentSlot P.tedDlSize idx a ∧
      recentSlot P.tedDlSize idx a ≠ idx := by
  rw [nextDlIndex_eq P hi]
  unfold recentSlot
  split_ifs <;> omega

/-- The line holds the sample `z` at age `a`, in both of its halves. -/
def HoldsAt (P : Config.Params) (l : TedLoop) (a : Nat) (z : Cplx) : Prop :=
  readSlot l.dl (recentSlot P.tedDlSize l.regs.dlIndex a) = z ∧
    readSlot l.dl (recentSlot P.tedDlSize l.regs.dlIndex a + P.tedDlSize) = z

/-- R100: AGE reads one of the two halves. -/
theorem age_eq_of_holdsAt {P : Config.Params} {l : TedLoop} {a : Nat} {z : Cplx} (ha : a < P.tedDlSize)
    (h : HoldsAt P l a z) : age P l.regs.dlIndex l.dl (a : Int) = z := by
  obtain ⟨lower, upper⟩ := h
  have slot : (((l.regs.dlIndex + P.tedDlSize : Nat) : Int) - 1 - (a : Int)).toNat =
      l.regs.dlIndex + P.tedDlSize - 1 - a := by omega
  rw [age, slot]
  unfold recentSlot at lower upper
  split_ifs at lower upper with wrap
  · rwa [show l.regs.dlIndex + P.tedDlSize - 1 - a = l.regs.dlIndex - 1 - a + P.tedDlSize by omega]
  · exact lower

/-- R100: a push puts its sample at age 0. -/
theorem tedPush_holdsAt_zero {P : Config.Params} {l : TedLoop} (wf : Memory.wf l.dl = true)
    (hi : l.regs.dlIndex < P.tedDlSize) (x : Cplx) : HoldsAt P (tedPush P x l) 0 x := by
  unfold HoldsAt tedPush
  dsimp only
  rw [recentSlot_next_zero P hi, readSlot_pushDl P wf, readSlot_pushDl P wf]
  exact ⟨if_pos (.inl rfl), if_pos (.inr rfl)⟩

/-- R100: a push makes every sample that stays in the line one older. -/
theorem tedPush_holdsAt_succ {P : Config.Params} {l : TedLoop} (wf : Memory.wf l.dl = true)
    (hi : l.regs.dlIndex < P.tedDlSize) (x : Cplx) {a : Nat} (ha : a + 1 < P.tedDlSize) {z : Cplx}
    (h : HoldsAt P l a z) : HoldsAt P (tedPush P x l) (a + 1) z := by
  obtain ⟨same, ne⟩ := recentSlot_next_succ P hi ha
  have lt := recentSlot_lt hi (Nat.lt_of_succ_lt ha)
  unfold HoldsAt tedPush
  dsimp only
  rw [same, readSlot_pushDl P wf, readSlot_pushDl P wf, if_neg (by omega), if_neg (by omega)]
  exact h

/-- The line after the samples `xs` are pushed. -/
def pushAll (P : Config.Params) (xs : List Cplx) (l : TedLoop) : TedLoop := xs.foldl (fun l x => tedPush P x l) l

theorem pushAll_concat (P : Config.Params) (xs : List Cplx) (x : Cplx) (l : TedLoop) :
    pushAll P (xs ++ [x]) l = tedPush P x (pushAll P xs l) := by
  simp [pushAll]

/-- Pushes keep the canonical form and a legal index, and the `a`-th sample from the end is held at age `a`. -/
theorem pushAll_holds (P : Config.Params) {l : TedLoop} (wf : Memory.wf l.dl = true)
    (hi : l.regs.dlIndex < P.tedDlSize) (xs : List Cplx) :
    Memory.wf (pushAll P xs l).dl = true ∧ (pushAll P xs l).regs.dlIndex < P.tedDlSize ∧
      ∀ a, a < P.tedDlSize → a < xs.length → HoldsAt P (pushAll P xs l) a (xs.getD (xs.length - 1 - a) (0, 0)) := by
  induction xs using List.reverseRecOn with
  | nil => exact ⟨wf, hi, fun a _ ha => absurd ha (Nat.not_lt_zero a)⟩
  | append_singleton xs x ih =>
    obtain ⟨wf', hi', held⟩ := ih
    rw [pushAll_concat]
    refine ⟨pushDl_wf P wf' _ x, Nat.mod_lt _ (by omega), fun a ha hl => ?_⟩
    rw [List.length_append, List.length_singleton] at hl ⊢
    cases a with
    | zero => simpa using tedPush_holdsAt_zero wf' hi' x
    | succ a =>
      have := tedPush_holdsAt_succ wf' hi' x ha (held a (by omega) (by omega))
      rwa [List.getD_append _ _ _ _ (by omega), show xs.length + 1 - 1 - (a + 1) = xs.length - 1 - a by omega]

/-- Settles O39: the line holds each recent sample at its age (`pushAll_holds`), and AGE reads it there. -/
theorem delayLineHoldsRecentSamples : Obligations.DelayLineHoldsRecentSamples := by
  intro l xs a wf hi ha hl
  obtain ⟨_, _, held⟩ := pushAll_holds Config.params wf hi xs
  exact age_eq_of_holdsAt ha (held a ha hl)

/-! ### The fault of the squelch grid -/

/-- R21, R251: the grid is not readable exactly when a grid point is the last element of the block. -/
theorem gridReadable_eq_false_iff {s : State} (hs : 0 < s.cfg.sqlStride) :
    gridReadable s = false ↔ ∃ k : Nat, s.sql.decimPhase + k * s.cfg.sqlStride.toNat + 1 = s.buf.length := by
  have pos : 0 < s.cfg.sqlStride.toNat := by omega
  have unreadable : gridReadable s = false ↔ ∃ j ∈ sqlGrid s, s.buf.length ≤ j + 1 := by
    simp [gridReadable, List.all_eq_false]
  rw [unreadable]
  constructor
  · rintro ⟨j, mem, last⟩
    obtain ⟨lt, le, k, dist⟩ := (mem_gridPoints _ _ _ _ pos).1 mem
    exact ⟨k, by rw [mul_comm]; omega⟩
  · rintro ⟨k, last⟩
    refine ⟨s.sql.decimPhase + k * s.cfg.sqlStride.toNat, (mem_gridPoints _ _ _ _ pos).2 ⟨by omega, by omega, ?_⟩,
      by omega⟩
    rw [Nat.add_sub_cancel_left]
    exact Nat.dvd_mul_left _ _

/-- Settles O47: SQLM faults exactly when its grid is not readable, and there is one kind of fault. -/
theorem sqlmFaultsOnlyBeyondValid : Obligations.SqlmFaultsOnlyBeyondValid := by
  intro s r hs
  rw [← gridReadable_eq_false_iff hs]
  rcases execSqlm_cases s with ⟨readable, e⟩ | ⟨unreadable, e⟩
  · simp [e, readable]
  · cases r
    simp [e, unreadable]

end Sys2Proof.Machine
end

section
/-! PROOFS. The block buffers and the whole invariant: each part of a step keeps them, and the power-on state has
them. -/

namespace Sys2Proof.Machine

open Sys2Proof.Safety

/-! ### The block buffers (R21, R22) -/

/-- Both block buffers are legal. -/
def BlockOk (s : State) : Prop := BufOk s.buf ∧ OutOk s.out

theorem bufOk_nil : BufOk [] := ⟨rfl, Nat.zero_le _, by simp⟩

theorem outOk_nil : OutOk [] := ⟨Nat.zero_le _, by simp⟩

/-- A legal BUF is a legal OUT. -/
theorem outOk_of_bufOk {b : List Int} (h : BufOk b) : OutOk b := ⟨h.2.1, h.2.2⟩

theorem toInt_isInt16 (x : Sample) : IsInt16 x.toInt := by
  have low := x.le_toInt
  have high := x.toInt_lt
  norm_num at low high
  exact ⟨low, by omega⟩

/-- R81, R287: the words LOAD takes when it does not raise are a legal BUF. -/
theorem portRead_bufOk {c : CfgRegs} {len : Nat} {s : State} (legal : loadFault Config.params c len = none)
    (words : len ≤ s.samples.length) : BufOk (portRead len s) := by
  obtain ⟨_, even, le⟩ := (loadFault_eq_none_iff _ _ _).1 legal
  have length : (portRead len s).length = len := by simp [portRead, words]
  refine ⟨by rw [length]; exact even, by rw [length]; exact le, fun v mem => ?_⟩
  obtain ⟨x, _, rfl⟩ := List.mem_map.1 mem
  exact toInt_isInt16 x

theorem rrc_bufOk (s : State) (h : BufOk s.buf) : BufOk (rrc Config.params s).buf := matchedFilter_bufOk _ _ h

theorem stage_blockOk (i : Instr) (s : State) (hi : isStage i = true) (h : BlockOk s) : BlockOk (result i s) := by
  obtain ⟨buf, out⟩ := h
  cases i with
  | decimhb => exact ⟨decimhb_bufOk s buf, (decimhb_out _ s).symm ▸ out⟩
  | decimleg => exact ⟨decimleg_bufOk s buf, (decimleg_out _ s).symm ▸ out⟩
  | chlpf => exact ⟨chlpf_bufOk s buf, (chlpf_out _ s).symm ▸ out⟩
  | sqlm => exact ⟨buf, out⟩
  | dcblk => exact ⟨dcblk_bufOk s buf, out⟩
  | agc => exact ⟨agc_bufOk s buf, (agc_out s).symm ▸ out⟩
  | limit => exact ⟨limit_bufOk s buf, out⟩
  | iqbal => exact ⟨iqbal_bufOk s buf, (iqbal_out s).symm ▸ out⟩
  | flldd => exact ⟨flldd_bufOk s buf, (flldd_out _ s).symm ▸ out⟩
  | fllbe => exact ⟨fllbe_bufOk s buf, (fllbe_out _ s).symm ▸ out⟩
  | mf5 => exact ⟨matchedFilter_bufOk _ _ buf, out⟩
  | rrc => exact ⟨rrc_bufOk s buf, (rrc_out _ s).symm ▸ out⟩
  | tedm => exact ⟨tedm_bufOk s buf, out⟩
  | tedf => exact ⟨tedf_bufOk s buf, out⟩
  | discfm => exact ⟨buf, discriminate_outOk s buf⟩
  | discdq => exact ⟨buf, discriminate_outOk s buf⟩
  | discraw => exact ⟨buf, outOk_of_bufOk buf⟩
  | gate => exact ⟨buf, gate_outOk s out⟩
  | nop | wrr | wrs | rst | fllrst | errclr | blk | load | emit => cases hi

theorem load_blockOk {len : Nat} {s : State} (words : len ≤ s.samples.length) (h : BlockOk s) :
    BlockOk (load Config.params len s) := by
  rcases load_cases Config.params len s with ⟨legal, e⟩ | ⟨_, _, _, e⟩ <;> rw [e]
  · exact ⟨portRead_bufOk legal words, outOk_nil⟩
  · exact h

theorem result_blockOk {i : Instr} {s : State} (words : portWords i ≤ s.samples.length) (h : BlockOk s) :
    BlockOk (result i s) := by
  cases i with
  | nop | fllrst | errclr | emit => exact h
  | wrr reg data => rw [result, wrr_frame]; exact h
  | wrs reg imm => rw [result, wrs_frame]; exact h
  | rst => exact ⟨bufOk_nil, outOk_nil⟩
  | load len => exact load_blockOk words h
  | blk len =>
    rw [result, blkResult]
    split_ifs
    · exact pipeline_induct stage_blockOk (load_blockOk words h)
    · exact load_blockOk words h
  | _ => exact stage_blockOk _ s rfl h

/-- Settles O52: the cases of a step, and `result_blockOk`. -/
theorem stepKeepsBlockBuffers : Obligations.StepKeepsBlockBuffers := by
  intro s t buf out h
  rcases step_next h with rfl | ⟨w, _, rfl⟩ | ⟨i, _, words, rfl | rfl⟩
  · exact ⟨buf, out⟩
  · exact ⟨buf, out⟩
  · exact result_blockOk words ⟨buf, out⟩
  · exact result_blockOk words ⟨buf, out⟩

/-! ### The power-on state (R75) -/

theorem cfgOk_default : CfgOk {} where
  ints r int ne := by
    cases r with
    | sampleRateHz => exact absurd rfl ne
    | tedGainMu | tedGainOmega | tedOmegaRel | tedLockThr => cases int
    | _ => rfl
  rate := .inl rfl
  reals r real := by
    cases r with
    | tedGainMu | tedGainOmega | tedOmegaRel | tedLockThr => exact decide_eq_true (by norm_num [getReal])
    | _ => cases real
  rel := .inl rfl

theorem errOk_default : ErrOk {} := ⟨Nat.zero_le _, Nat.zero_le _, Nat.zero_le _⟩

theorem fllOk_default : FllOk {} := ⟨by decide, by decide, by decide, by decide, by decide⟩

theorem tedOk_default : TedOk {} where
  mu := by norm_num
  sps := by decide
  twice := rfl
  omega := by norm_num [Config.InClamp]
  ema := by norm_num
  count := Nat.zero_le _
  index := tedDlSize_pos
  kicks := Nat.zero_le _
  skip := Nat.zero_le _

theorem sqlOk_default : SqlOk {} {} := ⟨by decide, by decide, by decide, by decide, by decide⟩

theorem condOk_default : CondOk {} := ⟨by decide, by decide, by decide, by decide, by decide⟩

theorem rrcOk_default : RrcOk {} [] :=
  ⟨fun _ => ⟨rfl, rfl, rfl, rfl⟩, fun valid => Bool.noConfusion valid, Nat.zero_le _⟩

theorem hbOk_reset : HbOk State.reset.hbHist := ⟨rfl, by decide⟩

theorem lpfOk_reset : LpfOk (List.replicate 62 0) := ⟨rfl, by decide⟩

theorem dlOk_nil : DlOk [] where
  canonical := rfl
  inside _ _ := rfl
  int16 _ := show IsInt16 0 by decide
  doubled _ _ := rfl

/-- R75, R285: the reset state with ports that meet the invariant meets it; RST leaves such a state. -/
theorem rst_inv {s : State} (cp : s.cp ≤ s.cmds.length) (records : ∀ r ∈ s.outPort, RecordOk r)
    (snapshots : ∀ n ∈ s.snapshots, SnapOk n) : StateInv (rst s) where
  cp := cp
  buf := bufOk_nil
  out := outOk_nil
  cfg := cfgOk_default
  err := errOk_default
  fll := fllOk_default
  ted := tedOk_default
  sql := sqlOk_default
  cond := condOk_default
  rrc := rrcOk_default
  hb := hbOk_reset
  lpfR := lpfOk_reset
  lpfJ := lpfOk_reset
  dl := dlOk_nil
  records := records
  snapshots := snapshots

/-- Settles O53: the power-on state is one that RST leaves. -/
theorem powerOnMeetsInvariant : Obligations.PowerOnMeetsInvariant := fun cmds samples =>
  rst_inv (s := powerOn cmds samples) (Nat.zero_le _) (fun _ h => by cases h) (fun _ h => by cases h)

/-! ### Register writes (R27, R34, R52) -/

theorem cfgOk_range {c : CfgRegs} (h : CfgOk c) {r : CfgReg} {lo hi : Int} (int : isReal r = false)
    (ne : r ≠ .sampleRateHz) (set : ∀ v, legalInt r v = within v lo hi) : lo ≤ getInt c r ∧ getInt c r ≤ hi :=
  (within_iff _ _ _).1 ((set _).symm.trans (h.ints r int ne))

theorem cfgOk_stride {c : CfgRegs} (h : CfgOk c) : 2 ≤ c.sqlStride ∧ c.sqlStride ≤ 65534 ∧ c.sqlStride % 2 = 0 :=
  (legalInt_sqlStride _).1 (h.ints .sqlStride rfl (by decide))

theorem setInt_cfgOk {c : CfgRegs} (h : CfgOk c) {r : CfgReg} {v : Int} (int : isReal r = false)
    (legal : legalInt r v = true) : CfgOk (setInt c r v) where
  ints r' int' ne := by
    rw [getInt_setInt _ _ _ _ int]
    split_ifs with same
    · exact same ▸ legal
    · exact h.ints r' int' ne
  rate := by
    have read : (setInt c r v).sampleRateHz = if .sampleRateHz = r then v else c.sampleRateHz :=
      getInt_setInt c r .sampleRateHz v int
    rw [read]
    split_ifs with same
    · subst same
      exact .inr legal
    · exact h.rate
  reals r' real := by rw [getReal_setInt]; exact h.reals r' real
  rel := by
    have read : (setInt c r v).tedOmegaRel = c.tedOmegaRel := getReal_setInt c r .tedOmegaRel v
    rw [read]; exact h.rel

/-- R12, R29: the quantised value of a legal one is legal. -/
theorem legalReal_qreal {r : CfgReg} {q : Rat} (h : legalReal r q = true) :
    legalReal r (Config.params.qreal q) = true := by
  cases r with
  | tedGainMu | tedGainOmega =>
    obtain ⟨low, high⟩ := of_decide_eq_true h
    exact decide_eq_true (Config.params.qreal_gain q low high)
  | tedOmegaRel =>
    obtain ⟨low, high⟩ := of_decide_eq_true h
    exact decide_eq_true (Config.params.qreal_rel q low high)
  | tedLockThr =>
    obtain ⟨low, high⟩ := of_decide_eq_true h
    exact decide_eq_true (Config.params.qreal_fraction q low high)
  | _ => cases h

theorem setReal_cfgOk {c : CfgRegs} (h : CfgOk c) {r : CfgReg} {data : Word} (real : isReal r = true)
    (legal : legalReal r (wrrReal data) = true) : CfgOk (setReal c r (Config.params.qreal (wrrReal data))) where
  ints r' int ne := by rw [getInt_setReal]; exact h.ints r' int ne
  rate := by
    have read : (setReal c r (Config.params.qreal (wrrReal data))).sampleRateHz = c.sampleRateHz :=
      getInt_setReal c r .sampleRateHz _
    rw [read]; exact h.rate
  reals r' real' := by
    rw [getReal_setReal _ _ _ _ real]
    split_ifs with same
    · exact same ▸ legalReal_qreal legal
    · exact h.reals r' real'
  rel := by
    have read : (setReal c r (Config.params.qreal (wrrReal data))).tedOmegaRel =
        if .tedOmegaRel = r then Config.params.qreal (wrrReal data) else c.tedOmegaRel :=
      getReal_setReal c r .tedOmegaRel _ real
    rw [read]
    split_ifs with same
    · subst same
      exact .inr ⟨data.toNat, (of_decide_eq_true legal).2, rfl⟩
    · exact h.rel

theorem reducePhase_even (phase stride : Nat) : reducePhase phase stride % 2 = 0 := clearBit0_even _

/-- R34, R52, R293: the side effects of a write keep the squelch registers in step with the configuration. -/
theorem writeEffect_sqlOk {c : CfgRegs} {q : SqlRegs} (h : SqlOk c q) {r : CfgReg} {v : Int} (int : isReal r = false)
    (legal : legalInt r v = true) : SqlOk (setInt c r v) (writeEffect r v q) := by
  have window : (setInt c r v).sqlWindow = if .sqlWindow = r then v else c.sqlWindow :=
    getInt_setInt c r .sqlWindow v int
  have stride : (setInt c r v).sqlStride = if .sqlStride = r then v else c.sqlStride :=
    getInt_setInt c r .sqlStride v int
  rw [writeEffect_eq]
  split_ifs with isWindow isStride
  · subst isWindow
    exact { h with window := rfl }
  · subst isStride
    obtain ⟨low, _, _⟩ := (legalInt_sqlStride v).1 legal
    have lt := reducePhase_lt q.decimPhase (stride := v.toNat) (by omega)
    exact { h with phaseEven := reducePhase_even _ _, phaseLt := by rw [stride, if_pos rfl]; dsimp only; omega }
  · rw [if_neg (Ne.symm isWindow)] at window
    rw [if_neg (Ne.symm isStride)] at stride
    exact { h with window := by rw [window]; exact h.window, phaseLt := by rw [stride]; exact h.phaseLt }

theorem setReal_sqlOk {c : CfgRegs} {q : SqlRegs} (h : SqlOk c q) (r : CfgReg) (v : Rat) : SqlOk (setReal c r v) q := by
  have window : (setReal c r v).sqlWindow = c.sqlWindow := getInt_setReal c r .sqlWindow v
  have stride : (setReal c r v).sqlStride = c.sqlStride := getInt_setReal c r .sqlStride v
  exact { h with window := by rw [window]; exact h.window, phaseLt := by rw [stride]; exact h.phaseLt }

theorem writeInt_inv {s : State} (h : StateInv s) {r : CfgReg} {v : Int} (int : isReal r = false)
    (legal : legalInt r v = true) : StateInv (writeInt r v s) :=
  { h with cfg := setInt_cfgOk h.cfg int legal, sql := writeEffect_sqlOk h.sql int legal }

theorem writeReal_inv {s : State} (h : StateInv s) {r : CfgReg} {data : Word} (real : isReal r = true)
    (legal : legalReal r (wrrReal data) = true) : StateInv (writeReal Config.params r (wrrReal data) s) :=
  { h with cfg := setReal_cfgOk h.cfg real legal, sql := setReal_sqlOk h.sql _ _ }

/-! ### Exceptions, ports and counts -/

theorem excCode_le (x : Exc) : excCode x ≤ 6 := by cases x <;> decide

theorem raise_inv {s : State} (h : StateInv s) (x : Exc) (stage : BitVec 8) (info : Int) :
    StateInv (raise x stage info s) := by
  obtain ⟨_, _, blocks⟩ := h.err
  exact { h with err := ⟨excCode_le x, min_le_right _ _, blocks⟩ }

theorem advance_inv {s : State} (h : StateInv s) {n : Nat} (cp : s.cp + n ≤ s.cmds.length) : StateInv (advance n s) :=
  { h with cp := cp }

theorem portDrop_inv {s : State} (h : StateInv s) (n : Nat) : StateInv (portDrop n s) := { h with }

theorem portWrite_inv {s : State} (h : StateInv s) {r : Record} (hr : RecordOk r) : StateInv (portWrite r s) :=
  { h with records := fun r' mem => (List.mem_append.1 mem).elim (h.records r') fun new =>
      List.eq_of_mem_singleton new ▸ hr }

theorem emit_inv {s : State} (h : StateInv s) : StateInv (emit s) :=
  portWrite_inv h ⟨rfl, h.out, Nat.zero_le _⟩

theorem errorRecord_inv {s : State} (h : StateInv s) : StateInv (errorRecord s) :=
  portWrite_inv h ⟨rfl, outOk_nil, h.err.1⟩

theorem countBlock_inv {s : State} (h : StateInv s) : StateInv (countBlock s) := by
  obtain ⟨code, count, _⟩ := h.err
  exact { h with err := ⟨code, count, min_le_right _ _⟩ }

theorem load_inv {len : Nat} {s : State} (words : len ≤ s.samples.length) (h : StateInv s) :
    StateInv (load Config.params len s) := by
  rcases load_cases Config.params len s with ⟨legal, e⟩ | ⟨x, info, _, e⟩ <;> rw [e]
  · exact { h with buf := portRead_bufOk legal words, out := outOk_nil }
  · exact raise_inv (portDrop_inv h len) x _ info

/-- R84: a snapshot of a state in its ranges is in its ranges. -/
theorem takeSnapshot_ok {s : State} (h : StateInv s) : SnapOk (takeSnapshot s) where
  cfg := h.cfg
  err := h.err
  lpLen := by
    obtain ⟨even, le, _⟩ := h.buf
    exact ⟨even, le⟩
  outLen := h.out.1
  fll := h.fll
  ted := h.ted
  tedState := rfl
  sql := h.sql
  cond := h.cond

theorem publish_inv {s : State} (h : StateInv s) : StateInv (publish s) :=
  { h with snapshots := fun n mem => (List.mem_append.1 mem).elim (h.snapshots n) fun new =>
      List.eq_of_mem_singleton new ▸ takeSnapshot_ok h }

theorem wrr_inv {s : State} (h : StateInv s) (reg : Nat) (data : Word) : StateInv (wrr Config.params reg data s) := by
  rcases wrr_cases Config.params reg data s with
    ⟨_, e⟩ | ⟨_, _, e⟩ | ⟨_, _, real, legal, e⟩ | ⟨_, _, int, legal, e⟩ <;> rw [e]
  · exact raise_inv h _ _ _
  · exact raise_inv h _ _ _
  · exact writeReal_inv h real legal
  · exact writeInt_inv h int legal

theorem wrs_inv {s : State} (h : StateInv s) (reg : Nat) (imm : BitVec 16) : StateInv (wrs reg imm s) := by
  rcases wrs_cases reg imm s with ⟨_, e⟩ | ⟨_, _, _, e⟩ | ⟨_, _, int, legal, e⟩ <;> rw [e]
  · exact raise_inv h _ _ _
  · exact raise_inv h _ _ _
  · exact writeInt_inv h int legal

/-! ### The registers and arrays each stage writes -/

theorem buf_isInt16 {s : State} (h : StateInv s) : ∀ v ∈ s.buf, IsInt16 v := h.buf.2.2

theorem passes_le {s : State} (h : CfgOk s.cfg) : passes s ≤ 8 := by
  have := cfgOk_range h (r := .downsamplePasses) rfl (by decide) fun _ => rfl
  simp only [getInt] at this
  unfold passes
  omega

theorem decimhb_hbOk {s : State} (h : StateInv s) : HbOk (decimhb Config.params s).hbHist := by
  unfold decimhb
  split_ifs
  · exact h.hb
  · exact h.hb
  · exact hbCascade_hbOk _ _ (passes_le h.cfg) h.hb (pairs_isInt16 _ (buf_isInt16 h))

/-- R51, R251: the squelch registers after a measurement. -/
theorem sqlm_sqlOk {s : State} (h : StateInv s) : SqlOk s.cfg (sqlm s).sql := by
  obtain ⟨low, _, even⟩ := cfgOk_stride h.cfg
  obtain ⟨phaseEven, phaseLt⟩ := nextPhase_mem (ph := s.sql.decimPhase) (S := s.cfg.sqlStride.toNat) s.buf.length
    (by omega) (by omega) h.sql.phaseEven
  refine { h.sql with power := nextPower_mem h.sql.power _ fun v mem => ?_, phaseEven := phaseEven, phaseLt := ?_ }
  · obtain ⟨j, _, rfl⟩ := List.mem_map.1 mem
    exact gridPower_mem (buf_isInt16 h) j
  · simp only [sqlm]
    omega

theorem gate_sqlOk {s : State} (h : StateInv s) : SqlOk s.cfg (gate s).sql := by
  have attack := cfgOk_range h.cfg (r := .gateAttackQ15) rfl (by decide) fun _ => rfl
  have release := cfgOk_range h.cfg (r := .gateReleaseQ15) rfl (by decide) fun _ => rfl
  exact { h.sql with
    env := (scan_invariant (gateStep s.cfg s.sql.gateOpen) (fun e => 0 ≤ e ∧ e ≤ 32768) (fun _ => True)
      (fun _ => True) (fun _ _ he _ => ⟨gateEnv_mem _ _ attack release he, trivial⟩) s.out _ h.sql.env
      (fun _ _ => trivial)).1 }

theorem agc_condOk {s : State} (h : StateInv s) : CondOk (agc s).cond := by
  unfold agc
  dsimp only
  split_ifs
  · exact h.cond
  · exact { h.cond with gain := agcGain_mem _ _ h.cond.gain }

theorem iqbal_condOk {s : State} (h : StateInv s) : CondOk (iqbal s).cond := by
  obtain ⟨low, high⟩ := cfgOk_range h.cfg (r := .iqbalEmaQ15) rfl (by decide) fun _ => rfl
  obtain ⟨emaR, emaJ⟩ :=
    iqUpdate_mem low high (pairs s.buf) (c := (s.cond.iqEmaR, s.cond.iqEmaJ)) h.cond.emaR h.cond.emaJ
  unfold iqbal
  dsimp only
  split_ifs
  · exact { h.cond with emaR := emaR, emaJ := emaJ }
  · exact { h.cond with emaR := emaR, emaJ := emaJ }

/-- R53, R267: the previous sample of the discriminators is the last of the block, or as it was. -/
theorem discriminate_condOk {s : State} (h : StateInv s) : CondOk (discriminate Config.params s).cond :=
  { h.cond with
    prev := (scan_invariant (discStep Config.params) IsInt16Pair IsInt16Pair (fun _ => True)
      (fun _ _ _ hx => ⟨hx, trivial⟩) (pairs s.buf) _ h.cond.prev (pairs_isInt16 _ (buf_isInt16 h))).1 }

/-- R204, R205: the tap count is odd, and the cache can hold it. -/
theorem ntaps_mem {sps span : Int} (hs : 2 ≤ sps ∧ sps ≤ 20) (hn : 0 ≤ span ∧ span ≤ 16) :
    ntaps sps span % 2 = 1 ∧ ntaps sps span ≤ 641 := by
  have high : 2 * span * sps ≤ 640 := by nlinarith
  unfold ntaps
  dsimp only
  generalize 2 * span * sps = x at high
  split_ifs <;> omega

theorem rrcRefresh_rrcOk {s : State} (h : StateInv s) :
    RrcOk (rrcRefresh Config.params s).rrc (rrcRefresh Config.params s).rrcTaps := by
  unfold rrcRefresh
  split_ifs
  · obtain ⟨spsLow, spsHigh⟩ := cfgOk_sps h.cfg
    obtain ⟨alphaLow, alphaHigh⟩ := cfgOk_range h.cfg (r := .rrcAlphaQ15) rfl (by decide) fun _ => rfl
    obtain ⟨spanLow, spanHigh⟩ := cfgOk_range h.cfg (r := .rrcSpanSyms) rfl (by decide) fun _ => rfl
    obtain ⟨odd, le⟩ := ntaps_mem ⟨spsLow, spsHigh⟩ ⟨spanLow, spanHigh⟩
    have length := Config.params.rrcDesign_length s.cfg.tedSps s.cfg.rrcAlphaQ15 _ odd
    exact ⟨fun valid => Bool.noConfusion valid,
      fun _ => ⟨spsLow, spsHigh, alphaLow, alphaHigh, spanLow, spanHigh, length, rfl⟩,
      length.le.trans (le.trans Config.params.rrcMaxTaps_ge)⟩
  · exact h.rrc

/-- The registers and the delay line of a timing loop are in their ranges. -/
def LoopOk (l : TedLoop) : Prop := TedOk l.regs ∧ DlOk l.dl

/-- R217, R233: the count-down, with or without a strobe. -/
theorem countAndStrobe_loopOk {c : CfgRegs} (hc : CfgOk c) (interp : TedLoop → Int → Rat → RCplx) {l : TedLoop}
    (h : LoopOk l) : LoopOk (countAndStrobe Config.params c interp l).1 := by
  obtain ⟨regs, dl⟩ := h
  obtain ⟨skip, strobe⟩ := countAndStrobe_cases Config.params c interp l
  rcases Nat.lt_or_ge 1 l.regs.tedSkip with more | last
  · rw [skip more]
    exact ⟨skipOne_tedOk regs, dl⟩
  · rw [strobe last]
    exact ⟨(strobeRegs_tedOk hc _ _ (t := { l.regs with tedSkip := 0 }) { regs with skip := Nat.zero_le _ }).1, dl⟩

theorem tedPush_loopOk {l : TedLoop} (h : LoopOk l) {x : Cplx} (hx : IsInt16Pair x) :
    LoopOk (tedPush Config.params x l) :=
  ⟨tedPush_tedOk h.1 x, pushDl_dlOk h.2 h.1.index hx⟩

theorem tedStart_loopOk {s : State} (h : StateInv s) : LoopOk (tedStart Config.params s) :=
  ⟨spsCheck_tedOk h.cfg h.ted, h.dl⟩

/-- R235: the loop after TEDM. -/
theorem tedm_loopOk {s : State} (h : StateInv s) : TedOk (tedm Config.params s).ted ∧ DlOk (tedm Config.params s).dl :=
  (scan_invariant (tedmStep Config.params s.cfg) LoopOk IsInt16Pair (fun _ => True)
    (fun _ _ hl hx => ⟨countAndStrobe_loopOk h.cfg _ (tedPush_loopOk hl hx), trivial⟩) (pairs s.buf) _
    (tedStart_loopOk h) (pairs_isInt16 _ (buf_isInt16 h))).1

/-- R236: the loop after TEDF. -/
theorem tedf_loopOk {s : State} (h : StateInv s) : TedOk (tedf Config.params s).ted ∧ DlOk (tedf Config.params s).dl :=
  (scan_invariant (tedfStep Config.params s.cfg) LoopOk IsInt16Pair (fun _ => True)
    (fun _ _ hl hx => ⟨countAndStrobe_loopOk h.cfg _ (tedPush_loopOk hl hx), trivial⟩) (pairs s.buf) _
    (tedStart_loopOk h) (pairs_isInt16 _ (buf_isInt16 h))).1

/-! ### Every step -/

/-- Every stage keeps the invariant: its frame, and the ranges of the fields it writes. -/
theorem stage_inv (i : Instr) (s : State) (hi : isStage i = true) (h : StateInv s) : StateInv (result i s) := by
  cases i with
  | decimhb => rw [result, decimhb_frame]; exact { h with buf := decimhb_bufOk s h.buf, hb := decimhb_hbOk h }
  | decimleg => rw [result, decimleg_frame]; exact { h with buf := decimleg_bufOk s h.buf }
  | chlpf =>
    obtain ⟨histR, histJ⟩ := chlpf_lpfOk Config.params s (buf_isInt16 h) h.lpfR h.lpfJ
    rw [result, chlpf_frame]
    exact { h with buf := chlpf_bufOk s h.buf, lpfR := histR, lpfJ := histJ }
  | sqlm => rw [result, sqlm_frame]; exact { h with sql := sqlm_sqlOk h }
  | dcblk =>
    rw [result, dcblk_frame]
    exact { h with buf := dcblk_bufOk s h.buf, cond := { h.cond with dc := dcblk_dc s (buf_isInt16 h) h.cond.dc } }
  | agc => rw [result, agc_frame]; exact { h with buf := agc_bufOk s h.buf, cond := agc_condOk h }
  | limit => rw [result, limit_frame]; exact { h with buf := limit_bufOk s h.buf }
  | iqbal => rw [result, iqbal_frame]; exact { h with buf := iqbal_bufOk s h.buf, cond := iqbal_condOk h }
  | flldd =>
    rw [result, flldd_frame]
    exact { h with buf := flldd_bufOk s h.buf, fll := flldd_fllOk _ s h.fll }
  | fllbe =>
    rw [result, fllbe_frame]
    exact { h with buf := fllbe_bufOk s h.buf, fll := fllbe_fllOk _ s h.fll }
  | mf5 => rw [result, mf5_frame]; exact { h with buf := matchedFilter_bufOk _ _ h.buf }
  | rrc => rw [result, rrc_frame]; exact { h with buf := rrc_bufOk s h.buf, rrc := rrcRefresh_rrcOk h }
  | tedm =>
    obtain ⟨ted, dl⟩ := tedm_loopOk h
    rw [result, tedm_frame]
    exact { h with buf := tedm_bufOk s h.buf, ted := ted, dl := dl }
  | tedf =>
    obtain ⟨ted, dl⟩ := tedf_loopOk h
    rw [result, tedf_frame]
    exact { h with buf := tedf_bufOk s h.buf, ted := ted, dl := dl }
  | discfm =>
    rw [result, discfm_frame]
    exact { h with out := discriminate_outOk s h.buf, cond := discriminate_condOk h }
  | discdq =>
    rw [result, discdq_frame]
    exact { h with out := discriminate_outOk s h.buf, cond := discriminate_condOk h }
  | discraw => rw [result, discraw_frame]; exact { h with out := outOk_of_bufOk h.buf }
  | gate => rw [result, gate_frame]; exact { h with out := gate_outOk s h.out, sql := gate_sqlOk h }
  | nop | wrr | wrs | rst | fllrst | errclr | blk | load | emit => cases hi

/-- Every operation whose sample words are there keeps the invariant, CP aside. -/
theorem result_inv {i : Instr} {s : State} (words : portWords i ≤ s.samples.length) (h : StateInv s) :
    StateInv (result i s) := by
  cases i with
  | nop => exact h
  | wrr reg data => exact wrr_inv h reg data
  | wrs reg imm => exact wrs_inv h reg imm
  | rst => exact rst_inv h.cp h.records h.snapshots
  | fllrst => exact { h with fll := fllOk_default }
  | errclr => exact { h with err := ⟨Nat.zero_le _, h.err.2⟩ }
  | emit => exact emit_inv h
  | load len => exact load_inv words h
  | blk len =>
    have loaded := load_inv words h
    rw [result, blkResult]
    split_ifs
    · exact countBlock_inv (emit_inv (pipeline_induct stage_inv loaded))
    · exact errorRecord_inv loaded
  | _ => exact stage_inv _ s rfl h

/-- Settles O54: the cases of a step; CP stays inside the command words since the words of a decoded operation are there
(`fetch_words`), and every range is kept by `result_inv`. -/
theorem stepKeepsInvariant : Obligations.StepKeepsInvariant := by
  intro s t h run
  rcases step_next run with rfl | ⟨w, word, rfl⟩ | ⟨i, decoded, words, eq⟩
  · exact h
  · exact advance_inv (raise_inv h _ _ _) word
  · have next : StateInv (advance i.words (result i s)) :=
      advance_inv (result_inv words h) (by simpa using fetch_words decoded)
    rcases eq with rfl | rfl
    · exact next
    · exact publish_inv next

end Sys2Proof.Machine
end

section
/-! PROOFS. The ports of spec/20_memory.md: waiting for a word changes nothing (R81, R82), a snapshot is published
exactly at a batch boundary (R84, R93), and the record of a BLK halted by its LOAD (R83). -/

namespace Sys2Proof.Machine

/-! ### Waiting for words (R81, R82, R120) -/

/-- R82, R281: a machine whose operation has not arrived in full idles. -/
theorem step_of_fetch_missing {s : State} (h : fetch s = .error .noWord ∨ fetch s = .error .noData) :
    step s = .next s := by
  rcases h with h | h <;> simp only [step, h]

theorem fetch_of_exhausted {s : State} (h : s.cmds.length ≤ s.cp) : fetch s = .error .noWord := by
  rw [fetch, List.drop_eq_nil_of_le h, decode]

theorem decodeWord_wrr {w : Word} (op : opField w = 0x01) (zero : immField w = 0) (data : Word) :
    decodeWord w data = .ok (.wrr (aField w) data) := by
  simp [decodeWord, op, decodeW, zero]

/-- R120: the first word of a WRR alone is no operation yet. -/
theorem decode_wrr_alone {w : Word} (op : opField w = 0x01) (zero : immField w = 0) :
    decode [w] = .error .noData := by
  simp [decode, decodeWord_wrr op zero, Instr.words]

/-- R81: without its words LOAD waits. -/
theorem execLoad_waits {len : Nat} {s : State} (few : s.samples.length < len) : exec (.load len) s = .next s := by
  rcases execLoad_cases len s with ⟨_, waits⟩ | ⟨enough, _⟩
  · exact waits
  · omega

/-- R81: without its words BLK waits. -/
theorem execBlk_waits {len : Nat} {s : State} (few : s.samples.length < len) : exec (.blk len) s = .next s := by
  rcases execBlk_cases len s with ⟨_, waits⟩ | ⟨enough, _⟩
  · exact waits
  · omega

/-- Settles O6: without a whole operation at CP the step idles, and LOAD and BLK wait for their words. -/
theorem waitingChangesNothing : Obligations.WaitingChangesNothing := by
  refine ⟨fun s exhausted => ?_, fun s w alone op zero => ?_, fun s len few => ?_⟩
  · exact step_of_fetch_missing (.inl (fetch_of_exhausted exhausted))
  · exact step_of_fetch_missing (.inr (by rw [fetch, alone, decode_wrr_alone op zero]))
  · exact ⟨execLoad_waits few, execBlk_waits few⟩

/-! ### Snapshots at batch boundaries (R84, R93) -/

theorem endsBlock_iff (i : Instr) : endsBlock i = true ↔ ∃ n, i = .blk n := by
  cases i <;> simp [endsBlock]

/-- R93: an operation that moved CP reaches a batch boundary when it is a control command or a BLK and no control
command follows. -/
theorem batchBoundary_iff {i : Instr} {cp : Nat} {t : State} (moved : t.cp ≠ cp) :
    batchBoundary i cp t = true ↔ (i.isControl = true ∨ ∃ n, i = .blk n) ∧ controlFollows t = false := by
  simp [batchBoundary, moved, endsBlock_iff]

@[simp] theorem controlFollows_publish (t : State) : controlFollows (publish t) = controlFollows t := rfl

@[simp] theorem settle_cp (i : Instr) (cp : Nat) (t : State) : (settle i cp t).cp = t.cp := by
  rcases settle_eq i cp t with e | e <;> simp [e]

@[simp] theorem controlFollows_settle (i : Instr) (cp : Nat) (t : State) :
    controlFollows (settle i cp t) = controlFollows t := by
  rcases settle_eq i cp t with e | e <;> simp [e]

/-- No operation publishes a snapshot itself: that is the step's part alone (R281). -/
theorem exec_snapshots {i : Instr} {s t : State} (h : exec i s = .next t) : t.snapshots = s.snapshots := by
  rcases exec_next h with rfl | ⟨_, rfl⟩ <;> simp

/-- The step at a decoded operation that completes: its execution, settled (R281). -/
theorem step_decoded {s t : State} {i : Instr} (decoded : fetch s = .ok i) (run : step s = .next t) :
    ∃ u, exec i s = .next u ∧ t = settle i s.cp u := by
  rcases step_cases run with
    ⟨missing | missing, _⟩ | ⟨w, illegal | illegal, _⟩ | ⟨j, u, found, executed, rfl⟩
  · simp [decoded] at missing
  · simp [decoded] at missing
  · simp [decoded] at illegal
  · simp [decoded] at illegal
  · obtain rfl : i = j := Except.ok.inj (decoded.symm.trans found)
    exact ⟨u, executed, rfl⟩

/-- Settles O8: the operation itself publishes nothing (`exec_snapshots`), and the step publishes a snapshot of the
state it leaves exactly at a batch boundary (`batchBoundary_iff`). -/
theorem snapshotExactlyAtBatchBoundary : Obligations.SnapshotExactlyAtBatchBoundary := by
  intro s t i decoded run moved
  obtain ⟨u, executed, rfl⟩ := step_decoded decoded run
  rw [settle_cp] at moved
  rw [controlFollows_settle, ← batchBoundary_iff moved, ← exec_snapshots executed]
  refine ⟨fun boundary => ?_, fun inside => ?_⟩
  · rw [settle, if_pos boundary]
    exact ⟨takeSnapshot u, rfl, rfl, rfl, rfl, rfl, rfl, rfl, rfl, rfl, rfl, rfl, rfl, rfl⟩
  · rw [settle, if_neg inside]

/-! ### The record of a halted BLK (R83, R290) -/

/-- R287: LOAD raises on an illegal rate, an odd length, or a length above `P_MAXLEN`. -/
theorem loadFault_of_illegal {P : Config.Params} {c : CfgRegs} {len : Nat}
    (illegal : ¬ ((c.sampleRateHz = 24000 ∨ c.sampleRateHz = 48000 ∨ c.sampleRateHz = 96000) ∧
      len % 2 = 0 ∧ len ≤ P.maxLen)) : ∃ x info, loadFault P c len = some (x, info) := by
  have raises : loadFault P c len ≠ none := fun e =>
    illegal (by simpa [legalRate] using (loadFault_eq_none_iff P c len).mp e)
  obtain ⟨⟨x, info⟩, e⟩ := Option.ne_none_iff_exists'.mp raises
  exact ⟨x, info, e⟩

/-- R290: a BLK whose LOAD raises ends with the record of a halted block. -/
theorem blk_of_fault {P : Config.Params} {len : Nat} {s : State} {x : Exc} {info : Int}
    (fault : loadFault P s.cfg len = some (x, info)) : blk P len s = .next (errorRecord (load P len s)) := by
  simp only [blk, fault]

/-- Settles O19: both operations take the words and raise; BLK then sends the record of a halted block. -/
theorem blkHaltedSendsEmptyRecord : Obligations.BlkHaltedSendsEmptyRecord := by
  intro s t len words illegal loaded
  obtain ⟨x, info, fault⟩ := loadFault_of_illegal illegal
  rcases execLoad_cases len s with ⟨few, _⟩ | ⟨_, load_eq⟩
  · omega
  rcases execBlk_cases len s with ⟨few, _⟩ | ⟨_, blk_eq⟩
  · omega
  obtain rfl : advance 1 (load Config.params len s) = t := Host.Outcome.next.inj (load_eq.symm.trans loaded)
  rw [blk_eq, blk_of_fault fault, load_of_fault fault]
  rfl

end Sys2Proof.Machine
end

section
/-! PROOFS. The encoding of spec/30_encoding.md: the decoder and the encoder, format by format (R111), then the
statements that they undo each other (R114 to R116) and that the illegal words are those of R118. -/

namespace Sys2Proof

/-! ### The formats (R111) -/

/-- The operations of format Z: those without an operand (R110). -/
def Instr.operandless : Instr → Bool
  | .wrr _ _ | .wrs _ _ | .blk _ | .load _ => false
  | _ => true

/-- The two operations of format L, as functions of the block length (R110). -/
def LengthOp (make : Nat → Instr) : Prop := make = .blk ∨ make = .load

/-- R116: an operation code in a row of the table. -/
def AssignedOp (op : Nat) : Prop := op ≤ 0x05 ∨ (0x10 ≤ op ∧ op ≤ 0x12) ∨ (0x20 ≤ op ∧ op ≤ 0x31)

/-- R118: a field that the format of the word requires to be zero is not. -/
def NonzeroField (w : Word) : Prop :=
  (opField w = 0x01 ∧ immField w ≠ 0) ∨
  ((opField w = 0x10 ∨ opField w = 0x11) ∧ aField w ≠ 0) ∨
  (opField w ≠ 0x01 ∧ opField w ≠ 0x02 ∧ opField w ≠ 0x10 ∧ opField w ≠ 0x11 ∧ (aField w ≠ 0 ∨ immField w ≠ 0))

/-- The operation codes of formats W, S and L; the others in the table are of format Z (R110, R116). -/
def OperandOp (op : Nat) : Prop := op = 0x01 ∨ op = 0x02 ∨ op = 0x10 ∨ op = 0x11

/-- R111: an operation of format Z is one word, with nothing but its code, and can always be encoded. -/
theorem operandless_shape {i : Instr} (plain : i.operandless = true) :
    encode i = [packWord i.opcode 0 0] ∧ i.words = 1 ∧ i.wellFormed = true := by
  cases i with
  | wrr | wrs | blk | load => cases plain
  | _ => exact ⟨rfl, rfl, rfl⟩

/-- R111, R112: an operation of format L is one word, with its code and its length, and can be encoded when the length
fits. -/
theorem lengthOp_shape {make : Nat → Instr} (isLen : LengthOp make) (len : Nat) :
    encode (make len) = [packWord (make 0).opcode 0 (BitVec.ofNat 16 len)] ∧ (make len).words = 1 ∧
      ((make len).wellFormed = true ↔ len < 2 ^ 16) := by
  rcases isLen with rfl | rfl <;> exact ⟨rfl, rfl, decide_eq_true_iff⟩

/-- R110, R116: the codes of format Z are in the table, and of no other format. -/
theorem opcode_of_operandless {i : Instr} (plain : i.operandless = true) :
    AssignedOp i.opcode.toNat ∧ ¬ OperandOp i.opcode.toNat := by
  unfold AssignedOp OperandOp
  cases i with
  | wrr | wrs | blk | load => cases plain
  | _ => decide

/-- R116: the codes of format L. -/
theorem opcode_of_lengthOp {make : Nat → Instr} (isLen : LengthOp make) :
    (make 0).opcode.toNat = 0x10 ∨ (make 0).opcode.toNat = 0x11 := by
  rcases isLen with rfl | rfl
  · exact .inl rfl
  · exact .inr rfl

/-- R114: an operation is one or two words long. -/
theorem words_eq_one_or_two (i : Instr) : i.words = 1 ∨ i.words = 2 := by
  cases i with
  | wrr => exact .inr rfl
  | _ => exact .inl rfl

/-! ### The fields of a word (R110) -/

/-- R110: a word is the concatenation of its three fields. -/
theorem eq_packWord {w : Word} {op a : BitVec 8} {imm : BitVec 16} (hop : opField w = op.toNat)
    (ha : aField w = a.toNat) (himm : immField w = imm) : packWord op a imm = w := by
  obtain rfl : w.extractLsb' 24 8 = op := BitVec.eq_of_toNat_eq hop
  obtain rfl : w.extractLsb' 16 8 = a := BitVec.eq_of_toNat_eq ha
  obtain rfl := himm
  refine BitVec.eq_of_getLsbD_eq fun k hk => ?_
  rw [getLsbD_packWord, immField]
  simp only [BitVec.getLsbD_extractLsb']
  split_ifs with low middle
  · simp [low]
  · simp [show k - 16 < 8 by omega, show 16 + (k - 16) = k by omega]
  · simp [show k - 24 < 8 by omega, show 24 + (k - 24) = k by omega]

theorem regFits_aField (w : Word) : regFits (aField w) = true := decide_eq_true (BitVec.isLt _)

/-! ### The decoder by format (R111, R114) -/

theorem decodeZ_eq_ok {w : Word} (a : aField w = 0) (imm : immField w = 0) (i : Instr) : decodeZ w i = .ok i :=
  if_pos ⟨a, imm⟩

theorem decodeL_eq_ok {w : Word} (a : aField w = 0) (make : Nat → Instr) :
    decodeL w make = .ok (make (immField w).toNat) :=
  if_pos a

/-- R116: the row of an operation without operand. -/
theorem decodeWord_of_operandless {i : Instr} (plain : i.operandless = true) {w : Word}
    (op : opField w = i.opcode.toNat) (data : Word) : decodeWord w data = decodeZ w i := by
  unfold decodeWord
  rw [op]
  cases i with
  | wrr | wrs | blk | load => cases plain
  | _ => rfl

/-- R116: the row of an operation with a block length. -/
theorem decodeWord_of_lengthOp {make : Nat → Instr} (isLen : LengthOp make) {w : Word}
    (op : opField w = (make 0).opcode.toNat) (data : Word) : decodeWord w data = decodeL w make := by
  unfold decodeWord
  rw [op]
  rcases isLen with rfl | rfl <;> rfl

/-- R116: the row of WRS. -/
theorem decodeWord_wrs {w : Word} (op : opField w = 0x02) (data : Word) :
    decodeWord w data = .ok (.wrs (aField w) (immField w)) := by
  simp [decodeWord, op]

/-- What the decoder can answer for a first word `w` with the data word `data`: an operation of one of the four formats
of R111, or one of the two refusals of R118. -/
inductive DecodedBy (w data : Word) : Except Reject Instr → Prop where
  | formatZ {i : Instr} (plain : i.operandless = true) (op : opField w = i.opcode.toNat) (a : aField w = 0)
      (imm : immField w = 0) : DecodedBy w data (.ok i)
  | formatL {make : Nat → Instr} (isLen : LengthOp make) (op : opField w = (make 0).opcode.toNat)
      (a : aField w = 0) : DecodedBy w data (.ok (make (immField w).toNat))
  | formatW (op : opField w = 0x01) (imm : immField w = 0) : DecodedBy w data (.ok (.wrr (aField w) data))
  | formatS (op : opField w = 0x02) : DecodedBy w data (.ok (.wrs (aField w) (immField w)))
  | nonzeroField (assigned : AssignedOp (opField w)) (nonzero : NonzeroField w) :
      DecodedBy w data (.error (.nonzeroField w))
  | unassigned (op : ¬ AssignedOp (opField w)) : DecodedBy w data (.error (.unassignedOpcode w))

theorem decodedBy_decodeZ {w : Word} {i : Instr} (plain : i.operandless = true) (op : opField w = i.opcode.toNat)
    (data : Word) : DecodedBy w data (decodeZ w i) := by
  unfold decodeZ
  split_ifs with zero
  · exact .formatZ plain op zero.1 zero.2
  · obtain ⟨assigned, other⟩ := opcode_of_operandless plain
    rw [← op] at assigned other
    refine .nonzeroField assigned (.inr (.inr ?_))
    unfold OperandOp at other
    tauto

theorem decodedBy_decodeL {w : Word} {make : Nat → Instr} (isLen : LengthOp make)
    (op : opField w = (make 0).opcode.toNat) (data : Word) : DecodedBy w data (decodeL w make) := by
  unfold decodeL
  split_ifs with zero
  · exact .formatL isLen op zero
  · have code := opcode_of_lengthOp isLen
    rw [← op] at code
    exact .nonzeroField (.inr (.inl (by omega))) (.inr (.inl ⟨code, zero⟩))

theorem decodedBy_decodeW {w : Word} (op : opField w = 0x01) (data : Word) :
    DecodedBy w data (decodeW w data) := by
  unfold decodeW
  split_ifs with zero
  · exact .formatW op zero
  · exact .nonzeroField (.inl (by omega)) (.inl ⟨op, zero⟩)

/-- R115: every word is in one row of the table or illegal. -/
theorem decodeWord_decodedBy (w data : Word) : DecodedBy w data (decodeWord w data) := by
  unfold decodeWord
  split
  case h_2 op => exact decodedBy_decodeW op data
  case h_3 op => exact .formatS op
  case h_7 op => exact decodedBy_decodeL (.inl rfl) op data
  case h_8 op => exact decodedBy_decodeL (.inr rfl) op data
  case h_28 => exact .unassigned (by simp only [AssignedOp, imp_false] at *; omega)
  all_goals next op => exact decodedBy_decodeZ rfl op data

/-! ### Decoding an encoding (R110 to R116) -/

/-- R114: the words decode as their first word does, provided that an operation of two words has its second. -/
theorem decode_cons_eq_ok_iff {w : Word} {rest : List Word} {i : Instr} :
    decode (w :: rest) = .ok i ↔ decodeWord w (rest.headD 0) = .ok i ∧ (i.words = 2 → rest ≠ []) := by
  rw [decode]
  cases decodeWord w (rest.headD 0) with
  | ok j =>
    rw [Except.ok.injEq]
    dsimp only
    split_ifs with short
    · exact ⟨nofun, fun ⟨same, data⟩ => absurd short.2 (data (same ▸ short.1))⟩
    · rw [Except.ok.injEq]
      exact ⟨fun same => ⟨same, fun two missing => short ⟨same ▸ two, missing⟩⟩, And.left⟩
  | error e => exact ⟨nofun, fun ⟨found, _⟩ => nomatch found⟩

theorem decode_encode_of_operandless {i : Instr} (plain : i.operandless = true) (rest : List Word) :
    decode (encode i ++ rest) = .ok i := by
  obtain ⟨enc, words, _⟩ := operandless_shape plain
  rw [enc]
  refine decode_cons_eq_ok_iff.mpr ⟨?_, by simp [words]⟩
  rw [decodeWord_of_operandless plain (opField_packWord _ _ _)]
  exact decodeZ_eq_ok (aField_packWord _ _ _) (immField_packWord _ _ _) i

theorem decode_encode_of_lengthOp {make : Nat → Instr} (isLen : LengthOp make) {len : Nat}
    (wf : (make len).wellFormed = true) (rest : List Word) : decode (encode (make len) ++ rest) = .ok (make len) := by
  obtain ⟨enc, words, fits⟩ := lengthOp_shape isLen len
  rw [enc]
  refine decode_cons_eq_ok_iff.mpr ⟨?_, by simp [words]⟩
  rw [decodeWord_of_lengthOp isLen (opField_packWord _ _ _), decodeL_eq_ok (aField_packWord _ _ _),
    immField_packWord, BitVec.toNat_ofNat, Nat.mod_eq_of_lt (fits.mp wf)]

theorem toNat_ofNat_of_regFits {reg : Nat} (fits : regFits reg = true) : (BitVec.ofNat 8 reg).toNat = reg := by
  rw [BitVec.toNat_ofNat, Nat.mod_eq_of_lt (of_decide_eq_true fits)]

theorem decode_encode_wrs {reg : Nat} (fits : regFits reg = true) (imm : BitVec 16) (rest : List Word) :
    decode (encode (.wrs reg imm) ++ rest) = .ok (.wrs reg imm) := by
  refine decode_cons_eq_ok_iff.mpr ⟨?_, by simp [Instr.words]⟩
  rw [decodeWord_wrs (opField_packWord _ _ _), aField_packWord, immField_packWord, toNat_ofNat_of_regFits fits]

theorem decode_encode_wrr {reg : Nat} (fits : regFits reg = true) (data : Word) (rest : List Word) :
    decode (encode (.wrr reg data) ++ rest) = .ok (.wrr reg data) := by
  refine decode_cons_eq_ok_iff.mpr ⟨?_, fun _ => List.cons_ne_nil data rest⟩
  rw [Machine.decodeWord_wrr (opField_packWord _ _ _) (immField_packWord _ _ _), aField_packWord,
    toNat_ofNat_of_regFits fits]
  rfl

/-- Settles O1: each format reads back the fields that the encoder packed. -/
theorem decodeOfEncode : Obligations.DecodeOfEncode := by
  intro i rest wf
  cases i with
  | wrr reg data => exact decode_encode_wrr wf data rest
  | wrs reg imm => exact decode_encode_wrs wf imm rest
  | blk len => exact decode_encode_of_lengthOp (.inl rfl) wf rest
  | load len => exact decode_encode_of_lengthOp (.inr rfl) wf rest
  | _ => exact decode_encode_of_operandless rfl rest

/-! ### Encoding a decoded operation (R115) -/

/-- An operation read from the words `w` and, where it has a data word, `data`: it is well formed and these are its
encoding. -/
theorem encode_of_decodeWord {w data : Word} {i : Instr} (ok : decodeWord w data = .ok i) :
    i.wellFormed = true ∧ encode i = [w, data].take i.words := by
  have row := decodeWord_decodedBy w data
  generalize decodeWord w data = answer at row ok
  subst ok
  cases row with
  | formatZ plain op a imm =>
    obtain ⟨enc, words, wf⟩ := operandless_shape plain
    rw [enc, words, eq_packWord (a := 0) op a imm]
    exact ⟨wf, rfl⟩
  | formatL isLen op a =>
    obtain ⟨enc, words, fits⟩ := lengthOp_shape isLen (immField w).toNat
    rw [enc, words, BitVec.ofNat_toNat, BitVec.setWidth_eq, eq_packWord (a := 0) op a rfl]
    exact ⟨fits.mpr (BitVec.isLt _), rfl⟩
  | formatW op imm =>
    have fits := regFits_aField w
    rw [encode, eq_packWord op (toNat_ofNat_of_regFits fits).symm imm]
    exact ⟨fits, rfl⟩
  | formatS op =>
    have fits := regFits_aField w
    rw [encode, eq_packWord op (toNat_ofNat_of_regFits fits).symm rfl]
    exact ⟨fits, rfl⟩

/-- Settles O2: `encode_of_decodeWord`, the data word of a WRR being the second of the words read. -/
theorem encodeOfDecode : Obligations.EncodeOfDecode := by
  intro ws i ok
  cases ws with
  | nil => cases ok
  | cons w rest =>
    obtain ⟨found, data⟩ := decode_cons_eq_ok_iff.mp ok
    obtain ⟨wf, enc⟩ := encode_of_decodeWord found
    refine ⟨wf, enc.trans ?_⟩
    rcases words_eq_one_or_two i with one | two
    · rw [one]; rfl
    · obtain ⟨d, rest, rfl⟩ := List.exists_cons_of_ne_nil (data two)
      rw [two]; rfl

/-- R110 to R116: decoding and encoding undo each other on the well-formed operations. -/
theorem decode_eq_ok_iff {ws : List Word} {i : Instr} :
    decode ws = .ok i ↔ i.wellFormed = true ∧ encode i = ws.take i.words := by
  refine ⟨encodeOfDecode ws i, fun ⟨wf, enc⟩ => ?_⟩
  have read := decodeOfEncode i (ws.drop i.words) wf
  rwa [enc, List.take_append_drop] at read

/-! ### Illegal words (R118) -/

/-- R118: an operation is decoded from no illegal word. -/
theorem legal_of_decodedBy_ok {w data : Word} {i : Instr} (row : DecodedBy w data (.ok i)) :
    AssignedOp (opField w) ∧ ¬ NonzeroField w := by
  unfold NonzeroField
  cases row with
  | formatZ plain op a imm => exact ⟨op ▸ (opcode_of_operandless plain).1, by simp [a, imm]⟩
  | formatL isLen op a =>
    have code := opcode_of_lengthOp isLen
    rw [← op] at code
    exact ⟨.inr (.inl (by omega)), by simp only [a]; omega⟩
  | formatW op imm => exact ⟨.inl (by omega), by simp [op, imm]⟩
  | formatS op => exact ⟨.inl (by omega), by simp [op]⟩

/-- R118: the refusals of a first word. -/
theorem decodeWord_error_iff (w data : Word) :
    (decodeWord w data = .error (.unassignedOpcode w) ↔ ¬ AssignedOp (opField w)) ∧
    (decodeWord w data = .error (.nonzeroField w) ↔ AssignedOp (opField w) ∧ NonzeroField w) := by
  have row := decodeWord_decodedBy w data
  generalize decodeWord w data = answer at row
  cases answer with
  | ok i => simp [legal_of_decodedBy_ok row]
  | error e =>
    cases row with
    | nonzeroField assigned nonzero => simp [assigned, nonzero]
    | unassigned op => simp [op]

/-- R281: the data word of a WRR is waited for only behind a legal first word. -/
theorem decode_cons_error_iff {w : Word} {rest : List Word} {e : Reject} (illegal : e ≠ .noData) :
    decode (w :: rest) = .error e ↔ decodeWord w (rest.headD 0) = .error e := by
  rw [decode]
  cases decodeWord w (rest.headD 0) with
  | ok i =>
    dsimp only
    split_ifs <;> simp [illegal.symm]
  | error e' => rfl

/-- Settles O3: `decodeWord_error_iff`, both refusals being of the first word. -/
theorem illegalWordsAreThoseOfTheTable : Obligations.IllegalWordsAreThoseOfTheTable := by
  intro w rest
  obtain ⟨unassigned, nonzero⟩ := decodeWord_error_iff w (rest.headD 0)
  exact ⟨(decode_cons_error_iff (by simp)).trans unassigned, (decode_cons_error_iff (by simp)).trans nonzero⟩

/-- Settles O4: each legal word is the encoding of the operation of its row (`decode_eq_ok_iff`), and the two illegal
words are illegal by O3: a must-be-zero field and an unassigned code. -/
theorem workedEncodingsDecode : Obligations.WorkedEncodingsDecode := by
  unfold Obligations.WorkedEncodingsDecode
  have nonzero : decode [0x2E000001] = .error (.nonzeroField 0x2E000001) :=
    (illegalWordsAreThoseOfTheTable _ []).2.mpr (by decide)
  have unassigned : decode [0x06000000] = .error (.unassignedOpcode 0x06000000) :=
    (illegalWordsAreThoseOfTheTable _ []).1.mpr (by decide)
  simp only [decode_eq_ok_iff, nonzero, unassigned, and_true]
  and_intros <;> rfl

end Sys2Proof
end

section
/-! PROOFS. The decimators and the channel low-pass of spec/40_decimator_lpf.md: each state they leave, the taps as sums,
and, with the DC blocker and the FM discriminator, that the cut of the stream into blocks does not show (R348). -/

namespace Sys2Proof.Machine

open Sys2Proof.Safety

/-! ### The half-band cascade (R142) -/

theorem passes_eq {s : State} {n : Nat} (h : s.cfg.downsamplePasses = n) : passes s = n := by
  rw [passes, h, Int.toNat_natCast]

/-- R63: the history of a stage is one sample shorter than its taps. -/
theorem hbTaps_length (P : Config.Params) (k : Nat) : (hbTaps P k).length = hbHistLen k + 1 := by
  unfold hbTaps hbHistLen
  split_ifs
  · exact P.hb31_length
  · exact P.hb15_length

/-- R142: one output of a stage as its sum over the taps, on a component `c` of the extended sequence. -/
theorem hbOutput_eq_sum (h : List Int) (xe : List Cplx) (c : Cplx → Int) (c0 : c (0, 0) = 0) (m : Nat) :
    hbOutput h (xe.map c) m =
      sat16 (rsh (∑ j ∈ Finset.range h.length, h.getD j 0 * c (xe.getD (h.length - 1 + 2 * m - j) (0, 0))) 15) := by
  have component (i : Nat) : (xe.map c).getD i 0 = c (xe.getD i (0, 0)) := by
    have at_default : (xe.map c).getD i (c (0, 0)) = c (xe.getD i (0, 0)) := List.getD_map _ _ _
    rwa [c0] at at_default
  simp only [hbOutput, dot_reverse_drop, component]

/-- The sequence stage `k` of a cascade reads: its history, then the outputs of the stages before it. -/
def hbExtended (P : Config.Params) (hists : List (List Cplx)) (x : List Cplx) (k : Nat) : List Cplx :=
  hists.getD k [] ++ (hbCascade P k hists x).2

section Cascade
variable (P : Config.Params) {hists : List (List Cplx)} (x : List Cplx)

/-- R142: the stages before `k` leave the history of stage `k` alone. -/
theorem hbCascade_history_of_le {n k : Nat} (h : n ≤ k) : (hbCascade P n hists x).1.getD k [] = hists.getD k [] := by
  induction n with
  | zero => rfl
  | succ n ih =>
    rw [hbCascade_succ, hbCascadeStage, List.getD_eq_getElem?_getD, List.getElem?_set_ne (by omega),
      ← List.getD_eq_getElem?_getD, ih (by omega)]

/-- R142: stage `k` stores the end of the sequence it reads and filters that sequence. -/
theorem hbCascade_succ_eq (k : Nat) :
    hbCascade P (k + 1) hists x =
      ((hbCascade P k hists x).1.set k (lastN (hbHistLen k) (hbExtended P hists x k)),
        (hbStage (hbTaps P k) (hbHistLen k) (hists.getD k []) (hbCascade P k hists x).2).2) := by
  rw [hbCascade_succ, hbCascadeStage, hbCascade_history_of_le P x le_rfl]
  rfl

theorem hbCascade_history_length (n : Nat) : (hbCascade P n hists x).1.length = hists.length := by
  induction n with
  | zero => rfl
  | succ n ih => rw [hbCascade_succ_eq, List.length_set, ih]

/-- R142: after the cascade the history of a stage that ran is the end of the sequence it read. -/
theorem hbCascade_history_of_lt {n k : Nat} (h : k < n) (hn : n ≤ hists.length) :
    (hbCascade P n hists x).1.getD k [] = lastN (hbHistLen k) (hbExtended P hists x k) := by
  induction n with
  | zero => omega
  | succ n ih =>
    rw [hbCascade_succ_eq, List.getD_eq_getElem?_getD]
    rcases Nat.lt_succ_iff_lt_or_eq.1 h with lt | rfl
    · rw [List.getElem?_set_ne (by omega), ← List.getD_eq_getElem?_getD, ih lt (by omega)]
    · rw [List.getElem?_set_self (by rw [hbCascade_history_length]; omega), Option.getD_some]

/-- R142: output `m` of stage `k`. -/
theorem hbCascade_output {k m : Nat} (h : m < (hbCascade P k hists x).2.length / 2) :
    (hbCascade P (k + 1) hists x).2.getD m (0, 0) =
      (hbOutput (hbTaps P k) ((hbExtended P hists x k).map Prod.fst) m,
        hbOutput (hbTaps P k) ((hbExtended P hists x k).map Prod.snd) m) := by
  rw [hbCascade_succ_eq]
  exact range_map_getD _ _ h

end Cascade

/-- Settles O22: the sequences are those the first k stages of the cascade give, the histories those the whole cascade
leaves. -/
theorem decimhbIsFilterCascade : Obligations.DecimhbIsFilterCascade := by
  intro s n hn bound
  have hp := passes_eq hn
  rw [exec_decimhb, decimhb, hp]
  refine ⟨fun zero => by rw [if_pos zero]; rfl, fun pos short => by rw [if_neg pos, if_pos short]; rfl,
    fun pos long => ?_⟩
  refine ⟨fun k => (hbCascade Config.params k s.hbHist (pairs s.buf)).2,
    (hbCascade Config.params n s.hbHist (pairs s.buf)).1, pairs_eq_map _, hbCascade_history_length _ _ _,
    fun k hk => hbCascade_history_of_le _ _ hk, fun k hk => ?_, by rw [if_neg pos, if_neg long]; rfl⟩
  have len : (hbTaps Config.params k).length - 1 = hbHistLen k := by rw [hbTaps_length]; rfl
  refine ⟨?_, ?_, fun m hm => ?_⟩
  · rw [hbCascade_history_of_lt _ _ hk bound, ← len]
    rfl
  · dsimp only
    rw [hbCascade_succ_eq, (hbStage_outputs _ _ _ _).1]
  · rw [hbCascade_output _ _ hm, hbOutput_eq_sum _ _ _ rfl, hbOutput_eq_sum _ _ _ rfl]
    rfl

/-! ### The legacy decimator (R144) -/

/-- Settles O23: the three branches of DECIMLEG, with the contract of the uninterpreted function. -/
theorem decimlegAppliesLegacyFunction : Obligations.DecimlegAppliesLegacyFunction := by
  intro s n hn
  rw [exec_decimleg, decimleg, passes_eq hn]
  exact ⟨fun zero => by rw [if_pos zero]; rfl, fun pos short => by rw [if_neg pos, if_pos short]; rfl,
    fun pos long => ⟨Config.params.legacyDecim_length _ _ _, Config.params.legacyDecim_int16 _ _ _,
      by rw [if_neg pos, if_neg long]; rfl⟩⟩

/-! ### The length law (R141) -/

/-- R141: the branch that leaves an empty block, and the one that leaves the block alone, obey the length law too. -/
theorem decimhb_length (P : Config.Params) {s : State} (even : s.buf.length % 2 = 0) :
    (decimhb P s).buf.length = 2 * (s.buf.length / 2 / 2 ^ passes s) := by
  unfold decimhb
  split_ifs with zero short
  · rw [zero, pow_zero, Nat.div_one]; omega
  · rw [short]; rfl
  · simp only [interleave_length, hbCascade_length, pairs_length]

theorem decimleg_length (P : Config.Params) {s : State} (even : s.buf.length % 2 = 0) :
    (decimleg P s).buf.length = 2 * (s.buf.length / 2 / 2 ^ passes s) := by
  unfold decimleg
  split_ifs with zero short
  · rw [zero, pow_zero, Nat.div_one]; omega
  · rw [short]; rfl
  · exact P.legacyDecim_length _ _ _

/-- R147 (a): no element is lost to rounding when the length is a multiple of 2^(n+1). -/
theorem two_mul_div_of_dvd {l n : Nat} (h : 2 ^ (n + 1) ∣ l) : 2 * (l / 2 / 2 ^ n) = l / 2 ^ n := by
  rw [Nat.div_div_eq_div_mul, ← pow_succ', ← Nat.mul_div_assoc 2 h, pow_succ', Nat.mul_div_mul_left _ _ two_pos]

/-- Settles O24: the length law of each decimator (`decimhb_length`, `decimleg_length`). -/
theorem decimatorsDivideLength : Obligations.DecimatorsDivideLength := by
  intro s n hn even
  have hb := decimhb_length Config.params even
  have leg := decimleg_length Config.params even
  rw [passes_eq hn] at hb leg
  exact ⟨⟨_, exec_decimhb s, hb, fun h => hb.trans (two_mul_div_of_dvd h)⟩,
    ⟨_, exec_decimleg s, leg, fun h => leg.trans (two_mul_div_of_dvd h)⟩⟩

/-! ### The channel low-pass (R145, R146) -/

/-- R145: both profiles have 63 taps. -/
@[simp] theorem chlpfTaps_length (P : Config.Params) (c : CfgRegs) : (chlpfTaps P c).length = 63 := by
  unfold chlpfTaps
  split_ifs
  · exact P.chlpfWide_length
  · exact P.chlpfDigital_length

/-- R145: both profiles have unit gain at DC. -/
theorem chlpfTaps_sum (P : Config.Params) (c : CfgRegs) : (chlpfTaps P c).sum = 32768 := by
  unfold chlpfTaps
  split_ifs
  · exact P.chlpfWide_sum
  · exact P.chlpfDigital_sum

@[simp] theorem chlpfOutputs_length (h xe : List Int) (m : Nat) : (chlpfOutputs h xe m).length = m := by
  simp [chlpfOutputs]

/-- R146: one output of the 63-tap filter as its sum over the taps. -/
theorem chlpfOutputs_getD {h : List Int} (taps : h.length = 63) (xe : List Int) {m n : Nat} (hn : n < m) :
    (chlpfOutputs h xe m).getD n 0 =
      sat16 (rsh (∑ k ∈ Finset.range 63, h.getD k 0 * xe.getD (62 + n - k) 0) 15) := by
  rw [chlpfOutputs, range_map_getD _ _ hn, dot_reverse_drop, taps]

/-- The filtered samples of a block: both components, each over its history. -/
def chlpfSamples (P : Config.Params) (s : State) : List Cplx :=
  (chlpfOutputs (chlpfTaps P s.cfg) (s.chlpfHistR ++ (pairs s.buf).map Prod.fst) (s.buf.length / 2)).zip
    (chlpfOutputs (chlpfTaps P s.cfg) (s.chlpfHistJ ++ (pairs s.buf).map Prod.snd) (s.buf.length / 2))

@[simp] theorem chlpfSamples_length (P : Config.Params) (s : State) : (chlpfSamples P s).length = s.buf.length / 2 := by
  simp [chlpfSamples]

theorem chlpfSamples_getD (P : Config.Params) (s : State) {n : Nat} (hn : n < s.buf.length / 2) :
    (chlpfSamples P s).getD n (0, 0) =
      ((chlpfOutputs (chlpfTaps P s.cfg) (s.chlpfHistR ++ (pairs s.buf).map Prod.fst) (s.buf.length / 2)).getD n 0,
        (chlpfOutputs (chlpfTaps P s.cfg) (s.chlpfHistJ ++ (pairs s.buf).map Prod.snd) (s.buf.length / 2)).getD n 0) :=
  zip_getD (by simpa using hn) (by simpa using hn)

/-- R146: an empty block changes nothing. -/
theorem chlpf_of_empty (P : Config.Params) {s : State} (h : s.buf.length / 2 = 0) : chlpf P s = s := by
  rw [chlpf, pairs_length, if_pos h]

/-- R146: the state CHLPF leaves. -/
theorem chlpf_of_nonempty (P : Config.Params) {s : State} (h : s.buf.length / 2 ≠ 0) :
    chlpf P s = { s with
      buf := putPairs s.buf (chlpfSamples P s)
      chlpfHistR := lastN 62 (s.chlpfHistR ++ (pairs s.buf).map Prod.fst)
      chlpfHistJ := lastN 62 (s.chlpfHistJ ++ (pairs s.buf).map Prod.snd) } := by
  rw [chlpf, pairs_length, if_neg h]
  rfl

/-- Settles O25: `chlpf_of_nonempty`, with the samples read back (`putPairs_elem`) and the taps as sums. -/
theorem chlpfIsStreamingFilter : Obligations.ChlpfIsStreamingFilter := by
  intro s
  dsimp only
  rw [exec_chlpf, ← pairs_map_fst, ← pairs_map_snd]
  refine ⟨fun empty => by rw [chlpf_of_empty _ empty]; rfl, fun full =>
    ⟨_, putPairs_sameShape s.buf (chlpfSamples Config.params s) (by simp), fun n hn => ?_,
      by rw [chlpf_of_nonempty _ full]; rfl⟩⟩
  obtain ⟨elemI_eq, elemQ_eq⟩ := putPairs_elem s.buf (chlpfSamples Config.params s) (n := n) (by simpa using hn)
  rw [elemI_eq, elemQ_eq, chlpfSamples_getD _ _ hn, chlpfOutputs_getD (by simp) _ hn, chlpfOutputs_getD (by simp) _ hn]
  exact ⟨rfl, rfl⟩

/-! ### A constant input (R146) -/

/-- A constant sequence comes out of an inner product as the sum of the coefficients times the constant. -/
theorem dot_replicate (v : Int) : ∀ (h : List Int) (n : Nat), h.length ≤ n → dot h (List.replicate n v) = h.sum * v
  | [], _, _ => by simp [dot]
  | _ :: _, 0, short => by simp at short
  | a :: h, n + 1, long => by
    rw [List.replicate_succ, dot, dot_replicate v h n (by simpa using long), List.sum_cons, add_mul]

/-- R146: 63 taps of unit gain pass a constant held through the history and the input. -/
theorem chlpfOutputs_replicate {h : List Int} (taps : h.length = 63) (gain : h.sum = 32768) {v : Int} (hv : IsInt16 v)
    (m : Nat) : chlpfOutputs h (List.replicate (62 + m) v) m = List.replicate m v := by
  refine List.eq_replicate_iff.2 ⟨chlpfOutputs_length _ _ _, fun b hb => ?_⟩
  obtain ⟨n, hn, rfl⟩ := List.mem_map.1 hb
  have below := List.mem_range.1 hn
  have exact : h.sum * v = v * 2 ^ 15 := by rw [gain, mul_comm]; norm_num
  rw [List.drop_replicate, dot_replicate _ _ _ (by rw [List.length_reverse]; omega), List.sum_reverse, exact,
    rsh_mul_two_pow, sat16_of_isInt16 hv]

/-- A block whose samples are all the same. -/
theorem pairs_eq_replicate {b : List Int} {z : Cplx} (h : ∀ n, n < b.length / 2 → elemI b n = z.1 ∧ elemQ b n = z.2) :
    pairs b = List.replicate (b.length / 2) z := by
  rw [pairs_eq_map]
  refine List.eq_replicate_iff.2 ⟨by simp, fun y hy => ?_⟩
  obtain ⟨n, hn, rfl⟩ := List.mem_map.1 hy
  obtain ⟨i, q⟩ := h n (List.mem_range.1 hn)
  rw [i, q]

/-- R146: a constant held through the history and the block leaves the state as it is. -/
theorem chlpf_of_constant (P : Config.Params) {s : State} {z : Cplx} (hz : IsInt16Pair z)
    (histR : s.chlpfHistR = List.replicate 62 z.1) (histJ : s.chlpfHistJ = List.replicate 62 z.2)
    (block : pairs s.buf = List.replicate (s.buf.length / 2) z) : chlpf P s = s := by
  by_cases empty : s.buf.length / 2 = 0
  · exact chlpf_of_empty P empty
  · have samples : chlpfSamples P s = pairs s.buf := by
      rw [chlpfSamples, histR, histJ, block, List.map_replicate, List.map_replicate, List.replicate_append_replicate,
        List.replicate_append_replicate, chlpfOutputs_replicate (chlpfTaps_length P _) (chlpfTaps_sum P _) hz.1,
        chlpfOutputs_replicate (chlpfTaps_length P _) (chlpfTaps_sum P _) hz.2, List.zip_replicate']
    have history (v : Int) (m : Nat) : lastN 62 (List.replicate 62 v ++ List.replicate m v) = List.replicate 62 v := by
      rw [List.replicate_append_replicate, lastN, List.drop_replicate, List.length_replicate]
      congr 1; omega
    rw [chlpf_of_nonempty P empty, samples, putPairs_pairs, histR, histJ, block, List.map_replicate, List.map_replicate,
      history, history, ← histR, ← histJ]

/-- Settles O26: `chlpf_of_constant`. -/
theorem chlpfPassesConstant : Obligations.ChlpfPassesConstant := by
  intro s vr vj hr hj histR histJ block
  rw [exec_chlpf, chlpf_of_constant _ (z := (vr, vj)) ⟨hr, hj⟩ histR histJ (pairs_eq_replicate block)]
  rfl

/-! ### Block cuts (R348) -/

/-- R348: the stage `f`, run on the block `x` and then on the block `y`, leaves the state of one run on their concatenation
but for BUF, which then holds the two outputs one after the other. -/
def BufIgnoresCut (f : State → State) (s : State) (x y : List Int) : Prop :=
  let u := f { s with buf := x }
  let v := f { u with buf := y }
  f { s with buf := x ++ y } = { v with buf := u.buf ++ v.buf }

/-- R161: on blocks of whole samples DCBLK writes all of BUF. -/
theorem dcblk_of_even {s : State} (even : s.buf.length % 2 = 0) :
    let r := scan (dcStep s.cfg.dcBlockShift.toNat) (s.cond.dcR, s.cond.dcJ) (pairs s.buf)
    dcblk s = { s with buf := interleave r.2, cond := { s.cond with dcR := r.1.1, dcJ := r.1.2 } } := by
  dsimp only
  rw [dcblk, putPairs_of_even _ _ (by simp) even]

/-- R161, R348: the DC blocker is a walk over the samples, which `scan_append` cuts. -/
theorem dcblk_ignoresCut (s : State) {x y : List Int} (hx : x.length % 2 = 0) (hy : y.length % 2 = 0) :
    BufIgnoresCut dcblk s x y := by
  have hxy : (x ++ y).length % 2 = 0 := by rw [List.length_append]; omega
  unfold BufIgnoresCut
  rw [dcblk_of_even (s := { s with buf := x }) hx, dcblk_of_even (s := { s with buf := x ++ y }) hxy]
  dsimp only
  rw [dcblk_of_even hy, pairs_append x y hx, scan_append, interleave_append]

/-- An inner product reads no further than its coefficients. -/
theorem dot_append : ∀ (h xs ys : List Int), h.length ≤ xs.length → dot h (xs ++ ys) = dot h xs
  | [], _, _, _ => by simp [dot]
  | _ :: _, [], _, short => by simp at short
  | a :: h, b :: xs, ys, long => by
    rw [List.cons_append, dot, dot, dot_append h xs ys (by simpa using long)]

/-- The history after a second block is the end of everything read. -/
theorem lastN_append_lastN {α : Type} (n : Nat) (xs ys : List α) : lastN n (lastN n xs ++ ys) = lastN n (xs ++ ys) := by
  simp only [lastN, ← List.drop_append_of_le_length (Nat.sub_le xs.length n), List.drop_drop, List.length_drop,
    List.length_append]
  congr 1
  omega

/-- R146: the 63-tap filter over two blocks one after the other. -/
theorem chlpfOutputs_append {h hist : List Int} (taps : h.length = 63) (len : hist.length = 62) (x y : List Int) :
    chlpfOutputs h (hist ++ (x ++ y)) (x.length + y.length) =
      chlpfOutputs h (hist ++ x) x.length ++ chlpfOutputs h (lastN 62 (hist ++ x) ++ y) y.length := by
  have history : lastN 62 (hist ++ x) = (hist ++ x).drop x.length := by
    rw [lastN, List.length_append, len, Nat.add_sub_cancel_left]
  rw [chlpfOutputs, List.range_add, List.map_append, List.map_map, ← List.append_assoc]
  congr 1
  · refine List.map_congr_left fun n hn => ?_
    have below := List.mem_range.1 hn
    rw [List.drop_append_of_le_length (by simp; omega), dot_append _ _ _ (by simp; omega)]
  · refine List.map_congr_left fun n _ => ?_
    rw [Function.comp_apply, history, ← List.drop_append_of_le_length (by simp), List.drop_drop]

/-- R146: the filtered samples of a cut block, the second part over the history the first part leaves. -/
theorem chlpfSamples_append (P : Config.Params) (s : State) {x y : List Int} (hx : x.length % 2 = 0)
    (lenR : s.chlpfHistR.length = 62) (lenJ : s.chlpfHistJ.length = 62) :
    chlpfSamples P { s with buf := x ++ y } =
      chlpfSamples P { s with buf := x } ++
        chlpfSamples P { s with
          buf := y
          chlpfHistR := lastN 62 (s.chlpfHistR ++ (pairs x).map Prod.fst)
          chlpfHistJ := lastN 62 (s.chlpfHistJ ++ (pairs x).map Prod.snd) } := by
  have cut (c : Cplx → Int) {hist : List Int} (len : hist.length = 62) :=
    chlpfOutputs_append (chlpfTaps_length P s.cfg) len ((pairs x).map c) ((pairs y).map c)
  simp only [List.length_map, pairs_length] at cut
  have count : (x ++ y).length / 2 = x.length / 2 + y.length / 2 := by rw [List.length_append]; omega
  simp only [chlpfSamples, pairs_append x y hx, List.map_append, count, cut _ lenR, cut _ lenJ]
  rw [List.zip_append (by simp)]

/-- R146: on blocks of whole samples CHLPF writes all of BUF, and the empty block is no exception. -/
theorem chlpf_of_even (P : Config.Params) {s : State} (even : s.buf.length % 2 = 0) (lenR : s.chlpfHistR.length = 62)
    (lenJ : s.chlpfHistJ.length = 62) :
    chlpf P s = { s with
      buf := interleave (chlpfSamples P s)
      chlpfHistR := lastN 62 (s.chlpfHistR ++ (pairs s.buf).map Prod.fst)
      chlpfHistJ := lastN 62 (s.chlpfHistJ ++ (pairs s.buf).map Prod.snd) } := by
  by_cases empty : s.buf.length / 2 = 0
  · have noSamples : pairs s.buf = [] := List.length_eq_zero_iff.1 ((pairs_length _).trans empty)
    have samples : chlpfSamples P s = pairs s.buf := by
      rw [List.length_eq_zero_iff.1 ((chlpfSamples_length P s).trans empty), noSamples]
    have history (c : Cplx → Int) {hist : List Int} (len : hist.length = 62) :
        lastN 62 (hist ++ (pairs s.buf).map c) = hist := by
      rw [noSamples, List.map_nil, List.append_nil, lastN, len, Nat.sub_self, List.drop_zero]
    rw [chlpf_of_empty P empty, samples, interleave_pairs _ even, history _ lenR, history _ lenJ]
  · rw [chlpf_of_nonempty P empty, putPairs_of_even _ _ (chlpfSamples_length P s) even]

/-- R146, R348: the channel low-pass sees of earlier blocks the last 62 samples, which its histories hold. -/
theorem chlpf_ignoresCut (P : Config.Params) (s : State) {x y : List Int} (hx : x.length % 2 = 0)
    (hy : y.length % 2 = 0) (lenR : s.chlpfHistR.length = 62) (lenJ : s.chlpfHistJ.length = 62) :
    BufIgnoresCut (chlpf P) s x y := by
  have hxy : (x ++ y).length % 2 = 0 := by rw [List.length_append]; omega
  have kept {hist : List Int} (len : hist.length = 62) (xs : List Int) : (lastN 62 (hist ++ xs)).length = 62 :=
    lastN_length _ _ (by rw [List.length_append]; omega)
  unfold BufIgnoresCut
  rw [chlpf_of_even P (s := { s with buf := x }) hx lenR lenJ,
    chlpf_of_even P (s := { s with buf := x ++ y }) hxy lenR lenJ]
  dsimp only
  rw [chlpf_of_even P hy (kept lenR _) (kept lenJ _), chlpfSamples_append P s hx lenR lenJ]
  simp only [interleave_append, pairs_append x y hx, List.map_append, lastN_append_lastN, List.append_assoc]

/-- R348: what a stage that does not read CP and ignores the cut leaves after the two commands and after the one. -/
theorem exec_ignoresCut {i : Instr} {f : State → State} {s u v w : State} {x y : List Int}
    (run : ∀ t, exec i t = .next (advance 1 (f t))) (noCp : ∀ k t, f (withCp k t) = withCp k (f t))
    (cut : BufIgnoresCut f s x y) (hu : exec i { s with buf := x } = .next u)
    (hv : exec i { u with buf := y } = .next v) (hw : exec i { s with buf := x ++ y } = .next w) :
    w.buf = u.buf ++ v.buf ∧ w.cond = v.cond ∧ w.chlpfHistR = v.chlpfHistR ∧ w.chlpfHistJ = v.chlpfHistJ := by
  rw [run] at hu hv hw
  cases hu; cases hv; cases hw
  have second : f { advance 1 (f { s with buf := x }) with buf := y } =
      withCp ((f { s with buf := x }).cp + 1) (f { f { s with buf := x } with buf := y }) :=
    noCp _ { f { s with buf := x } with buf := y }
  rw [second, show f { s with buf := x ++ y } = _ from cut]
  exact ⟨rfl, rfl, rfl, rfl⟩

/-- R267, R348: the FM discriminator is a walk over the samples, which `scan_append` cuts. -/
theorem discfm_ignoresCut (P : Config.Params) (s : State) {x : List Int} (hx : x.length % 2 = 0) (y : List Int) :
    let u := discfm P { s with buf := x }
    let v := discfm P { advance 1 u with buf := y }
    (discfm P { s with buf := x ++ y }).out = u.out ++ v.out ∧ (discfm P { s with buf := x ++ y }).cond = v.cond := by
  simp only [discfm, discriminate, advance, pairs_append x y hx, scan_append, and_self]

/-- Settles O51: `dcblk_ignoresCut`, `chlpf_ignoresCut` and `discfm_ignoresCut`. -/
theorem streamingStagesIgnoreBlockCuts : Obligations.StreamingStagesIgnoreBlockCuts := by
  intro s u v w x y hx hy lenR lenJ
  refine ⟨fun i hi hu hv hw => ?_, fun hu hv hw => ?_⟩
  · rcases hi with rfl | rfl
    · exact exec_ignoresCut exec_dcblk dcblk_withCp (dcblk_ignoresCut s hx hy) hu hv hw
    · exact exec_ignoresCut exec_chlpf (chlpf_withCp _) (chlpf_ignoresCut _ s hx hy lenR lenJ) hu hv hw
  · rw [exec_discfm] at hu hv hw
    cases hu; cases hv; cases hw
    exact discfm_ignoresCut _ s hx y

end Sys2Proof.Machine
end

section
/-! PROOFS. The baseband conditioner of spec/41_conditioner.md: for each stage the state it leaves and one sample of its
block, then the statement about it. -/

namespace Sys2Proof.Machine

open Sys2Proof.Safety

/-- R13: the samples of a buffer after each was replaced by its image under `f`. -/
theorem putPairs_map_elem (f : Cplx → Cplx) (b : List Int) {n : Nat} (h : n < b.length / 2) :
    elemI (putPairs b ((pairs b).map f)) n = (f (elemI b n, elemQ b n)).1 ∧
      elemQ (putPairs b ((pairs b).map f)) n = (f (elemI b n, elemQ b n)).2 := by
  have image : ((pairs b).map f).getD n (0, 0) = f (elemI b n, elemQ b n) := by
    rw [pairs_eq_map, List.map_map]
    exact range_map_getD _ _ h
  have elems := putPairs_elem b ((pairs b).map f) (n := n) (by simpa using h)
  rwa [image] at elems

/-- R13: the power of a buffer as a sum over the numbers of its samples. -/
theorem powerSum_pairs (b : List Int) :
    powerSum (pairs b) = ∑ n ∈ Finset.range (b.length / 2), (elemI b n ^ 2 + elemQ b n ^ 2) :=
  pairs_map_sum _ b

/-- R11: the root of a power is the one natural whose square bounds it. -/
theorem isqrt_toNat_eq_iff {p : Int} (hp : 0 ≤ p) (m : Nat) :
    isqrt p.toNat = m ↔ (m : Int) ^ 2 ≤ p ∧ p < ((m : Int) + 1) ^ 2 := by
  have root : isqrt p.toNat = Nat.sqrt p.toNat := Nat.eq_sqrt.2 (isqrt_spec _)
  obtain ⟨k, rfl⟩ := Int.eq_ofNat_of_zero_le hp
  rw [root, eq_comm, Nat.eq_sqrt, Int.toNat_natCast, ← sq, ← sq]
  norm_cast

/-! ### The DC blocker (R161) -/

/-- The estimates of I and Q before sample `n` of a block. -/
def dcEstimate (s : State) (n : Nat) : Cplx :=
  scanState (dcStep s.cfg.dcBlockShift.toNat) (s.cond.dcR, s.cond.dcJ) (pairs s.buf) n

/-- The output samples of DCBLK. -/
def dcOutputs (s : State) : List Cplx :=
  (scan (dcStep s.cfg.dcBlockShift.toNat) (s.cond.dcR, s.cond.dcJ) (pairs s.buf)).2

@[simp] theorem dcOutputs_length (s : State) : (dcOutputs s).length = s.buf.length / 2 := by
  rw [dcOutputs, scan_length, pairs_length]

/-- R161: the state DCBLK leaves. -/
theorem dcblk_eq (s : State) :
    dcblk s = { s with
      buf := putPairs s.buf (dcOutputs s)
      cond := { s.cond with
        dcR := (dcEstimate s (s.buf.length / 2)).1
        dcJ := (dcEstimate s (s.buf.length / 2)).2 } } := by
  rw [dcEstimate, ← pairs_length s.buf, scanState_length]
  rfl

/-- R161: one sample of DCBLK, the estimates after it and the output it gives. -/
theorem dcEstimate_succ (s : State) {n : Nat} (h : n < s.buf.length / 2) :
    let step := dcStep s.cfg.dcBlockShift.toNat (dcEstimate s n) (elemI s.buf n, elemQ s.buf n)
    dcEstimate s (n + 1) = step.1 ∧ (dcOutputs s).getD n (0, 0) = step.2 := by
  rw [← pairs_getD _ _ h]
  exact scanState_succ _ _ _ _ _ (by rwa [pairs_length])

/-- Settles O27: the estimates are the states of the walk over the samples, and one sample of it is `dcEstimate_succ`. -/
theorem dcblkSubtractsRunningEstimate : Obligations.DcblkSubtractsRunningEstimate := by
  intro s
  refine ⟨fun n => (dcEstimate s n).1, fun n => (dcEstimate s n).2, putPairs s.buf (dcOutputs s), rfl, rfl,
    fun n hn => ?_, putPairs_sameShape _ _ (dcOutputs_length s), fun n hn => ?_, by rw [exec_dcblk, dcblk_eq]; rfl⟩
  · dsimp only
    rw [(dcEstimate_succ s hn).1]
    exact ⟨rfl, rfl⟩
  · obtain ⟨next, output⟩ := dcEstimate_succ s hn
    obtain ⟨i, q⟩ := putPairs_elem s.buf (dcOutputs s) (n := n) (by rwa [dcOutputs_length])
    dsimp only
    rw [i, q, output, next]
    exact ⟨rfl, rfl⟩

/-! ### The gain control (R163) -/

/-- R163, R164 (a): the RMS of a block is the root of the floor of its mean power. -/
theorem blockRms_pairs_bounds (b : List Int) :
    let mean := (∑ n ∈ Finset.range (b.length / 2), (elemI b n ^ 2 + elemQ b n ^ 2)) / ((b.length / 2 : Nat) : Int)
    (blockRms (pairs b) : Int) ^ 2 ≤ mean ∧ mean < ((blockRms (pairs b) : Int) + 1) ^ 2 := by
  dsimp only
  rw [← powerSum_pairs, ← pairs_length b]
  exact (isqrt_toNat_eq_iff (Int.ediv_nonneg (powerSum_nonneg _) (Int.natCast_nonneg _)) _).1 rfl

/-- R163: an empty block changes nothing. -/
theorem agc_of_empty {s : State} (h : s.buf.length / 2 = 0) : agc s = s := by
  rw [agc, pairs_length, if_pos h]

/-- R163: the state AGC leaves. -/
theorem agc_of_nonempty {s : State} (h : s.buf.length / 2 ≠ 0) :
    let g := agcGain s.cfg (blockRms (pairs s.buf)) s.cond.gainQ15
    agc s = { s with buf := s.buf.map fun v => sat16 (rsh (v * g) 15), cond := { s.cond with gainQ15 := g } } := by
  rw [agc, pairs_length, if_neg h]

/-- Settles O28: the RMS is that of the model (`blockRms_pairs_bounds`), and the gain is `agcGain` of it. -/
theorem agcScalesByUpdatedGain : Obligations.AgcScalesByUpdatedGain := by
  intro s
  refine ⟨fun empty => by rw [exec_agc, agc_of_empty empty]; rfl, fun full => ?_⟩
  obtain ⟨low, high⟩ := blockRms_pairs_bounds s.buf
  exact ⟨blockRms (pairs s.buf), low, high, by rw [exec_agc, agc_of_nonempty full]; rfl⟩

/-! ### The limiter (R166) -/

/-- R166: a sample within the tolerance, both bounds included, is left as it is. -/
theorem limitSample_of_within {t i q : Int} (low : t * t ≤ 4 * (i * i + q * q))
    (high : i * i + q * q ≤ 4 * t * t) : limitSample t (i, q) = (i, q) := by
  rw [mul_assoc 4 t t] at high
  exact if_neg fun ⟨outside, _⟩ => outside.elim (not_lt.2 low) (not_lt.2 high)

/-- R166: a zero sample has no magnitude to rescale by. -/
theorem limitSample_zero (t : Int) : limitSample t (0, 0) = (0, 0) :=
  if_neg fun outside => absurd outside.2 (by decide)

/-- R166: a sample outside the tolerance is rescaled by the target over the root `m` of its power. -/
theorem limitSample_of_outside {t i q : Int}
    (outside : 4 * (i * i + q * q) < t * t ∨ 4 * t * t < i * i + q * q) (power : i * i + q * q ≠ 0) {m : Nat}
    (low : (m : Int) ^ 2 ≤ i * i + q * q) (high : i * i + q * q < ((m : Int) + 1) ^ 2) :
    limitSample t (i, q) = (sat16 (rnd ((i : Rat) * t / m)), sat16 (rnd ((q : Rat) * t / m))) := by
  have nonneg : 0 ≤ i * i + q * q := add_nonneg (mul_self_nonneg _) (mul_self_nonneg _)
  have root : isqrt (i * i + q * q).toNat = m := (isqrt_toNat_eq_iff nonneg m).2 ⟨low, high⟩
  have pos : 0 < m := Nat.pos_of_ne_zero fun zero => by
    have below_one : i * i + q * q < 1 := by simpa [zero] using high
    omega
  rw [mul_assoc 4 t t] at outside
  simp only [limitSample, root, if_pos (And.intro outside pos), Int.cast_mul]

/-- Settles O29: LIMIT maps `limitSample` over the block, and its three cases are the three clauses. -/
theorem limitRescalesOutsideTolerance : Obligations.LimitRescalesOutsideTolerance := by
  intro s
  refine ⟨putPairs s.buf ((pairs s.buf).map (limitSample s.cfg.agcTargetRms)), putPairs_sameShape _ _ (by simp),
    fun n hn => ?_, exec_limit s⟩
  obtain ⟨i, q⟩ := putPairs_map_elem (limitSample s.cfg.agcTargetRms) s.buf hn
  dsimp only
  rw [i, q]
  refine ⟨fun low high => ?_, fun zero => ?_, fun outside power m low high => ?_⟩
  · rw [limitSample_of_within low high]
    exact ⟨rfl, rfl⟩
  · obtain ⟨i0, q0⟩ := mul_self_add_mul_self_eq_zero.1 zero
    rw [i0, q0, limitSample_zero]
    exact ⟨rfl, rfl⟩
  · rw [limitSample_of_outside outside power low high]
    exact ⟨rfl, rfl⟩

/-! ### The imbalance corrector (R168) -/

/-- R13, R168: the sum of z² of a buffer as sums over the numbers of its samples. -/
theorem squareSum_pairs (b : List Int) :
    squareSum (pairs b) =
      (∑ n ∈ Finset.range (b.length / 2), (elemI b n ^ 2 - elemQ b n ^ 2),
        ∑ n ∈ Finset.range (b.length / 2), 2 * elemI b n * elemQ b n) := by
  rw [squareSum, pairs_map_sum, pairs_map_sum]

/-- R168: the two components of the coefficient move separately, and only on a block with power. -/
theorem iqUpdate_eq (ema : Int) (zs : List Cplx) (c : Cplx) :
    iqUpdate ema zs c =
      (if 0 < powerSum zs then c.1 + rsh (ema * (iqEstimate (squareSum zs).1 (powerSum zs) - c.1)) 15 else c.1,
        if 0 < powerSum zs then c.2 + rsh (ema * (iqEstimate (squareSum zs).2 (powerSum zs) - c.2)) 15 else c.2) := by
  unfold iqUpdate
  dsimp only
  split_ifs <;> rfl

/-- The buffer IQBAL leaves with the coefficient `a` and the threshold `thr`. -/
def iqBuffer (thr : Int) (a : Cplx) (b : List Int) : List Int :=
  if thr ^ 2 ≤ a.1 ^ 2 + a.2 ^ 2 then putPairs b ((pairs b).map (iqCorrect a)) else b

theorem iqBuffer_sameShape (thr : Int) (a : Cplx) (b : List Int) : SameShape b (iqBuffer thr a b) := by
  unfold iqBuffer
  split_ifs
  · exact putPairs_sameShape _ _ (by simp)
  · exact ⟨rfl, fun _ _ => rfl⟩

/-- R168: below the threshold the block is left as it is. -/
theorem iqBuffer_of_below {thr r j : Int} (below : r ^ 2 + j ^ 2 < thr ^ 2) (b : List Int) : iqBuffer thr (r, j) b = b :=
  if_neg (not_le.2 below)

/-- R168: at the threshold and above it every sample is corrected. -/
theorem iqBuffer_elem {thr r j : Int} (reached : thr ^ 2 ≤ r ^ 2 + j ^ 2) (b : List Int) {n : Nat}
    (hn : n < b.length / 2) :
    elemI (iqBuffer thr (r, j) b) n = sat16 (elemI b n - rsh (r * elemI b n + j * elemQ b n) 15) ∧
      elemQ (iqBuffer thr (r, j) b) n = sat16 (elemQ b n - rsh (j * elemI b n - r * elemQ b n) 15) := by
  rw [iqBuffer, if_pos reached]
  exact putPairs_map_elem _ b hn

/-- R168: the state IQBAL leaves. -/
theorem iqbal_eq (s : State) :
    let a := iqUpdate s.cfg.iqbalEmaQ15 (pairs s.buf) (s.cond.iqEmaR, s.cond.iqEmaJ)
    iqbal s = { s with
      buf := iqBuffer s.cfg.iqbalThrQ15 a s.buf
      cond := { s.cond with iqEmaR := a.1, iqEmaJ := a.2 } } := by
  unfold iqbal iqBuffer
  dsimp only
  split_ifs <;> rfl

/-- Settles O30: the coefficient is that of `iqUpdate_eq` with its sums over the samples, and the buffer is `iqBuffer`
of it. -/
theorem iqbalEstimatesThenCorrects : Obligations.IqbalEstimatesThenCorrects := by
  intro s m ar aj p er ej
  have coefficient : iqUpdate s.cfg.iqbalEmaQ15 (pairs s.buf) (s.cond.iqEmaR, s.cond.iqEmaJ) = (er, ej) := by
    rw [iqUpdate_eq, powerSum_pairs, squareSum_pairs]
    rfl
  refine ⟨iqBuffer s.cfg.iqbalThrQ15 (er, ej) s.buf, iqBuffer_sameShape _ _ _, fun below => iqBuffer_of_below below _,
    fun reached n hn => iqBuffer_elem reached _ hn, ?_⟩
  rw [exec_iqbal, iqbal_eq, coefficient]
  rfl

end Sys2Proof.Machine
end

section
/-! PROOFS. Carrier recovery of spec/42_fll.md: the rotated block sample by sample, the FM estimate over it, the update and
the state each of FLLDD and FLLBE leaves, then the statements about them and about the acquisition latch. -/

namespace Sys2Proof.Machine

open Sys2Proof.Safety

/-! ### The rotated block (R182) -/

/-- The NCO phase before sample `n` of a block. -/
def ncoPhase (P : Config.Params) (s : State) (n : Nat) : Int :=
  scanState (rotStep P s.fll.freqQ15) s.fll.phaseQ15 (pairs s.buf) n

/-- The block after ROT. -/
def rotated (P : Config.Params) (s : State) : List Cplx := (rotate P s.fll (pairs s.buf)).2

/-- Sample `n` of the block after ROT. -/
def rotatedSample (P : Config.Params) (s : State) (n : Nat) : Cplx := (rotated P s).getD n (0, 0)

@[simp] theorem rotated_length (P : Config.Params) (s : State) : (rotated P s).length = s.buf.length / 2 := by
  rw [rotated, rotate, scan_length, pairs_length]

/-- R182: ROT in terms of its phases and its samples. -/
theorem rotate_eq (P : Config.Params) (s : State) :
    rotate P s.fll (pairs s.buf) = (ncoPhase P s (s.buf.length / 2), rotated P s) := by
  rw [ncoPhase, ← pairs_length s.buf, scanState_length]
  rfl

/-- R182: one sample of ROT, the phase after it and the output it gives. -/
theorem rotStep_sample (P : Config.Params) (s : State) {n : Nat} (h : n < s.buf.length / 2) :
    let step := rotStep P s.fll.freqQ15 (ncoPhase P s n) (elemI s.buf n, elemQ s.buf n)
    ncoPhase P s (n + 1) = step.1 ∧ rotatedSample P s n = step.2 := by
  rw [← pairs_getD _ _ h]
  exact scanState_succ _ _ _ _ _ (by rwa [pairs_length])

/-- R182: the rotated block is its samples in order. -/
theorem range_map_rotatedSample (P : Config.Params) (s : State) :
    (List.range (s.buf.length / 2)).map (rotatedSample P s) = rotated P s := by
  refine List.ext_getElem (by simp) fun n _ hn => ?_
  rw [List.getElem_map, List.getElem_range, rotatedSample, List.getD_eq_getElem _ _ hn]

/-- R13, R182: BUF after the rotated block was written back. -/
theorem putPairs_rotated_elem (P : Config.Params) (s : State) {n : Nat} (h : n < s.buf.length / 2) :
    elemI (putPairs s.buf (rotated P s)) n = (rotatedSample P s n).1 ∧
      elemQ (putPairs s.buf (rotated P s)) n = (rotatedSample P s n).2 :=
  putPairs_elem _ _ (by rwa [rotated_length])

theorem lastSample_of_nonempty (prev d : Cplx) {ys : List Cplx} (h : ys.length ≠ 0) :
    lastSample prev ys = ys.getD (ys.length - 1) d := by
  rw [lastSample, List.getD_eq_getElem _ _ (by omega), List.getLastD_eq_getLast?, List.getLast?_eq_getElem?,
    List.getElem?_eq_getElem (by omega), Option.getD_some]

/-- R185, R188: the previous sample after a block is the last sample of the rotated block. -/
theorem lastSample_rotated (P : Config.Params) (prev : Cplx) {s : State} (h : s.buf.length / 2 ≠ 0) :
    lastSample prev (rotated P s) = rotatedSample P s (s.buf.length / 2 - 1) := by
  rw [lastSample_of_nonempty prev (0, 0) (by rwa [rotated_length]), rotated_length, rotatedSample]

/-! ### The FM estimate (R185) -/

/-- The sum of a function of each element and the one before it: `p` stands before the first, `d` is read nowhere. -/
theorem scan_previous_sum {α : Type} (g : α → α → Int) (d : α) : ∀ (p : α) (xs : List α),
    (scan (fun p x => (x, g p x)) p xs).2.sum =
      ∑ n ∈ Finset.range xs.length, g (if n = 0 then p else xs.getD (n - 1) d) (xs.getD n d)
  | _, [] => rfl
  | p, a :: as => by
    have shifted : ∀ n, (if n = 0 then a else as.getD (n - 1) d) = (a :: as).getD n d := by
      rintro (_ | n) <;> rfl
    rw [scan, List.sum_cons, scan_previous_sum g d a as, List.length_cons, Finset.sum_range_succ', add_comm]
    simp only [shifted, List.getD_cons_succ, List.getD_cons_zero, Nat.add_sub_cancel, Nat.succ_ne_zero, if_true,
      if_false]

/-- R185: the estimate over the rotated block, its phase steps numbered by the samples. -/
theorem estFm_rotated (P : Config.Params) (s : State) (prev : Cplx) :
    estFm P prev (rotated P s) =
      rnd ((∑ n ∈ Finset.range (s.buf.length / 2),
        phaseStep P (if n = 0 then prev else rotatedSample P s (n - 1)) (rotatedSample P s n) : Int) /
          ((s.buf.length / 2 : Nat) : Rat)) := by
  rw [estFm, scan_previous_sum (phaseStep P) (0, 0), rotated_length]
  rfl

/-! ### The update (R184) and the lock detector (R190) -/

/-- R184: the deadband, with the magnitude written as an absolute value. -/
theorem deadband_eq (c : CfgRegs) (err : Int) : deadband c err = if |err| ≤ c.fllDeadbandQ14 then 0 else err := by
  rw [deadband, Int.natCast_natAbs]

/-- R190: the count of quiet updates, with the magnitude written as an absolute value. -/
theorem quietRuns_eq (P : Config.Params) (freq : Int) (runs : Nat) :
    quietRuns P freq runs = if |freq| ≤ (P.lockFreqThr : Int) then min (runs + 1) (2 ^ 32 - 1) else 0 := by
  rw [quietRuns, ← Int.natCast_natAbs]
  simp only [Nat.cast_le]

/-- R190: the lock detector while the latch is open. -/
theorem lockDetect_of_unlocked (P : Config.Params) {f : FllRegs} (h : f.acqLocked = false) :
    lockDetect P f = { f with
      acqLocked := decide (P.lockBlocks ≤ quietRuns P f.freqQ15 f.acqQuietRuns)
      acqQuietRuns := quietRuns P f.freqQ15 f.acqQuietRuns } := by
  rw [lockDetect, acqLatch, h, Bool.or_false]

/-- R184: the change of frequency an error makes is within the slew bound. -/
theorem slewStep_abs_le {c : CfgRegs} (h : 0 ≤ c.fllSlewMaxQ15) (err : Int) : |slewStep c err| ≤ c.fllSlewMaxQ15 :=
  abs_le.2 (clampInt_mem _ (by omega))

/-- R11: saturation brings no value farther from one in range. -/
theorem sat32_add_sub_abs_le {v : Int} (low : -2 ^ 31 ≤ v) (high : v ≤ 2 ^ 31 - 1) (d : Int) :
    |sat32 (v + d) - v| ≤ |d| := by
  have below := neg_abs_le d
  have above := le_abs_self d
  rw [abs_le, sat32, clampInt]
  omega

/-! ### The state FLLDD and FLLBE leave -/

/-- The FLL registers after ROT of a block that is not empty: phase and previous sample moved (R182). -/
def rotatedRegs (P : Config.Params) (s : State) : FllRegs :=
  { s.fll with
    phaseQ15 := ncoPhase P s (s.buf.length / 2)
    prevR := (rotatedSample P s (s.buf.length / 2 - 1)).1
    prevJ := (rotatedSample P s (s.buf.length / 2 - 1)).2 }

/-- R186: an empty block changes nothing. -/
theorem flldd_of_empty (P : Config.Params) {s : State} (h : s.buf.length / 2 = 0) : flldd P s = s := by
  rw [flldd, pairs_length, if_pos h]

/-- R186: the state FLLDD leaves. -/
theorem flldd_of_nonempty (P : Config.Params) {s : State} (h : s.buf.length / 2 ≠ 0) :
    flldd P s = { s with
      buf := putPairs s.buf (rotated P s)
      fll := fllUpdate s.cfg (estFm P (s.fll.prevR, s.fll.prevJ) (rotated P s)) (rotatedRegs P s) } := by
  rw [flldd, pairs_length, if_neg h, rotate_eq]
  dsimp only
  rw [lastSample_rotated P _ h]
  rfl

/-- R188: an empty block changes nothing. -/
theorem fllbe_of_empty (P : Config.Params) {s : State} (h : s.buf.length / 2 = 0) : fllbe P s = s := by
  rw [fllbe, pairs_length, if_pos h]

/-- R188: the state FLLBE leaves. -/
theorem fllbe_of_nonempty (P : Config.Params) {s : State} (h : s.buf.length / 2 ≠ 0) :
    fllbe P s = { s with
      buf := putPairs s.buf (rotated P s)
      fll := if s.fll.acqLocked then rotatedRegs P s
        else lockDetect P (fllUpdate s.cfg (P.beDetect (rotated P s) s.cfg.tedSps (s.fll.prevR, s.fll.prevJ))
          (rotatedRegs P s)) } := by
  rw [fllbe, pairs_length, if_neg h, rotate_eq]
  dsimp only
  rw [lastSample_rotated P _ h]
  rfl

/-- R190: FLLBE with the latch set is ROT alone. -/
theorem fllbe_of_locked (P : Config.Params) {s : State} (h : s.buf.length / 2 ≠ 0) (locked : s.fll.acqLocked = true) :
    fllbe P s = { s with buf := putPairs s.buf (rotated P s), fll := rotatedRegs P s } := by
  rw [fllbe_of_nonempty P h, if_pos locked]

/-- R184, R188, R190: FLLBE with the latch open updates on the band-edge estimate and counts towards the latch. -/
theorem fllbe_of_unlocked (P : Config.Params) {s : State} (h : s.buf.length / 2 ≠ 0)
    (unlocked : s.fll.acqLocked = false) :
    let f := fllUpdate s.cfg (P.beDetect (rotated P s) s.cfg.tedSps (s.fll.prevR, s.fll.prevJ)) (rotatedRegs P s)
    let runs := quietRuns P f.freqQ15 s.fll.acqQuietRuns
    fllbe P s = { s with
      buf := putPairs s.buf (rotated P s)
      fll := { f with acqLocked := decide (P.lockBlocks ≤ runs), acqQuietRuns := runs } } := by
  intro f runs
  have stillOpen : f.acqLocked = false := unlocked
  rw [fllbe_of_nonempty P h, unlocked, if_neg Bool.false_ne_true, lockDetect_of_unlocked P stillOpen]
  rfl

/-- Settles O32: the phases and samples are those of the walk (`rotStep_sample`), and the state is `flldd_of_nonempty`
with the estimate as a sum and the deadband as an absolute value. -/
theorem fllddRotatesEstimatesUpdates : Obligations.FllddRotatesEstimatesUpdates := by
  intro s
  refine ⟨fun empty => by rw [exec_flldd, flldd_of_empty _ empty]; rfl, fun full => ?_⟩
  refine ⟨ncoPhase Config.params s, rotatedSample Config.params s, putPairs s.buf (rotated Config.params s), rfl,
    fun n hn => (rotStep_sample _ s hn).1, fun n hn => ⟨(rotStep_sample _ s hn).2, putPairs_rotated_elem _ s hn⟩,
    putPairs_sameShape _ _ (rotated_length _ s), ?_⟩
  rw [exec_flldd, flldd_of_nonempty _ full, fllUpdate, deadband_eq, estFm_rotated]
  rfl

/-- Settles O33: ROT is that of O32, and the state is `fllbe_of_locked` or `fllbe_of_unlocked`. -/
theorem fllbeRotatesAndLatches : Obligations.FllbeRotatesAndLatches := by
  intro s
  refine ⟨fun empty => by rw [exec_fllbe, fllbe_of_empty _ empty]; rfl, fun full => ?_⟩
  refine ⟨ncoPhase Config.params s, rotatedSample Config.params s, putPairs s.buf (rotated Config.params s), rfl,
    fun n hn => (rotStep_sample _ s hn).1, fun n hn => ⟨(rotStep_sample _ s hn).2, putPairs_rotated_elem _ s hn⟩,
    putPairs_sameShape _ _ (rotated_length _ s), ?_⟩
  rw [exec_fllbe, range_map_rotatedSample]
  dsimp only
  by_cases locked : s.fll.acqLocked = true
  · rw [fllbe_of_locked _ full locked, if_pos locked]
    rfl
  · rw [fllbe_of_unlocked _ full (Bool.eq_false_of_not_eq_true locked), if_neg locked, quietRuns_eq, fllUpdate,
      deadband_eq]
    rfl

/-! ### The slew law (R184, R191 (a)) -/

/-- R184: FLLDD leaves the frequency alone or updates it by one slew step. -/
theorem flldd_freq (P : Config.Params) (s : State) :
    (flldd P s).fll.freqQ15 = s.fll.freqQ15 ∨
      ∃ err, (flldd P s).fll.freqQ15 = sat32 (s.fll.freqQ15 + slewStep s.cfg err) := by
  by_cases h : s.buf.length / 2 = 0
  · exact .inl (by rw [flldd_of_empty P h])
  · exact .inr ⟨_, by rw [flldd_of_nonempty P h]; rfl⟩

/-- R184, R188: FLLBE leaves the frequency alone or updates it by one slew step. -/
theorem fllbe_freq (P : Config.Params) (s : State) :
    (fllbe P s).fll.freqQ15 = s.fll.freqQ15 ∨
      ∃ err, (fllbe P s).fll.freqQ15 = sat32 (s.fll.freqQ15 + slewStep s.cfg err) := by
  by_cases h : s.buf.length / 2 = 0
  · exact .inl (by rw [fllbe_of_empty P h])
  · by_cases locked : s.fll.acqLocked = true
    · exact .inl (by rw [fllbe_of_locked P h locked]; rfl)
    · exact .inr ⟨_, by rw [fllbe_of_unlocked P h (Bool.eq_false_of_not_eq_true locked)]; rfl⟩

/-- Settles O34: either operation moves the frequency by one slew step at most (`flldd_freq`, `fllbe_freq`), which is
within the bound before the saturation and after it. -/
theorem fllSlewIsBounded : Obligations.FllSlewIsBounded := by
  intro s t slew low high run
  have moved : t.fll.freqQ15 = s.fll.freqQ15 ∨ ∃ err, t.fll.freqQ15 = sat32 (s.fll.freqQ15 + slewStep s.cfg err) := by
    rcases run with run | run
    · rw [exec_flldd] at run
      cases run
      exact flldd_freq _ s
    · rw [exec_fllbe] at run
      cases run
      exact fllbe_freq _ s
  rcases moved with kept | ⟨err, updated⟩
  · rwa [kept, sub_self, abs_zero]
  · rw [updated]
    exact (sat32_add_sub_abs_le low high _).trans (slewStep_abs_le slew err)

/-! ### The acquisition latch (R190, R191 (d)) -/

/-- R186: FLLDD does not touch the latch. -/
theorem flldd_acqLocked (P : Config.Params) (s : State) : (flldd P s).fll.acqLocked = s.fll.acqLocked := by
  by_cases h : s.buf.length / 2 = 0
  · rw [flldd_of_empty P h]
  · rw [flldd_of_nonempty P h]
    rfl

/-- R188: FLLBE does not clear the latch. -/
theorem fllbe_acqLocked (P : Config.Params) {s : State} (locked : s.fll.acqLocked = true) :
    (fllbe P s).fll.acqLocked = true := by
  by_cases h : s.buf.length / 2 = 0
  · rwa [fllbe_of_empty P h]
  · rw [fllbe_of_locked P h locked]
    exact locked

@[simp] theorem load_fll (P : Config.Params) (len : Nat) (s : State) : (load P len s).fll = s.fll :=
  (congrArg State.fll (load_frame P len s) :)
@[simp] theorem wrr_fll (P : Config.Params) (reg : Nat) (data : Word) (s : State) : (wrr P reg data s).fll = s.fll :=
  (congrArg State.fll (wrr_frame P reg data s) :)
@[simp] theorem wrs_fll (reg : Nat) (imm : BitVec 16) (s : State) : (wrs reg imm s).fll = s.fll :=
  (congrArg State.fll (wrs_frame reg imm s) :)

/-- R190: a stage keeps a set latch; only the two FLL operations touch the FLL registers at all. -/
theorem stage_acqLocked (i : Instr) (s : State) (stage : isStage i = true) (locked : s.fll.acqLocked = true) :
    (result i s).fll.acqLocked = true := by
  cases i with
  | flldd => exact (flldd_acqLocked _ s).trans locked
  | fllbe => exact fllbe_acqLocked _ locked
  | nop | wrr | wrs | rst | fllrst | errclr | blk | load | emit => cases stage
  | _ => simp [result, locked]

/-- R190: BLK keeps a set latch, each of its stages keeping it. -/
theorem blkResult_acqLocked (len : Nat) {s : State} (locked : s.fll.acqLocked = true) :
    (blkResult len s).fll.acqLocked = true := by
  have loaded : (load Config.params len s).fll.acqLocked = true := by rwa [load_fll]
  unfold blkResult
  split_ifs
  · rw [countBlock_fll, emit_fll]
    exact pipeline_induct (I := fun u => u.fll.acqLocked = true) stage_acqLocked loaded
  · rwa [errorRecord_fll]

/-- R190: every operation but FLLRST and RST keeps a set latch. -/
theorem result_acqLocked {i : Instr} (notFllrst : i ≠ .fllrst) (notRst : i ≠ .rst) {s : State}
    (locked : s.fll.acqLocked = true) : (result i s).fll.acqLocked = true := by
  cases i with
  | fllrst => exact absurd rfl notFllrst
  | rst => exact absurd rfl notRst
  | blk len => exact blkResult_acqLocked len locked
  | nop | wrr | wrs | errclr | load | emit => simp [result, locked]
  | _ => exact stage_acqLocked _ s rfl locked

/-- Settles O35: the cases of a step, and `result_acqLocked` for an operation that is neither of the two. -/
theorem acquisitionLatchHoldsUntilReset : Obligations.AcquisitionLatchHoldsUntilReset := by
  intro s t run locked
  rcases step_next run with rfl | ⟨w, _, rfl⟩ | ⟨i, decoded, _, eq⟩
  · exact .inl locked
  · exact .inl locked
  · have kept : t.fll = (result i s).fll := by rcases eq with rfl | rfl <;> rfl
    rw [decoded, kept]
    by_cases isFllrst : i = .fllrst
    · exact .inr (.inl (congrArg Except.ok isFllrst))
    · by_cases isRst : i = .rst
      · exact .inr (.inr (congrArg Except.ok isRst))
      · exact .inl (result_acqLocked isFllrst isRst locked)

end Sys2Proof.Machine
end

section
/-! PROOFS. The matched filters of spec/43_matched_filter.md: one output of the block-local filter as its sum over the
taps, what it makes of a constant block, and the taps RRC filters with, then the statements about MF5 and RRC. -/

namespace Sys2Proof.Machine

open Sys2Proof.Safety

/-! ### The edges of a block (R101, R201) -/

/-- R101: the number of the sample that tap `k` of a filter with centre `ctr` reads for output `n` of a block of `m`
samples. -/
def tapIndex (ctr m n k : Nat) : Nat := (clampInt ((n : Int) + k - ctr) 0 ((m : Int) - 1)).toNat

theorem tapIndex_lt {ctr m n : Nat} (k : Nat) (h : n < m) : tapIndex ctr m n k < m := by
  have := clampInt_mem ((n : Int) + k - ctr) (lo := 0) (hi := (m : Int) - 1) (by omega)
  unfold tapIndex; omega

/-- R101: an element of the extended block is the sample at the clamped index: the first sample before the block, the
last one after it. -/
theorem edgeExtend_getD {ctr after n k : Nat} {x : List Int} (hn : n < x.length) (hk : k ≤ ctr + after) :
    (edgeExtend ctr after x).getD (n + k) 0 = x.getD (tapIndex ctr x.length n k) 0 := by
  unfold edgeExtend
  rcases lt_or_ge (n + k) ctr with before | notBefore
  · have first : tapIndex ctr x.length n k = 0 := by unfold tapIndex clampInt; omega
    rw [first, List.append_assoc, List.getD_append _ _ _ _ (by simpa using before), List.getD_replicate _ before]
    cases x <;> rfl
  · rcases lt_or_ge (n + k) (ctr + x.length) with inside | behind
    · have same : tapIndex ctr x.length n k = n + k - ctr := by unfold tapIndex clampInt; omega
      rw [same, List.getD_append _ _ _ _ (by simpa using inside),
        List.getD_append_right _ _ _ _ (by simpa using notBefore), List.length_replicate]
    · have last : tapIndex ctr x.length n k = x.length - 1 := by unfold tapIndex clampInt; omega
      rw [last, List.getD_append_right _ _ _ _ (by simpa using behind), List.getD_replicate _ (by simp; omega),
        List.getLastD_eq_getLast?, List.getLast?_eq_getElem?, List.getD_eq_getElem?_getD]

/-- A constant block extends to a longer constant one. -/
theorem edgeExtend_replicate (before after : Nat) {m : Nat} (v : Int) (h : m ≠ 0) :
    edgeExtend before after (List.replicate m v) = List.replicate (before + m + after) v := by
  have first : (List.replicate m v).headD 0 = v := by simp [List.head?_replicate, h]
  have last : (List.replicate m v).getLastD 0 = v := by simp [List.getLastD_eq_getLast?, List.getLast?_replicate, h]
  rw [edgeExtend, first, last, List.replicate_append_replicate, List.replicate_append_replicate]

/-! ### The block-local filter (R202, R203) -/

@[simp] theorem blockFir_length (h : List Int) (ctr : Nat) (x : List Int) : (blockFir h ctr x).length = x.length := by
  simp [blockFir]

/-- R202, R203: one output of the filter as its sum over the taps. -/
theorem blockFir_getD (h : List Int) (ctr : Nat) (x : List Int) {n : Nat} (hn : n < x.length) :
    (blockFir h ctr x).getD n 0 =
      sat16 (rsh (∑ k ∈ Finset.range h.length, h.getD k 0 * x.getD (tapIndex ctr x.length n k) 0) 15) := by
  rw [blockFir, range_map_getD _ _ hn, dot_eq_sum]
  congr 2
  refine Finset.sum_congr rfl fun k hk => ?_
  have below := Finset.mem_range.1 hk
  rw [← edgeExtend_getD (after := h.length - 1 - ctr) hn (by omega), List.getD_eq_getElem?_getD (l := List.drop _ _),
    List.getElem?_drop, ← List.getD_eq_getElem?_getD]

/-- The filtered samples of a block: both components, each over its own samples. -/
def filteredSamples (h : List Int) (ctr : Nat) (b : List Int) : List Cplx :=
  (blockFir h ctr ((pairs b).map Prod.fst)).zip (blockFir h ctr ((pairs b).map Prod.snd))

@[simp] theorem filteredSamples_length (h : List Int) (ctr : Nat) (b : List Int) :
    (filteredSamples h ctr b).length = b.length / 2 := by
  simp [filteredSamples]

theorem matchedFilter_eq (h : List Int) (ctr : Nat) (b : List Int) :
    matchedFilter h ctr b = putPairs b (filteredSamples h ctr b) := rfl

theorem matchedFilter_sameShape (h : List Int) (ctr : Nat) (b : List Int) : SameShape b (matchedFilter h ctr b) :=
  putPairs_sameShape _ _ (filteredSamples_length h ctr b)

/-- R202, R203: one output sample of the filter, both components. -/
theorem matchedFilter_elem (h : List Int) (ctr : Nat) (b : List Int) {n : Nat} (hn : n < b.length / 2) :
    elemI (matchedFilter h ctr b) n = sat16 (rsh
        (∑ k ∈ Finset.range h.length, h.getD k 0 * elemI b (tapIndex ctr (b.length / 2) n k)) 15) ∧
      elemQ (matchedFilter h ctr b) n = sat16 (rsh
        (∑ k ∈ Finset.range h.length, h.getD k 0 * elemQ b (tapIndex ctr (b.length / 2) n k)) 15) := by
  have component (f : Nat → Int) : (blockFir h ctr ((List.range (b.length / 2)).map f)).getD n 0 = sat16 (rsh
      (∑ k ∈ Finset.range h.length, h.getD k 0 * f (tapIndex ctr (b.length / 2) n k)) 15) := by
    rw [blockFir_getD _ _ _ (by simpa using hn), List.length_map, List.length_range]
    simp only [range_map_getD f 0 (tapIndex_lt _ hn)]
  obtain ⟨i, q⟩ := putPairs_elem b (filteredSamples h ctr b) (n := n) (by simpa using hn)
  rw [matchedFilter_eq, i, q, filteredSamples, zip_getD (by simpa using hn) (by simpa using hn), pairs_map_fst,
    pairs_map_snd]
  exact ⟨component _, component _⟩

/-- Settles O36: `matchedFilter_elem` for the five taps of P_MF5 with their centre at tap 2. -/
theorem mf5IsBlockLocalFilter : Obligations.Mf5IsBlockLocalFilter := by
  intro s
  refine ⟨matchedFilter Config.params.mf5 2 s.buf, matchedFilter_sameShape _ _ _, fun n hn => ?_, exec_mf5 s⟩
  have elems := matchedFilter_elem Config.params.mf5 2 s.buf hn
  rwa [Config.params.mf5_length] at elems

/-! ### The taps of RRC (R203 to R206) -/

/-- R204: the tap count is odd for any registers. -/
theorem ntaps_odd (sps span : Int) : ntaps sps span % 2 = 1 := by
  unfold ntaps
  dsimp only
  split_ifs <;> omega

/-- R203: what makes the cache stale. -/
theorem rrcStale_iff (k : RrcRegs) (c : CfgRegs) :
    rrcStale k c = true ↔
      k.cacheValid = false ∨ k.keySps ≠ c.tedSps ∨ k.keyAlpha ≠ c.rrcAlphaQ15 ∨ k.keySpan ≠ c.rrcSpanSyms := by
  simp only [rrcStale, Bool.or_eq_true, Bool.not_eq_true', decide_eq_true_eq, ne_eq, Prod.mk.injEq]
  tauto

/-- R203: a cache that is not stale is valid and holds the key of the present registers. -/
theorem rrc_eq_of_not_rrcStale {k : RrcRegs} {c : CfgRegs} (fresh : ¬ rrcStale k c = true) :
    k = ⟨c.tedSps, c.rrcAlphaQ15, c.rrcSpanSyms, true⟩ := by
  rw [rrcStale_iff] at fresh
  push Not at fresh
  obtain ⟨valid, sps, alpha, span⟩ := fresh
  rw [← sps, ← alpha, ← span, ← Bool.eq_true_of_not_eq_false valid]

/-- R203: the taps RRC filters with. -/
def rrcTapsUsed (P : Config.Params) (s : State) : List Int := (rrcRefresh P s).rrcTaps

theorem rrcTapsUsed_of_stale (P : Config.Params) {s : State} (stale : rrcStale s.rrc s.cfg = true) :
    rrcTapsUsed P s = P.rrcDesign s.cfg.tedSps s.cfg.rrcAlphaQ15 (ntaps s.cfg.tedSps s.cfg.rrcSpanSyms) := by
  rw [rrcTapsUsed, rrcRefresh, if_pos stale]

theorem rrcTapsUsed_of_not_stale (P : Config.Params) {s : State} (fresh : ¬ rrcStale s.rrc s.cfg = true) :
    rrcTapsUsed P s = s.rrcTaps := by
  rw [rrcTapsUsed, rrcRefresh, if_neg fresh]

/-- R203, R206: the state RRC leaves; after it the cache always holds the key of the present registers. -/
theorem rrc_eq (P : Config.Params) (s : State) :
    rrc P s = { s with
      buf := matchedFilter (rrcTapsUsed P s) (((rrcTapsUsed P s).length - 1) / 2) s.buf
      rrcTaps := rrcTapsUsed P s
      rrc := ⟨s.cfg.tedSps, s.cfg.rrcAlphaQ15, s.cfg.rrcSpanSyms, true⟩ } := by
  by_cases stale : rrcStale s.rrc s.cfg = true
  · rw [rrc, rrcTapsUsed, rrcRefresh, if_pos stale]
  · rw [rrc, rrcTapsUsed, rrcRefresh, if_neg stale, ← rrc_eq_of_not_rrcStale stale]

/-- Settles O37: the state is `rrc_eq`, the two cases of the taps are those of `rrcTapsUsed`, and the samples are
`matchedFilter_elem`. -/
theorem rrcDesignsThenFilters : Obligations.RrcDesignsThenFilters := by
  intro s
  refine ⟨(rrc Config.params s).buf, rrcTapsUsed Config.params s,
    fun stale => rrcTapsUsed_of_stale _ ((rrcStale_iff _ _).2 stale),
    fun fresh => rrcTapsUsed_of_not_stale _ (mt (rrcStale_iff _ _).1 fresh), ?_, fun n hn => ?_, ?_⟩
  · rw [rrc_eq]
    exact matchedFilter_sameShape _ _ _
  · rw [rrc_eq]
    exact matchedFilter_elem _ _ s.buf hn
  · rw [exec_rrc, rrc_eq]
    rfl

/-! ### A constant block (R207) -/

/-- R207 (b): taps of unit gain pass a constant, for with the edges repeated every tap reads it. -/
theorem blockFir_replicate {h : List Int} (gain : h.sum = 32768) {v : Int} (hv : IsInt16 v) (ctr m : Nat) :
    blockFir h ctr (List.replicate m v) = List.replicate m v := by
  refine List.eq_replicate_iff.2 ⟨by simp, fun b hb => ?_⟩
  obtain ⟨n, hn, rfl⟩ := List.mem_map.1 hb
  have below : n < m := by simpa using hn
  have exact : h.sum * v = v * 2 ^ 15 := by rw [gain, mul_comm]; norm_num
  rw [edgeExtend_replicate _ _ _ (by omega), List.drop_replicate, dot_replicate _ _ _ (by omega), exact,
    rsh_mul_two_pow, sat16_of_isInt16 hv]

/-- R207 (b): a constant block is left as it is. -/
theorem matchedFilter_of_constant {h : List Int} (gain : h.sum = 32768) {b : List Int} {z : Cplx} (hz : IsInt16Pair z)
    (block : pairs b = List.replicate (b.length / 2) z) (ctr : Nat) : matchedFilter h ctr b = b := by
  have samples : filteredSamples h ctr b = pairs b := by
    rw [filteredSamples, block, List.map_replicate, List.map_replicate, blockFir_replicate gain hz.1,
      blockFir_replicate gain hz.2, List.zip_replicate']
  rw [matchedFilter_eq, samples, putPairs_pairs]

/-- R205: from a cache that is empty or a design, RRC filters with taps of unit gain. -/
theorem rrcTapsUsed_sum {s : State} (cache : RrcOk s.rrc s.rrcTaps) : (rrcTapsUsed Config.params s).sum = 32768 := by
  by_cases stale : rrcStale s.rrc s.cfg = true
  · rw [rrcTapsUsed_of_stale _ stale]
    exact Config.params.rrcDesign_sum _ _ _ (ntaps_odd _ _)
  · obtain ⟨-, served, -⟩ := cache
    obtain ⟨-, -, -, -, -, -, -, design⟩ := served (by rw [rrc_eq_of_not_rrcStale stale])
    rw [rrcTapsUsed_of_not_stale _ stale, design]
    exact Config.params.rrcDesign_sum _ _ _ (ntaps_odd _ _)

/-- Settles O38: the taps have unit gain (`rrcTapsUsed_sum`), so `matchedFilter_of_constant`. -/
theorem rrcPassesConstantBlock : Obligations.RrcPassesConstantBlock := by
  intro s t vr vj hr hj cache constant completes
  rw [exec_rrc, rrc_eq] at completes
  obtain rfl := Host.Outcome.next.inj completes
  exact matchedFilter_of_constant (rrcTapsUsed_sum cache) (z := (vr, vj)) ⟨hr, hj⟩ (pairs_eq_replicate constant) _

end Sys2Proof.Machine
end

section
/-! PROOFS. The two interpolators of spec/44_ted.md: an inner product with a window as a sum over the taps, the row the
MMSE interpolator selects, and the Farrow coefficients as the cubic Lagrange basis, then the statements about them. -/

namespace Sys2Proof.Machine

/-- The inner product with a window of as many samples as `v` is read at. -/
theorem dotRat_map_range (h : List Rat) (n : Nat) (v : Nat → Rat) :
    dotRat h ((List.range n).map v) = ∑ t ∈ Finset.range n, h.getD t 0 * v t := by
  rw [dotRat_eq_sum, List.length_map, List.length_range]
  refine Finset.sum_congr rfl fun t ht => ?_
  have inside : t < ((List.range n).map v).length := by simpa using ht
  rw [List.getD_eq_getElem _ _ inside, List.getElem_map, List.getElem_range]

/-! ### The MMSE interpolator (R219) -/

/-- R219: between p and p + 1 the interpolator blends the sums of rows p and p + 1. -/
theorem interpMmse_eq (P : Config.Params) (l : TedLoop) (m : Int) {f : Rat} {p : Nat} (row : ⌊f * P.mmseK⌋ = (p : Int)) :
    let g := f * P.mmseK - (p : Rat)
    let blend := fun v : Nat → Rat =>
      (1 - g) * (∑ t ∈ Finset.range 8, (P.mmse.getD p []).getD t 0 * v t) +
        g * (∑ t ∈ Finset.range 8, (P.mmse.getD (p + 1) []).getD t 0 * v t)
    interpMmse P l m f =
      (blend fun t => (ageRat P l (7 - m - (t : Int))).1, blend fun t => (ageRat P l (7 - m - (t : Int))).2) := by
  have index : (f * P.mmseK).floor.toNat = p := (congrArg Int.toNat row).trans (Int.toNat_natCast p)
  simp only [interpMmse, index, List.map_map, dotRat_map_range]
  rfl

/-- Settles O40: the bounds on p say that it is the floor of f · K, so `interpMmse_eq`. -/
theorem mmseBlendsAdjacentRows : Obligations.MmseBlendsAdjacentRows := by
  intro l m f p _ _ lower upper
  exact interpMmse_eq Config.params l m (Int.floor_eq_iff.2 ⟨by exact_mod_cast lower, by exact_mod_cast upper⟩)

/-! ### The cubic Farrow interpolator (R220) -/

/-- The Lagrange basis polynomial of node `i` on the nodes −1, 0, 1, 2, at `f`. -/
noncomputable def cubicBasis (f : Rat) (i : Int) : Rat :=
  ∏ j ∈ (Finset.Icc (-1 : Int) 2).erase i, (f - (j : Rat)) / ((i : Rat) - (j : Rat))

/-- At the node 0 the basis polynomial of 0 is 1: numerator and denominator agree in each factor. -/
theorem cubicBasis_zero_self : cubicBasis 0 0 = 1 := by
  refine Finset.prod_eq_one fun j hj => ?_
  have node : (j : Rat) ≠ 0 := Int.cast_ne_zero.2 (Finset.ne_of_mem_erase hj)
  rw [Int.cast_zero]
  exact div_self (by simpa using node)

/-- At the node 0 the other basis polynomials vanish: they have the factor of the node 0. -/
theorem cubicBasis_zero_of_ne {i : Int} (h : i ≠ 0) : cubicBasis 0 i = 0 :=
  Finset.prod_eq_zero (i := 0) (Finset.mem_erase.2 ⟨h.symm, by decide⟩) (by simp)

/-- A basis polynomial from the three nodes it vanishes at. -/
theorem cubicBasis_of_others (f : Rat) {i a b c : Int} (others : (Finset.Icc (-1 : Int) 2).erase i = {a, b, c})
    (ha : a ∉ ({b, c} : Finset Int)) (hb : b ∉ ({c} : Finset Int)) :
    cubicBasis f i = (f - a) / (i - a) * ((f - b) / (i - b) * ((f - c) / (i - c))) := by
  rw [cubicBasis, others, Finset.prod_insert ha, Finset.prod_insert hb, Finset.prod_singleton]

/-- R220: the coefficients c[−1], c[0], c[1], c[2] are the basis polynomials. -/
theorem farrowTaps_eq_cubicBasis (f : Rat) :
    farrowTaps f = [cubicBasis f (-1), cubicBasis f 0, cubicBasis f 1, cubicBasis f 2] := by
  have neg_one : cubicBasis f (-1) = -f * (f - 1) * (f - 2) / 6 := by
    rw [cubicBasis_of_others f (a := 0) (b := 1) (c := 2) (by decide) (by decide) (by decide)]; push_cast; ring
  have zero : cubicBasis f 0 = (f + 1) * (f - 1) * (f - 2) / 2 := by
    rw [cubicBasis_of_others f (a := -1) (b := 1) (c := 2) (by decide) (by decide) (by decide)]; push_cast; ring
  have one : cubicBasis f 1 = -(f + 1) * f * (f - 2) / 2 := by
    rw [cubicBasis_of_others f (a := -1) (b := 0) (c := 2) (by decide) (by decide) (by decide)]; push_cast; ring
  have two : cubicBasis f 2 = (f + 1) * f * (f - 1) / 6 := by
    rw [cubicBasis_of_others f (a := -1) (b := 0) (c := 1) (by decide) (by decide) (by decide)]; push_cast; ring
  rw [farrowTaps, neg_one, zero, one, two]

/-- R220: the coefficients sum to 1 at every fraction. -/
theorem farrowTaps_sum (f : Rat) : (farrowTaps f).sum = 1 := by
  simp only [farrowTaps, List.sum_cons, List.sum_nil]
  ring

/-- R220: the inner product of the coefficients with four samples is their Lagrange interpolation. -/
theorem dotRat_farrowTaps (f : Rat) (v : Int → Rat) :
    dotRat (farrowTaps f) ((List.range 4).map fun i : Nat => v ((i : Int) - 1)) =
      ∑ i ∈ Finset.Icc (-1 : Int) 2, cubicBasis f i * v i := by
  have nodes : Finset.Icc (-1 : Int) 2 = {-1, 0, 1, 2} := by decide
  rw [dotRat_map_range, farrowTaps_eq_cubicBasis, nodes]
  simp [Finset.sum_range_succ, add_assoc]

/-- R220: both components of the interpolator are the Lagrange interpolation of that component. -/
theorem interpFarrow_eq (P : Config.Params) (l : TedLoop) (m : Int) (f : Rat) :
    interpFarrow P l m f =
      (∑ i ∈ Finset.Icc (-1 : Int) 2, cubicBasis f i * (ageRat P l (4 - m - i)).1,
       ∑ i ∈ Finset.Icc (-1 : Int) 2, cubicBasis f i * (ageRat P l (4 - m - i)).2) := by
  rw [← dotRat_farrowTaps f fun i => (ageRat P l (4 - m - i)).1,
    ← dotRat_farrowTaps f fun i => (ageRat P l (4 - m - i)).2, interpFarrow, List.map_map, List.map_map]
  rfl

/-- At the fraction 0 the interpolation is the value at the node 0. -/
theorem sum_cubicBasis_zero (v : Int → Rat) : ∑ i ∈ Finset.Icc (-1 : Int) 2, cubicBasis 0 i * v i = v 0 := by
  rw [Finset.sum_eq_single_of_mem 0 (by decide) fun i _ ne => by rw [cubicBasis_zero_of_ne ne, zero_mul],
    cubicBasis_zero_self, one_mul]

/-- Settles O41: the interpolation is `interpFarrow_eq`, and at 0 all its terms but that of the node 0 vanish. -/
theorem farrowIsCubicThroughSamples : Obligations.FarrowIsCubicThroughSamples := by
  intro l m f
  refine ⟨interpFarrow_eq Config.params l m f, farrowTaps_sum f, ?_⟩
  rw [interpFarrow_eq, sum_cubicBasis_zero, sum_cubicBasis_zero]
  rfl

end Sys2Proof.Machine
end

section
/-! PROOFS. The squelch and the soft audio gate of spec/45_squelch_gate.md: the grid as a finite set with its mean power,
the walk of the envelope over OUT, then the statements about them. -/

namespace Sys2Proof.Machine

/-! ### The squelch measurement (R251 to R254) -/

/-- R251, R252: the grid points listed by the model are the elements of the block a multiple of the stride after the
phase. -/
theorem gridPoints_toFinset {stride : Nat} (pos : 0 < stride) (phase len : Nat) :
    (gridPoints phase stride len).toFinset =
      (Finset.range len).filter fun j => phase ≤ j ∧ stride ∣ j - phase := by
  ext j
  rw [List.mem_toFinset, mem_gridPoints _ _ _ _ pos, Finset.mem_filter, Finset.mem_range]

/-- R251, R253: over a list of distinct points the running power moves toward the floored mean over their set. -/
theorem nextPower_map_of_nodup (power : Int) (log2 : Nat) (f : Nat → Int) {js : List Nat} (distinct : js.Nodup) :
    nextPower power log2 (js.map f) =
      if js.toFinset.card = 0 then power
      else power + rsh ((∑ j ∈ js.toFinset, f j) / (js.toFinset.card : Int) - power) log2 := by
  simp only [nextPower, List.map_eq_nil_iff, List.length_map, List.toFinset_card_of_nodup distinct,
    List.sum_toFinset f distinct, List.length_eq_zero_iff]

/-- Settles O46: an even grid is readable (`gridReadable_of_even`), the grid is the filtered range and lists no point
twice, so the power is that of `nextPower_map_of_nodup`; phase and decision are the model's formulas. -/
theorem sqlmMeasuresGridPower : Obligations.SqlmMeasuresGridPower := by
  intro s stride hs low even phaseEven lenEven grid mean power
  have strideNat : s.cfg.sqlStride.toNat = stride := by rw [hs, Int.toNat_natCast]
  have pos : 0 < stride := by omega
  have readable : gridReadable s = true := gridReadable_of_even lenEven (by rwa [strideNat]) phaseEven
  have powerEq : nextPower s.sql.runningPower s.sql.windowLog2 ((sqlGrid s).map (gridPower s.buf)) = power := by
    rw [sqlGrid, strideNat, nextPower_map_of_nodup _ _ _ (gridPoints_nodup _ _ _ pos), gridPoints_toFinset pos]
    rfl
  obtain ⟨_, completes⟩ := (execSqlm_cases s).resolve_right (by simp [readable])
  rw [completes, sqlm, powerEq, strideNat]
  rfl

/-! ### The soft audio gate (R256) -/

/-- The envelope before output element `n` of a GATE. -/
def gateEnvelope (s : State) (n : Nat) : Int :=
  scanState (gateStep s.cfg s.sql.gateOpen) s.sql.envQ15 s.out n

/-- The output elements of a GATE. -/
def gateOutputs (s : State) : List Int := (scan (gateStep s.cfg s.sql.gateOpen) s.sql.envQ15 s.out).2

@[simp] theorem gateOutputs_length (s : State) : (gateOutputs s).length = s.out.length := scan_length _ _ _

/-- R256: the state GATE leaves. -/
theorem gate_eq (s : State) :
    gate s = { s with out := gateOutputs s, sql := { s.sql with envQ15 := gateEnvelope s s.out.length } } := by
  rw [gateEnvelope, scanState_length]
  rfl

/-- R256: one output element of GATE, the envelope after it and the element scaled by that envelope. -/
theorem gateEnvelope_succ (s : State) {n : Nat} (h : n < s.out.length) :
    gateEnvelope s (n + 1) = gateEnv s.cfg s.sql.gateOpen (gateEnvelope s n) ∧
      (gateOutputs s).getD n 0 = sat16 (rsh (s.out.getD n 0 * gateEnvelope s (n + 1)) 15) := by
  obtain ⟨next, output⟩ := scanState_succ (gateStep s.cfg s.sql.gateOpen) s.sql.envQ15 s.out 0 0 h
  exact ⟨next, output.trans (by rw [gateEnvelope, next]; rfl)⟩

/-- Settles O48: the envelopes are the states of the walk over OUT, and one element of it is `gateEnvelope_succ`. -/
theorem gateScalesByMovingEnvelope : Obligations.GateScalesByMovingEnvelope := by
  intro s
  refine ⟨gateEnvelope s, gateOutputs s, rfl, gateOutputs_length s, fun n hn => ?_, by rw [exec_gate, gate_eq]; rfl⟩
  obtain ⟨next, output⟩ := gateEnvelope_succ s hn
  exact ⟨next, output⟩

end Sys2Proof.Machine
end

section
/-! PROOFS. The discriminators of spec/46_discriminators.md: the previous sample as the state of the walk over BUF, the
output elements as phase steps, then the statements about them. -/

namespace Sys2Proof.Machine

open Sys2Proof.Safety

/-! ### DISCFM and DISCDQ (R267, R268) -/

/-- The sample before sample `n` of the block: the kept one before the first. -/
def previousSample (s : State) (n : Nat) : Cplx :=
  if n = 0 then (s.cond.discPrevR, s.cond.discPrevJ) else (elemI s.buf (n - 1), elemQ s.buf (n - 1))

/-- The output elements of a discriminator. -/
def discOutputs (P : Config.Params) (s : State) : List Int :=
  (scan (discStep P) (s.cond.discPrevR, s.cond.discPrevJ) (pairs s.buf)).2

@[simp] theorem discOutputs_length (P : Config.Params) (s : State) : (discOutputs P s).length = s.buf.length / 2 := by
  rw [discOutputs, scan_length, pairs_length]

/-- R267: the state of the walk is the previous sample, because a step keeps nothing but the sample it has read. -/
theorem scanState_discStep (P : Config.Params) (s : State) {n : Nat} (h : n ≤ s.buf.length / 2) :
    scanState (discStep P) (s.cond.discPrevR, s.cond.discPrevJ) (pairs s.buf) n = previousSample s n := by
  cases n with
  | zero => rfl
  | succ n =>
    have next := (scanState_succ (discStep P) (s.cond.discPrevR, s.cond.discPrevJ) (pairs s.buf) (0, 0) 0
      (by rwa [pairs_length])).1
    exact next.trans (pairs_getD s.buf n h)

/-- R267: the state a discriminator leaves. -/
theorem discriminate_eq (P : Config.Params) (s : State) :
    discriminate P s = { s with
      out := discOutputs P s
      cond := { s.cond with
        discPrevR := (previousSample s (s.buf.length / 2)).1
        discPrevJ := (previousSample s (s.buf.length / 2)).2 } } := by
  rw [← scanState_discStep P s le_rfl, ← pairs_length s.buf, scanState_length]
  rfl

/-- R267: one output element, the saturated phase step from the sample before. -/
theorem discOutputs_getD (P : Config.Params) (s : State) {n : Nat} (h : n < s.buf.length / 2) :
    (discOutputs P s).getD n 0 = sat16 (phaseStep P (previousSample s n) (previousSample s (n + 1))) := by
  have output := (scanState_succ (discStep P) (s.cond.discPrevR, s.cond.discPrevJ) (pairs s.buf) (0, 0) 0
    (by rwa [pairs_length])).2
  rw [scanState_discStep P s h.le, pairs_getD _ _ h] at output
  exact output

/-- Settles O49: the outputs are those of the walk over BUF, one of them is `discOutputs_getD`, and both operations
leave the state of `discriminate_eq`. -/
theorem discriminatorsGivePhaseSteps : Obligations.DiscriminatorsGivePhaseSteps := by
  intro s
  refine ⟨discOutputs Config.params s, discOutputs_length _ s, fun n hn => discOutputs_getD _ s hn, ?_, ?_⟩
  · rw [exec_discfm, discfm, discriminate_eq]; rfl
  · rw [exec_discdq, discdq, discriminate_eq]; rfl

/-! ### DISCRAW (R269) -/

/-- Settles O50: DISCRAW completes with the one field `out` replaced. -/
theorem discrawCopiesBuf : Obligations.DiscrawCopiesBuf := by
  intro s
  rw [exec_discraw, discraw, advance]

end Sys2Proof.Machine
end

section
/-! PROOFS. What executing an operation does, as one equation for all 27; then what needs the whole of it: the step at a
decoded operation (R281), the completion of BLK (R290), and that no state of the invariant stops. -/

namespace Sys2Proof.Machine

open Sys2Proof.Safety

/-! ### Executing an operation -/

/-- Every element that the squelch grid of the operation reads is valid (R21): SQLM reads one, and BLK unless its LOAD
raises. It is tied to the model by `exec_eq`. -/
def gridOk : Instr → State → Bool
  | .sqlm, s => gridReadable s
  | .blk len, s => (loadFault Config.params s.cfg len).isSome ||
      gridReadable (blkFront Config.params (load Config.params len s))
  | _, _ => true

/-- Everything executing an operation is: waiting for its sample words, its result with CP past its words, or the fault of
the squelch grid. -/
theorem exec_eq (i : Instr) (s : State) :
    exec i s =
      if s.samples.length < portWords i then .next s
      else if gridOk i s = true then .next (advance i.words (result i s))
      else .fault .readBeyondValid := by
  cases i with
  | load len =>
    rcases execLoad_cases len s with ⟨few, e⟩ | ⟨enough, e⟩
    · rw [e, portWords, if_pos few]
    · rw [e, portWords, if_neg (Nat.not_lt.2 enough)]; rfl
  | sqlm =>
    rcases execSqlm_cases s with ⟨readable, e⟩ | ⟨unreadable, e⟩
    · rw [e, portWords, if_neg (Nat.not_lt_zero _), gridOk, if_pos readable]; rfl
    · rw [e, portWords, if_neg (Nat.not_lt_zero _), gridOk, if_neg (by simp [unreadable])]
  | blk len =>
    rcases execBlk_cases len s with ⟨few, e⟩ | ⟨enough, e⟩
    · rw [e, portWords, if_pos few]
    · rw [e, portWords, if_neg (Nat.not_lt.2 enough), gridOk]
      rcases blk_cases Config.params len s with ⟨_, _, fault, run⟩ | ⟨legal, ⟨readable, run⟩ | ⟨unreadable, run⟩⟩
      · rw [if_pos (by simp [fault]), result, ← blk_next run, run]; rfl
      · rw [if_pos (by simp [readable]), result, ← blk_next run, run]; rfl
      · rw [if_neg (by simp [legal, unreadable]), run]; rfl
  | _ => rfl

/-- An operation whose words are there and whose grid can be read completes. -/
theorem exec_of_gridOk {i : Instr} {s : State} (words : portWords i ≤ s.samples.length) (grid : gridOk i s = true) :
    exec i s = .next (advance i.words (result i s)) := by
  rw [exec_eq, if_neg (Nat.not_lt.2 words), if_pos grid]

/-! ### The step at a decoded operation (R281) -/

theorem step_of_exec_next {s t : State} {i : Instr} (decoded : fetch s = .ok i) (executed : exec i s = .next t) :
    step s = .next (settle i s.cp t) := by
  simp only [step, decoded, executed]

theorem step_of_exec_fault {s : State} {i : Instr} {r : Fault} (decoded : fetch s = .ok i)
    (executed : exec i s = .fault r) : step s = .fault r := by
  simp only [step, decoded, executed]

/-- R118, R314: the step at an illegal word. -/
theorem step_of_illegal {s : State} {w : Word}
    (illegal : fetch s = .error (.unassignedOpcode w) ∨ fetch s = .error (.nonzeroField w)) :
    step s = .next (illegalCommand w s) := by
  rcases illegal with h | h <;> simp only [step, h]

/-- Settles O5: the two outcomes of an execution as those of the step; `exec_ne_refused` for the third. -/
theorem stepRunsDecodedInstruction : Obligations.StepRunsDecodedInstruction := fun s i decoded =>
  ⟨fun _ executed => step_of_exec_next decoded executed, fun _ executed => step_of_exec_fault decoded executed,
    exec_ne_refused i s⟩

/-! ### Completion of BLK (R290) -/

theorem loadFault_of_legal {P : Config.Params} {c : CfgRegs} {len : Nat}
    (rate : c.sampleRateHz = 24000 ∨ c.sampleRateHz = 48000 ∨ c.sampleRateHz = 96000) (even : len % 2 = 0)
    (le : len ≤ P.maxLen) : loadFault P c len = none :=
  (loadFault_eq_none_iff P c len).2 ⟨decide_eq_true rate, even, le⟩

/-- R287: a LOAD that does not raise fills BUF and empties OUT. -/
theorem load_of_legal {P : Config.Params} {len : Nat} {s : State} (legal : loadFault P s.cfg len = none) :
    load P len s = { portDrop len s with buf := portRead len s, out := [] } := by
  simp only [load, legal]

/-- LOAD leaves the squelch registers alone. -/
@[simp] theorem load_sql (P : Config.Params) (len : Nat) (s : State) : (load P len s).sql = s.sql :=
  (congrArg State.sql (load_frame P len s) :)

/-- R141, R252: the stages before the squelch measurement keep the length of a loaded block even, so that an even grid
can be read. -/
theorem gridOk_blk_of_even {len : Nat} {s : State} (words : len ≤ s.samples.length) (stride : s.cfg.sqlStride % 2 = 0)
    (phase : s.sql.decimPhase % 2 = 0) : gridOk (.blk len) s = true := by
  cases legal : loadFault Config.params s.cfg len with
  | some fault => simp [gridOk, legal]
  | none =>
    have loaded : BufOk (load Config.params len s).buf := by rw [load_of_legal legal]; exact portRead_bufOk legal words
    have front : BufOk (blkFront Config.params (load Config.params len s)).buf :=
      blkFront_induct (I := fun t => BufOk t.buf) _ decimhb_bufOk decimleg_bufOk chlpf_bufOk loaded
    have readable : gridReadable (blkFront Config.params (load Config.params len s)) = true :=
      gridReadable_of_even front.1 (by rw [blkFront_cfg, load_cfg]; omega) (by rw [blkFront_sql, load_sql]; exact phase)
    simp [gridOk, readable]

/-- R290: the state a BLK leaves whose LOAD does not raise. -/
theorem blkResult_of_legal {len : Nat} {s : State} (legal : loadFault Config.params s.cfg len = none) :
    blkResult len s =
      countBlock (emit (blkBack Config.params (sqlm (blkFront Config.params (load Config.params len s))))) := by
  rw [blkResult, if_pos legal]

theorem load_err_of_legal {P : Config.Params} {len : Nat} {s : State} (legal : loadFault P s.cfg len = none) :
    (load P len s).err = s.err := by
  rw [load_of_legal legal]; rfl

/-- Settles O21: BLK completes since its grid can be read (`gridOk_blk_of_even`); what it leaves alone is the frame of the
pipeline, and its record is that of EMIT on the last state. -/
theorem blkCompletes : Obligations.BlkCompletes := by
  intro s len words rate even le stride phase
  have legal := loadFault_of_legal rate even le
  refine ⟨_, exec_of_gridOk words (gridOk_blk_of_even words stride phase), ?_, ?_, ?_, ?_, ?_, ?_, ?_⟩ <;>
    simp [result, blkResult_of_legal legal, load_err_of_legal legal, Instr.words, counterMax]

/-! ### No state of the invariant stops (R281, R319) -/

/-- Every operation can read its grid in a state of the invariant. -/
theorem gridOk_of_inv {s : State} (h : StateInv s) {i : Instr} (words : portWords i ≤ s.samples.length) :
    gridOk i s = true := by
  obtain ⟨_, _, stride⟩ := cfgOk_stride h.cfg
  cases i with
  | blk len => exact gridOk_blk_of_even words stride h.sql.phaseEven
  | sqlm => exact gridReadable_of_even h.buf.1 (by omega) h.sql.phaseEven
  | _ => rfl

/-- In a state of the invariant every operation completes. -/
theorem exec_completes {s : State} (h : StateInv s) (i : Instr) : ∃ t, exec i s = .next t := by
  rcases Nat.lt_or_ge s.samples.length (portWords i) with few | words
  · exact ⟨s, by rw [exec_eq, if_pos few]⟩
  · exact ⟨_, exec_of_gridOk words (gridOk_of_inv h words)⟩

/-- A state of the invariant has a next state. -/
theorem step_completes {s : State} (h : StateInv s) : ∃ t, step s = .next t := by
  cases fetched : fetch s with
  | ok i =>
    obtain ⟨t, executed⟩ := exec_completes h i
    exact ⟨_, step_of_exec_next fetched executed⟩
  | error e =>
    cases e with
    | noWord => exact ⟨s, step_of_fetch_missing (.inl fetched)⟩
    | noData => exact ⟨s, step_of_fetch_missing (.inr fetched)⟩
    | unassignedOpcode w => exact ⟨_, step_of_illegal (.inl fetched)⟩
    | nonzeroField w => exact ⟨_, step_of_illegal (.inr fetched)⟩

theorem run_succ {s t : State} (stepped : step s = .next t) (n : Nat) :
    Sys2Proof.core.run (n + 1) s = Sys2Proof.core.run n t := by
  have core : Sys2Proof.core.step s = .next t := stepped
  simp only [Host.Core.run, core]

/-- A property under which every step completes and which every step keeps makes a safe run. -/
theorem safeRun_of_invariant {I : State → Prop} (progress : ∀ s, I s → ∃ t, step s = .next t)
    (keeps : ∀ s t, I s → step s = .next t → I t) {s : State} (h : I s) : SafeRun s := by
  intro n
  induction n generalizing s with
  | zero => exact ⟨s, rfl⟩
  | succ n ih =>
    obtain ⟨t, stepped⟩ := progress s h
    obtain ⟨u, run⟩ := ih (keeps s t h stepped)
    exact ⟨u, (run_succ stepped n).trans run⟩

/-- Settles O55: the invariant gives every step (`step_completes`) and is kept by it (O54). -/
theorem invariantStatesNeverStop : Obligations.InvariantStatesNeverStop := fun _ h =>
  safeRun_of_invariant (fun _ => step_completes) stepKeepsInvariant h

end Sys2Proof.Machine
end

section
/-! PROOFS. The control operations and the exceptions of spec/47_control.md and spec/60_exceptions.md: the refused writes,
LOAD, the illegal word, and which operations touch the error registers. -/

namespace Sys2Proof.Machine

open Sys2Proof.Safety

/-! ### NOP, FLLRST, ERRCLR and EMIT (R282, R286, R288, R289) -/

/-- Settles O9: NOP is CP moved. -/
theorem nopMovesOnlyCp : Obligations.NopMovesOnlyCp := fun s => exec_nop s

/-- Settles O15: the state each of the two leaves is the record update of the statement. -/
theorem partialResetsClearOnlyTheirRegisters : Obligations.PartialResetsClearOnlyTheirRegisters :=
  ⟨fun s => exec_fllrst s, fun s => exec_errclr s⟩

/-- Settles O18: EMIT is one record written to the output port, and CP moved. -/
theorem emitSendsOut : Obligations.EmitSendsOut := fun s => exec_emit s

/-! ### Refused writes (R283, R284, R313, R315) -/

/-- R313: a number above 0x27 names no register. -/
theorem wrr_of_badReg {P : Config.Params} {reg : Nat} (high : 0x27 < reg) (data : Word) (s : State) :
    wrr P reg data s = raise .cfgBadReg 0x01 reg s := by
  simp only [wrr, (cfgRegOf_eq_none_iff reg).2 high]

theorem wrs_of_badReg {reg : Nat} (high : 0x27 < reg) (imm : BitVec 16) (s : State) :
    wrs reg imm s = raise .cfgBadReg 0x02 reg s := by
  simp only [wrs, (cfgRegOf_eq_none_iff reg).2 high]

/-- R315: WRR refuses a value outside the legal set of the register's class. -/
theorem wrr_of_illegal {P : Config.Params} {reg : Nat} {r : CfgReg} {data : Word} (hr : cfgRegOf reg = some r)
    (illegal : (if isReal r then legalReal r (wrrReal data) else legalInt r (wrrInt data)) = false) (s : State) :
    wrr P reg data s = raise .cfgRange 0x01 data.toNat s := by
  cases real : isReal r with
  | true =>
    rw [real, if_pos rfl] at illegal
    simp [wrr, hr, real, illegal]
  | false =>
    rw [real, if_neg Bool.false_ne_true] at illegal
    simp [wrr, hr, real, illegal]

/-- R284, R315: WRS refuses every REAL register. -/
theorem wrs_of_real {reg : Nat} {r : CfgReg} (hr : cfgRegOf reg = some r) (real : isReal r = true)
    (imm : BitVec 16) (s : State) : wrs reg imm s = raise .cfgRange 0x02 imm.toNat s := by
  simp [wrs, hr, real]

/-- R315: WRS refuses an integer outside the legal set. -/
theorem wrs_of_illegalInt {reg : Nat} {r : CfgReg} {imm : BitVec 16} (hr : cfgRegOf reg = some r)
    (int : isReal r = false) (illegal : legalInt r (wrsInt imm) = false) (s : State) :
    wrs reg imm s = raise .cfgRange 0x02 (wrsInt imm) s := by
  simp [wrs, hr, int, illegal]

/-- R316: ERR_INFO of a 32-bit word is the word. -/
theorem ofInt_toNat (w : Word) : BitVec.ofInt 32 w.toNat = w := by
  rw [BitVec.ofInt_natCast, BitVec.ofNat_toNat, BitVec.setWidth_eq]

/-- Settles O12: the number is refused before the value; each refusal is one `raise`, whose information is the number, the
data word, or the immediate, zero-extended for a REAL register and sign-extended for another. -/
theorem refusedWritesRaise : Obligations.RefusedWritesRaise := by
  refine ⟨fun s reg data high => ?_, fun s reg imm high => ?_, fun s reg r data hr illegal => ?_,
    fun s reg r imm hr illegal => ?_⟩
  · rw [exec_wrr, wrr_of_badReg high]; rfl
  · rw [exec_wrs, wrs_of_badReg high]; rfl
  · rw [exec_wrr, wrr_of_illegal hr illegal, raise, ofInt_toNat]; rfl
  · cases real : isReal r with
    | true =>
      rw [exec_wrs, wrs_of_real hr real, raise, BitVec.ofInt_natCast, BitVec.ofNat_toNat]; rfl
    | false =>
      rw [exec_wrs, wrs_of_illegalInt hr real (illegal.resolve_left (by simp [real]))]; rfl

/-! ### LOAD (R287) -/

theorem exec_load_of_words {len : Nat} {s : State} (words : len ≤ s.samples.length) :
    exec (.load len) s = .next (advance 1 (load Config.params len s)) :=
  exec_of_gridOk (i := .load len) words rfl

/-- Settles O16: such a LOAD does not raise (`loadFault_of_legal`). -/
theorem loadFillsBuf : Obligations.LoadFillsBuf := by
  intro s len words rate even le
  rw [exec_load_of_words words, load_of_legal (loadFault_of_legal rate even le)]
  rfl

/-- A LOAD that raises, as one record update: the words dropped, the four error registers, CP. -/
theorem exec_load_of_fault {len : Nat} {s : State} {x : Exc} {info : Int} (words : len ≤ s.samples.length)
    (fault : loadFault Config.params s.cfg len = some (x, info)) :
    exec (.load len) s = .next { s with
      cp := s.cp + 1
      samples := s.samples.drop len
      err := { s.err with
        code := excCode x, count := min (s.err.count + 1) counterMax, stage := 0x11, info := BitVec.ofInt 32 info } } := by
  rw [exec_load_of_words words, load_of_fault fault]
  rfl

/-- Settles O17: the fault of LOAD in the order of R287, then `exec_load_of_fault`. -/
theorem loadRaisesInPriority : Obligations.LoadRaisesInPriority := by
  intro s len words legal raised
  have rate : legalRate s.cfg.sampleRateHz = true ↔ legal := decide_eq_true_iff
  refine ⟨fun illegal => ?_, fun isLegal odd => ?_, fun isLegal even long => ?_⟩
  · exact exec_load_of_fault words (x := .cfgBadRate) (by simp [loadFault, rate, illegal])
  · exact exec_load_of_fault words (x := .cfgOddLength) (info := len) (by simp [loadFault, rate.2 isLegal, odd])
  · exact exec_load_of_fault words (x := .cfgLenRange) (info := len) (by simp [loadFault, rate.2 isLegal, even, long])

/-! ### The illegal word (R118, R314) -/

/-- Settles O7: the step at an illegal word, whose information is the word itself. -/
theorem illegalWordRaisesCmdIllegal : Obligations.IllegalWordRaisesCmdIllegal := by
  intro s w rest unread illegal
  rw [← unread] at illegal
  rw [step_of_illegal illegal, illegalCommand, raise, ofInt_toNat]
  rfl

/-! ### Who touches the error registers (R311, R322) -/

/-- R322: an operation leaves the error registers alone or is one of the listed ones; in particular no datapath stage
raises. -/
theorem result_err_or_listed (i : Instr) (s : State) :
    (result i s).err = s.err ∨ i = .errclr ∨ i = .rst ∨ (∃ reg data, i = .wrr reg data) ∨
      (∃ reg imm, i = .wrs reg imm) ∨ (∃ len, i = .load len) ∨ (∃ len, i = .blk len) := by
  cases i with
  | errclr | rst | wrr | wrs | load | blk => right; simp
  | _ => left; simp [result]

@[simp] theorem settle_err (i : Instr) (cp : Nat) (t : State) : (settle i cp t).err = t.err := by
  rcases settle_eq i cp t with e | e <;> simp [e]

/-- Settles O58: an operation that completes waits, or leaves its result, where `result_err_or_listed` applies. -/
theorem onlyListedCommandsTouchErrors : Obligations.OnlyListedCommandsTouchErrors := by
  intro s t i decoded run changed
  obtain ⟨u, executed, rfl⟩ := step_decoded decoded run
  rw [settle_err] at changed
  rcases exec_next executed with rfl | ⟨_, rfl⟩
  · simp at changed
  · refine (result_err_or_listed i s).resolve_left fun kept => ?_
    simp [kept] at changed

end Sys2Proof.Machine
end

section
/-! PROOFS. The pipeline of BLK as a sequence of stage operations (R290, R291): BLK against the command sequence it stands
for; and that no operation reads the error registers (R319). -/

namespace Sys2Proof.Machine

open Sys2Proof.Safety

/-! ### Sequences of stages -/

/-- The state a sequence of operations leaves, CP aside. It is tied to the model by `runInstrs_stages`. -/
def resultAll (is : List Instr) (s : State) : State := is.foldl (fun t i => result i t) s

@[simp] theorem resultAll_nil (s : State) : resultAll [] s = s := rfl

@[simp] theorem resultAll_cons (i : Instr) (is : List Instr) (s : State) :
    resultAll (i :: is) s = resultAll is (result i s) := rfl

@[simp] theorem resultAll_append (is js : List Instr) (s : State) :
    resultAll (is ++ js) s = resultAll js (resultAll is s) := List.foldl_append

@[simp] theorem resultAll_stageIf (b : Bool) (i : Instr) (s : State) :
    resultAll (stageIf b i) s = runIf b (result i) s := by
  cases b <;> rfl

/-- A change of the state that commutes with every stage commutes with a sequence of stages. -/
theorem resultAll_comm {g : State → State} (comm : ∀ i s, isStage i = true → result i (g s) = g (result i s))
    {is : List Instr} (stages : ∀ i ∈ is, isStage i = true) (s : State) : resultAll is (g s) = g (resultAll is s) := by
  induction is generalizing s with
  | nil => rfl
  | cons i is ih =>
    rw [resultAll_cons, resultAll_cons, comm i s (stages i (.head _)), ih fun j mem => stages j (.tail _ mem)]

/-- No stage reads CP. -/
theorem stage_withCp (k : Nat) (i : Instr) (s : State) (stage : isStage i = true) :
    result i (withCp k s) = withCp k (result i s) := by
  cases i with
  | decimhb => exact decimhb_withCp _ k s
  | decimleg => exact decimleg_withCp _ k s
  | chlpf => exact chlpf_withCp _ k s
  | sqlm => exact sqlm_withCp k s
  | dcblk => exact dcblk_withCp k s
  | agc => exact agc_withCp k s
  | limit => exact limit_withCp k s
  | iqbal => exact iqbal_withCp k s
  | flldd => exact flldd_withCp _ k s
  | fllbe => exact fllbe_withCp _ k s
  | mf5 => exact mf5_withCp _ k s
  | rrc => exact rrc_withCp _ k s
  | tedm => exact tedm_withCp _ k s
  | tedf => exact tedf_withCp _ k s
  | discfm => exact discriminate_withCp _ k s
  | discdq => exact discriminate_withCp _ k s
  | discraw => exact discraw_withCp k s
  | gate => exact gate_withCp k s
  | nop | wrr | wrs | rst | fllrst | errclr | blk | load | emit => cases stage

theorem advance_eq_withCp (n : Nat) (s : State) : advance n s = withCp (s.cp + n) s := rfl

theorem stage_advance (n : Nat) (i : Instr) (s : State) (stage : isStage i = true) :
    result i (advance n s) = advance n (result i s) := by
  rw [advance_eq_withCp, stage_withCp _ _ _ stage, advance_eq_withCp, result_cp]

@[simp] theorem advance_advance (m n : Nat) (s : State) : advance n (advance m s) = advance (m + n) s := by
  simp only [advance, Nat.add_assoc]

/-- A stage whose grid can always be read (R251). -/
def isPlainStage (i : Instr) : Bool := isStage i && decide (i ≠ .sqlm)

theorem isStage_of_plain {i : Instr} (h : isPlainStage i = true) : isStage i = true := (Bool.and_eq_true_iff.1 h).1

/-- Every stage but SQLM completes in every state. -/
theorem exec_plainStage {i : Instr} (plain : isPlainStage i = true) (s : State) :
    exec i s = .next (advance 1 (result i s)) := by
  cases i with
  | nop | wrr | wrs | rst | fllrst | errclr | blk | load | emit | sqlm => cases plain
  | _ => rfl

theorem runInstrs_cons_next {i : Instr} {s t : State} (executed : exec i s = .next t) (is : List Instr) :
    runInstrs (i :: is) s = runInstrs is t := by
  simp only [runInstrs, executed]

theorem runInstrs_cons_fault {i : Instr} {s : State} {r : Fault} (executed : exec i s = .fault r) (is : List Instr) :
    runInstrs (i :: is) s = .fault r := by
  simp only [runInstrs, executed]

/-- A sequence that begins with such stages: they leave their results one after another, CP past each. -/
theorem runInstrs_stages {is : List Instr} (plain : ∀ i ∈ is, isPlainStage i = true) (rest : List Instr) (n : Nat)
    (s : State) :
    runInstrs (is ++ rest) (advance n s) = runInstrs rest (advance (n + is.length) (resultAll is s)) := by
  induction is generalizing n s with
  | nil => rfl
  | cons i is ih =>
    have first : isPlainStage i = true := plain i (.head _)
    have executed : exec i (advance n s) = .next (advance (n + 1) (result i s)) := by
      rw [exec_plainStage first, stage_advance _ _ _ (isStage_of_plain first), advance_advance]
    rw [List.cons_append, runInstrs_cons_next executed, ih fun j mem => plain j (.tail _ mem), resultAll_cons,
      List.length_cons, Nat.add_assoc, Nat.add_comm 1]

/-! ### The stages BLK runs (R290, R291) -/

/-- The enabled stages before the squelch measurement, positions 1 and 2 of R291. -/
def frontStages (c : CfgRegs) : List Instr :=
  stageIf (decide (0 < c.downsamplePasses)) (if c.decimLegacy = 1 then .decimleg else .decimhb) ++
  stageIf (decide (c.chlpfEnable = 1)) .chlpf

/-- The enabled stages after it, positions 4 to 12. -/
def backStages (c : CfgRegs) : List Instr :=
  stageIf (decide (c.dcEnable = 1)) .dcblk ++
  stageIf (decide (c.agcEnable = 1) && decide (c.pathMode ≠ 2)) .agc ++
  stageIf (decide (c.limiterEnable = 1) && decide (c.pathMode ≠ 2)) .limit ++
  stageIf (decide (c.iqbalEnable = 1)) .iqbal ++
  stageIf (decide (c.fllEnable = 1)) (if c.pathMode = 2 then .fllbe else .flldd) ++
  stageIf (decide (c.mfEnable = 1)) (if c.pathMode = 2 ∧ c.cqpskRrcEnable = 1 then .rrc else .mf5) ++
  stageIf (decide (c.tedEnable = 1) && (decide (c.pathMode ≠ 0) || decide (c.tedForce = 1)))
    (if c.pathMode = 2 then .tedm else .tedf) ++
  [if c.discMode = 0 then .discfm else if c.discMode = 1 then .discdq else .discraw] ++
  stageIf (decide (c.gateEnable = 1)) .gate

theorem enabledStages_eq (c : CfgRegs) : enabledStages c = frontStages c ++ .sqlm :: backStages c := by
  simp only [enabledStages, frontStages, backStages, List.append_assoc, List.cons_append, List.nil_append]

theorem stageIf_plain {b : Bool} {i : Instr} (plain : isPlainStage i = true) :
    ∀ j ∈ stageIf b i, isPlainStage j = true := by
  cases b with
  | false => simp [stageIf]
  | true => simp [stageIf, plain]

theorem frontStages_plain (c : CfgRegs) : ∀ i ∈ frontStages c, isPlainStage i = true := by
  have decimator : isPlainStage (if c.decimLegacy = 1 then .decimleg else .decimhb) = true := by split_ifs <;> rfl
  simp only [frontStages, List.forall_mem_append]
  exact ⟨stageIf_plain decimator, stageIf_plain rfl⟩

theorem backStages_plain (c : CfgRegs) : ∀ i ∈ backStages c, isPlainStage i = true := by
  have fll : isPlainStage (if c.pathMode = 2 then .fllbe else .flldd) = true := by split_ifs <;> rfl
  have filter : isPlainStage (if c.pathMode = 2 ∧ c.cqpskRrcEnable = 1 then .rrc else .mf5) = true := by
    split_ifs <;> rfl
  have ted : isPlainStage (if c.pathMode = 2 then .tedm else .tedf) = true := by split_ifs <;> rfl
  have disc : isPlainStage (if c.discMode = 0 then .discfm else if c.discMode = 1 then .discdq else .discraw) = true := by
    split_ifs <;> rfl
  simp only [backStages, List.forall_mem_append, List.forall_mem_singleton, and_assoc]
  exact ⟨stageIf_plain rfl, stageIf_plain rfl, stageIf_plain rfl, stageIf_plain rfl, stageIf_plain fll,
    stageIf_plain filter, stageIf_plain ted, disc, stageIf_plain rfl⟩

/-! What BLK selects by the configuration is the operation of the sequence. -/

theorem blkDecimate_eq (s : State) :
    blkDecimate Config.params s =
      runIf (decide (0 < s.cfg.downsamplePasses)) (result (if s.cfg.decimLegacy = 1 then .decimleg else .decimhb)) s := by
  have pos : 0 < passes s ↔ 0 < s.cfg.downsamplePasses := by unfold passes; omega
  simp only [blkDecimate, runIf, pos, decide_eq_true_eq]
  split_ifs <;> rfl

theorem blkFll_eq {s : State} {c : CfgRegs} (h : s.cfg = c) :
    blkFll Config.params s = result (if c.pathMode = 2 then .fllbe else .flldd) s := by
  subst h
  simp only [blkFll, isCqpsk, decide_eq_true_eq]
  split_ifs <;> rfl

theorem blkFilter_eq {s : State} {c : CfgRegs} (h : s.cfg = c) :
    blkFilter Config.params s = result (if c.pathMode = 2 ∧ c.cqpskRrcEnable = 1 then .rrc else .mf5) s := by
  subst h
  simp only [blkFilter, isCqpsk, Bool.and_eq_true, decide_eq_true_eq]
  split_ifs <;> rfl

theorem blkTed_eq {s : State} {c : CfgRegs} (h : s.cfg = c) :
    blkTed Config.params s = result (if c.pathMode = 2 then .tedm else .tedf) s := by
  subst h
  simp only [blkTed, isCqpsk, decide_eq_true_eq]
  split_ifs <;> rfl

theorem blkDisc_eq {s : State} {c : CfgRegs} (h : s.cfg = c) :
    blkDisc Config.params s =
      result (if c.discMode = 0 then .discfm else if c.discMode = 1 then .discdq else .discraw) s := by
  subst h
  unfold blkDisc
  split_ifs <;> rfl

/-- A stage under a condition is the operation that the configuration selects. -/
theorem runIf_congr {f g : State → State} {s : State} (h : f s = g s) (b : Bool) : runIf b f s = runIf b g s := by
  cases b
  · rfl
  · exact h

theorem blkFront_eq (s : State) : blkFront Config.params s = resultAll (frontStages s.cfg) s := by
  simp only [frontStages, resultAll_append, resultAll_stageIf, ← blkDecimate_eq, blkFront, blkDecimate_cfg]
  rfl

theorem blkBack_eq (s : State) : blkBack Config.params s = resultAll (backStages s.cfg) s := by
  simp only [backStages, resultAll_append, resultAll_stageIf, resultAll_cons, resultAll_nil, blkBack]
  rw [blkDisc_eq (c := s.cfg), runIf_congr (blkTed_eq (c := s.cfg) _), runIf_congr (blkFilter_eq (c := s.cfg) _),
    runIf_congr (blkFll_eq (c := s.cfg) _)]
  · simp only [isCqpsk, blkTedRuns, isFmAnalog, ne_eq, decide_not]; rfl
  all_goals simp [runIf_cfg]

/-- R290: BLK runs the enabled stages, the squelch measurement among them. -/
theorem pipeline_eq (s : State) :
    blkBack Config.params (sqlm (blkFront Config.params s)) = resultAll (enabledStages s.cfg) s := by
  have cfg : (sqlm (blkFront Config.params s)).cfg = s.cfg := by simp
  rw [blkBack_eq, cfg, blkFront_eq, enabledStages_eq, resultAll_append, resultAll_cons]
  rfl

/-! ### BLK against its command sequence (R290, R291) -/

/-- SQLM behind `n` words of commands: what it does does not depend on CP. -/
theorem execSqlm_advance_cases (n : Nat) (s : State) :
    (gridReadable s = true ∧ exec .sqlm (advance n s) = .next (advance (n + 1) (sqlm s))) ∨
    (gridReadable s = false ∧ exec .sqlm (advance n s) = .fault .readBeyondValid) :=
  execSqlm_cases (advance n s)

/-- The enabled stages and EMIT as commands: the pipeline and its record, but for CP; or the fault of SQLM. -/
theorem runInstrs_enabledStages (n : Nat) (s : State) :
    ∃ m, runInstrs (enabledStages s.cfg ++ [.emit]) (advance n s) =
      if gridReadable (blkFront Config.params s) = true then
        .next (advance m (emit (blkBack Config.params (sqlm (blkFront Config.params s)))))
      else .fault .readBeyondValid := by
  have back : resultAll (backStages s.cfg) (sqlm (blkFront Config.params s)) =
      blkBack Config.params (sqlm (blkFront Config.params s)) := by rw [blkBack_eq, sqlm_cfg, blkFront_cfg]
  rw [enabledStages_eq, List.append_assoc, runInstrs_stages (frontStages_plain _), ← blkFront_eq, List.cons_append]
  refine ⟨n + (frontStages s.cfg).length + 1 + (backStages s.cfg).length + 1, ?_⟩
  rcases execSqlm_advance_cases (n + (frontStages s.cfg).length) (blkFront Config.params s) with
    ⟨readable, executed⟩ | ⟨unreadable, executed⟩
  · rw [if_pos readable, runInstrs_cons_next executed, runInstrs_stages (backStages_plain _), back]
    rfl
  · rw [unreadable, runInstrs_cons_fault executed]
    rfl

/-- The grid of a BLK whose LOAD does not raise. -/
theorem gridOk_blk_of_legal {len : Nat} {s : State} (legal : loadFault Config.params s.cfg len = none) :
    gridOk (.blk len) s = gridReadable (blkFront Config.params (load Config.params len s)) := by
  simp [gridOk, legal]

/-- A counted block and its one command word, in terms of the error registers and CP of another state. -/
theorem advance_countBlock {s t : State} (err : t.err = s.err) (cp : t.cp = s.cp) :
    advance 1 (countBlock t) = { t with
      cp := s.cp + 1, err := { s.err with blocksDone := min (s.err.blocksDone + 1) (2 ^ 32 - 1) } } := by
  rw [← err, ← cp]
  rfl

/-- Settles O20: behind the LOAD, the sequence asks for the same grid as BLK and leaves the same pipeline and record
(`runInstrs_enabledStages`, `exec_eq`); the pipeline keeps the error registers, so that CP and the count are all that
differs. -/
theorem blkEqualsItsCommandSequence : Obligations.BlkEqualsItsCommandSequence := by
  intro s len words rate even le
  have legal := loadFault_of_legal rate even le
  obtain ⟨m, stages⟩ := runInstrs_enabledStages 1 (load Config.params len s)
  rw [load_cfg, ← gridOk_blk_of_legal legal] at stages
  rw [blkSequence, List.append_assoc, List.singleton_append, runInstrs_cons_next (exec_load_of_words words), stages,
    exec_eq, portWords, if_neg (Nat.not_lt.2 words), result, blkResult_of_legal legal]
  split_ifs
  · exact congrArg Host.Outcome.next (advance_countBlock (by simp [load_err_of_legal legal]) (by simp))
  · rfl

/-! ### No operation reads the error registers (R319) -/

/-- The state with other error registers. -/
def withErr (e : ErrRegs) (s : State) : State := { s with err := e }

theorem stage_withErr (e : ErrRegs) (i : Instr) (s : State) (stage : isStage i = true) :
    result i (withErr e s) = withErr e (result i s) := by
  cases i with
  | decimhb => unfold result decimhb withErr passes; dsimp only; split_ifs <;> rfl
  | decimleg => unfold result decimleg withErr passes; dsimp only; split_ifs <;> rfl
  | chlpf => unfold result chlpf withErr; dsimp only; split_ifs <;> rfl
  | agc => unfold result agc withErr; dsimp only; split_ifs <;> rfl
  | iqbal => unfold result iqbal withErr; dsimp only; split_ifs <;> rfl
  | flldd => unfold result flldd withErr; dsimp only; split_ifs <;> rfl
  | fllbe => unfold result fllbe withErr; dsimp only; split_ifs <;> rfl
  | rrc => unfold result rrc rrcRefresh withErr; dsimp only; split_ifs <;> rfl
  | sqlm | dcblk | limit | mf5 | tedm | tedf | discfm | discdq | discraw | gate => rfl
  | nop | wrr | wrs | rst | fllrst | errclr | blk | load | emit => cases stage

theorem blkFront_withErr (e : ErrRegs) (s : State) :
    blkFront Config.params (withErr e s) = withErr e (blkFront Config.params s) := by
  rw [blkFront_eq, blkFront_eq]
  exact resultAll_comm (stage_withErr e) (fun i mem => isStage_of_plain (frontStages_plain _ i mem)) s

theorem enabledStages_stage (c : CfgRegs) : ∀ i ∈ enabledStages c, isStage i = true := by
  intro i mem
  rw [enabledStages_eq, List.mem_append, List.mem_cons] at mem
  rcases mem with h | rfl | h
  · exact isStage_of_plain (frontStages_plain c i h)
  · rfl
  · exact isStage_of_plain (backStages_plain c i h)

theorem pipeline_withErr (e : ErrRegs) (s : State) :
    blkBack Config.params (sqlm (blkFront Config.params (withErr e s))) =
      withErr e (blkBack Config.params (sqlm (blkFront Config.params s))) := by
  rw [pipeline_eq, pipeline_eq]
  exact resultAll_comm (stage_withErr e) (enabledStages_stage _) s

theorem load_withErr {len : Nat} {s : State} (e : ErrRegs) (legal : loadFault Config.params s.cfg len = none) :
    load Config.params len (withErr e s) = withErr e (load Config.params len s) := by
  rw [load_of_legal legal, load_of_legal (s := withErr e s) legal]
  rfl

/-- R319: whether an operation faults does not depend on the error registers. -/
theorem gridOk_withErr (e : ErrRegs) (i : Instr) (s : State) : gridOk i (withErr e s) = gridOk i s := by
  cases i with
  | blk len =>
    cases legal : loadFault Config.params s.cfg len with
    | some fault => simp [gridOk, withErr, legal]
    | none => rw [gridOk, load_withErr e legal, blkFront_withErr]; rfl
  | _ => rfl

/-- The two states differ in the error registers alone. -/
def SameButErr (s t : State) : Prop := withErr t.err s = t

theorem sameButErr_of_eq {s t : State} {e : ErrRegs} (h : s = withErr e t) : SameButErr s t := by
  subst h; rfl

theorem wrr_sameButErr (e : ErrRegs) (reg : Nat) (data : Word) (s : State) :
    SameButErr (wrr Config.params reg data (withErr e s)) (wrr Config.params reg data s) := by
  unfold wrr
  cases cfgRegOf reg with
  | none => rfl
  | some r => dsimp only; split_ifs <;> rfl

theorem wrs_sameButErr (e : ErrRegs) (reg : Nat) (imm : BitVec 16) (s : State) :
    SameButErr (wrs reg imm (withErr e s)) (wrs reg imm s) := by
  unfold wrs
  cases cfgRegOf reg with
  | none => rfl
  | some r => dsimp only; split_ifs <;> rfl

theorem load_sameButErr (e : ErrRegs) (len : Nat) (s : State) :
    SameButErr (load Config.params len (withErr e s)) (load Config.params len s) := by
  cases fault : loadFault Config.params s.cfg len with
  | none => exact sameButErr_of_eq (load_withErr e fault)
  | some p => rw [load_of_fault fault, load_of_fault (s := withErr e s) fault]; rfl

theorem blkResult_of_fault {len : Nat} {s : State} {p : Exc × Int}
    (fault : loadFault Config.params s.cfg len = some p) :
    blkResult len s = errorRecord (load Config.params len s) := by
  rw [blkResult, if_neg (by simp [fault])]

/-- R83, R290: the record of a halted BLK holds the code its own LOAD raised. -/
theorem blkResult_sameButErr (e : ErrRegs) (len : Nat) (s : State) :
    SameButErr (blkResult len (withErr e s)) (blkResult len s) := by
  cases fault : loadFault Config.params s.cfg len with
  | none =>
    rw [blkResult_of_legal fault, blkResult_of_legal (s := withErr e s) fault, load_withErr e fault, pipeline_withErr]
    rfl
  | some p =>
    rw [blkResult_of_fault fault, blkResult_of_fault (s := withErr e s) fault, load_of_fault fault,
      load_of_fault (s := withErr e s) fault]
    rfl

/-- R319: what an operation leaves does not depend on the error registers, but for the error registers. -/
theorem result_sameButErr (e : ErrRegs) (i : Instr) (s : State) : SameButErr (result i (withErr e s)) (result i s) := by
  cases i with
  | nop | rst | fllrst | errclr | emit => rfl
  | wrr reg data => exact wrr_sameButErr e reg data s
  | wrs reg imm => exact wrs_sameButErr e reg imm s
  | load len => exact load_sameButErr e len s
  | blk len => exact blkResult_sameButErr e len s
  | _ => exact sameButErr_of_eq (stage_withErr e _ s rfl)

theorem advance_sameButErr {s t : State} (h : SameButErr s t) (n : Nat) : SameButErr (advance n s) (advance n t) :=
  congrArg (advance n) h

/-- Settles O59: whether an operation waits, completes or faults is the same in both states (`exec_eq`,
`gridOk_withErr`), and so is what it leaves (`result_sameButErr`). -/
theorem earlierErrorsDoNotInfluenceOperations : Obligations.EarlierErrorsDoNotInfluenceOperations := by
  intro i s t e executed
  have other := exec_eq i (withErr e s)
  rw [gridOk_withErr] at other
  rw [exec_eq] at executed
  split_ifs at executed with few grid
  · obtain rfl := Host.Outcome.next.inj executed
    exact ⟨withErr e s, other.trans (if_pos few), rfl⟩
  · obtain rfl := Host.Outcome.next.inj executed
    rw [if_pos grid] at other
    exact ⟨_, other.trans (if_neg few), advance_sameButErr (result_sameButErr e i s) _⟩

end Sys2Proof.Machine
end
